-- ==== Sys2Proof/Word.lean ====
section
/-! DEFINITION. The word types of the block: 8-bit stream and buffer elements and 32-bit registers
(00_scope.md rule R8). -/

namespace Sys2Proof

/-- A stream byte or a buffer element: an unsigned 8-bit value (R8, R9). -/
abbrev Byte := BitVec 8

/-- A host register or a 32-bit field (R8). -/
abbrev Word := BitVec 32

end Sys2Proof
end

