-- ==== Sys2Proof/Machine/Codes.lean ====
section
/-! DEFINITION. The fixed codes of the container format (30_encoding.md R81, R83). -/

namespace Sys2Proof

/-- The type code of the tag `IHDR` (30_encoding.md R83). -/
def codeIHDR : Word := 0x49484452#32
/-- The type code of the tag `IDAT` (R83). -/
def codeIDAT : Word := 0x49444154#32
/-- The type code of the tag `tEXt` (R83). -/
def codeTEXt : Word := 0x74455874#32
/-- The type code of the tag `IEND` (R83). -/
def codeIEND : Word := 0x49454E44#32

/-- The four recognised type codes (R83). -/
def knownCodes : List Word := [codeIHDR, codeIDAT, codeTEXt, codeIEND]

/-- The signature as one 64-bit value, S[0] in bits 63:56 (R81, opcode_table.json). -/
def signatureCode : BitVec 64 := 0x89504E470D0A1A0A#64

/-- The eight signature bytes in stream order (R81). -/
def signatureList : List Byte :=
  [0x89#8, 0x50#8, 0x4E#8, 0x47#8, 0x0D#8, 0x0A#8, 0x1A#8, 0x0A#8]

end Sys2Proof
end

