-- ==== Sys2Proof/Config.lean ====
section
/-! DEFINITION. What an implementation fixes (00_scope.md R7) and the values the spec leaves free
(10_state.md R50, R51; 93_implementation_defined.md I7, I10 to I13). -/

namespace Sys2Proof

/-- One answer of the external decompressor that a configuration lists: for this request (input
bytes, expected size), `none` is Err and `some d` the bytes it produced (R7, 60_exceptions.md R183). -/
structure DecompressRow where
  src : List Byte
  expected : Nat
  answer : Option (List Byte)
  deriving DecidableEq, Repr

/-- The implementation parameters of R7. The four capacities are 32-bit (their upper constraint). The
decompressor's function DECOMPRESS is any total function: `decompressTable` lists answers a
configuration fixes, and `Config.decompress` stands for all the others. -/
structure Params where
  maxChunks : Word
  maxIdatBytes : Word
  maxTextBytes : Word
  maxReconBytes : Word
  decompressTable : List DecompressRow
  deriving DecidableEq, Repr

/-- The constraints of R7 that the widths do not already give. -/
abbrev Params.wf (p : Params) : Prop := 2 ≤ p.maxChunks.toNat ∧ 4 ≤ p.maxReconBytes.toNat

/-- FREE VALUE. The external decompressor's answer to a request no table row lists (R7 DECOMPRESS,
D5): a total function of the input bytes and the expected size, of which nothing is known. -/
opaque Config.decompress : List Byte → Nat → Option (List Byte)

/-- FREE VALUE. What the n-th host read of an undefined register or space element returns (R50: "any
value, possibly different on each read"). -/
opaque Config.freeRead : Nat → Word

/-- The byte spaces the engine itself reads (10_state.md R40). -/
inductive ByteSpace where
  | idat
  | decompBuf
  | recon
  deriving DecidableEq, Repr

/-- FREE VALUE. What an element that nothing has written since power-on or SOFT_RESET holds (R51:
"unspecified (any value)"), by the number of resets so far, space and index. -/
opaque Config.unwritten : Nat → ByteSpace → Nat → Byte

end Sys2Proof
end

