-- ==== Sys2Proof/Syntax.lean ====
section
/-! DEFINITION. The instructions of the block: one constructor per row of spec/opcode_table.json. -/

namespace Sys2Proof

/-- What the block executes. A chunk instruction's operands (declared length, payload, CRC) are not
part of the code that selects it (30_encoding.md R91): the engine assembles them in `cur_len`,
`cur_off` and `cur_crc` while the chunk streams through, so they stand in State (10_state.md R22). -/
inductive Instr where
  /-- SIGNATURE (R100, R101): compare the eight signature bytes. -/
  | signature
  /-- IHDR (R105, R106). -/
  | ihdr
  /-- IDAT (R109). -/
  | idat
  /-- tEXt (R110). -/
  | text
  /-- IEND (R113). -/
  | iend
  /-- UNKNOWN_CHUNK (R115): any type code that is not one of the four recognised ones. -/
  | unknownChunk (code : Word)
  /-- METHOD_CHECK (R130). -/
  | methodCheck
  /-- SIZE (R131, R132). -/
  | size
  /-- DECOMPRESS (R133, R134). -/
  | decompress
  /-- FILT_NONE (R138). -/
  | filtNone
  /-- FILT_SUB (R139). -/
  | filtSub
  /-- FILT_UP (R140). -/
  | filtUp
  /-- FILT_AVG (R141). -/
  | filtAvg
  /-- FILT_PAETH (R142, R143). -/
  | filtPaeth
  /-- FILT_INVALID (R144): a filter-type byte 5..255. -/
  | filtInvalid (ft : Byte)
  /-- PACK (R147, R148). -/
  | pack
  /-- CMD_START (R160, R161): a CTRL write with bits 1:0 = 01; bits 31:2 are ignored. -/
  | cmdStart (reserved : BitVec 30)
  /-- CMD_SOFT_RESET (R162, R163): a CTRL write with bit 1 = 1; bit 0 and bits 31:2 are ignored. -/
  | cmdSoftReset (start : Bool) (reserved : BitVec 30)
  deriving DecidableEq, Repr

end Sys2Proof
end

