-- ==== Sys2Proof/Machine/State.lean ====
section
/-! DEFINITION. The state of the block as plain data: the engine record (10_state.md R22), the host
registers (R31), the address spaces (R40), the two ports (20_memory.md R60) and the implementation
parameters (00_scope.md R7), beside the model's own input schedule and observation port. -/

namespace Sys2Proof.Machine

/-- The phases of a decode (R25). -/
inductive Phase where
  | idle | sig | len | type | payload | crc | check | decomp | filter | pack | done | error
  deriving DecidableEq, Repr

/-- Which step of the CHECK phase comes next: METHOD_CHECK, then SIZE, then the decompression request
(41_scanline_reconstructor.md R130 to R133). The spec gives the order and no field for it: this is
the model's own place marker (log entry 5). -/
inductive CheckStage where
  | method | size | request
  deriving DecidableEq, Repr

/-- The error kinds of 60_exceptions.md R170, `none` for code 0. -/
inductive ErrKind where
  | none
  | invalidSignature
  | malformedChunk
  | unsupportedChunkType
  | unsupportedMethod
  | decompressionFailed
  | unknownFilterType
  | truncatedStream
  | sequenceError
  | capacityExceeded
  deriving DecidableEq, Repr

/-- The error record `err` of R22: the offset is exact (R53), the index 32-bit (R36). -/
structure ErrRecord where
  kind : ErrKind
  offset : Nat
  index : Word
  deriving DecidableEq, Repr

/-- One CHUNK space record of four 32-bit words (R42). -/
structure ChunkRecord where
  len : Word
  type : Word
  crc : Word
  aux : Word
  deriving DecidableEq, Repr

/-- One TEXTDIR space record of four 32-bit words (R44). -/
structure TextEntry where
  chunkIndex : Word
  offset : Word
  keyLen : Word
  textLen : Word
  deriving DecidableEq, Repr

/-- The contents of one address space: the elements written since power-on or SOFT_RESET, by index,
indices strictly rising. An index not listed holds an unspecified element (R51). -/
abbrev Memory (α : Type) := List (Nat × α)

/-- The engine's state, the record of R22, field for field; `stage` and `packIdx` are the model's own
place markers inside the CHECK and PACK phases (log entry 5). -/
structure Engine where
  phase : Phase
  /-- Stream bytes consumed in this decode (R26), exact. -/
  pos : Nat
  /-- Signature bytes matched so far, 0..8. -/
  sigK : Nat
  /-- Bytes of the current length, type or CRC field consumed, 0..4. -/
  fldK : Nat
  /-- Stream offset of the current chunk's first length byte, exact. -/
  curStart : Nat
  curLen : Word
  curType : Word
  curCrc : Word
  /-- Payload bytes of the current chunk consumed, exact. -/
  curOff : Nat
  zeroSeen : Bool
  keyLen : Word
  hdrBuf : Vector Byte 13
  chunkCount : Word
  idatBytes : Word
  textCount : Word
  textBytes : Word
  hdrValid : Bool
  /-- The expected decompressed size E, exact (R131). -/
  expSize : Nat
  row : Word
  col : Word
  decPending : Bool
  err : ErrRecord
  stage : CheckStage
  /-- The pixel the PACK phase writes next. -/
  packIdx : Nat
  deriving DecidableEq, Repr

/-- The host registers that hold a value (R31). CTRL holds none (R32), the reserved registers hold
none (R52), and CAP_* are the parameters (R39). -/
structure Regs where
  status : Word
  errOffset : Word
  errIndex : Word
  streamPos : Word
  chunkCount : Word
  idatBytes : Word
  textCount : Word
  textBytes : Word
  hdrWidth : Word
  hdrHeight : Word
  hdrFmt : Word
  hdrIlace : Word
  expSize : Word
  pixelCount : Word
  deriving DecidableEq, Repr

/-- The address spaces of R40 other than REG. -/
structure Spaces where
  chunk : Memory ChunkRecord
  idat : List Host.Cell
  text : List Host.Cell
  textdir : Memory TextEntry
  pixel : Memory Word
  decompBuf : List Host.Cell
  recon : List Host.Cell
  deriving DecidableEq, Repr

/-- A request on the decompression port (R133): the input bytes and the expected size. -/
structure DecompressRequest where
  src : List Byte
  expected : Nat
  deriving DecidableEq, Repr

/-- The two ports of 20_memory.md R60: the bytes the host has presented and the engine has not
consumed, whether the host has signalled end-of-stream, the outstanding decompression request, and
the decompressor's answer waiting to be taken (`some none` is Err). -/
structure Ports where
  stream : List Byte
  streamEnded : Bool
  request : Option DecompressRequest
  answer : Option (Option (List Byte))
  deriving DecidableEq, Repr

/-- What a host access names (20_memory.md R62, R66): a REG byte offset, a word of a CHUNK or TEXTDIR
record, or an element of IDAT, TEXT or PIXEL space. -/
inductive HostAddr where
  | reg (offset : Nat)
  | chunk (k : Nat) (w : Nat)
  | textdir (m : Nat) (w : Nat)
  | idat (n : Nat)
  | text (n : Nat)
  | pixel (n : Nat)
  deriving DecidableEq, Repr

/-- What happens next at the block's boundary, one event a step (10_state.md R21: engine, host and
decompressor take steps; R70: CTRL writes take effect between two engine steps). -/
inductive Event where
  /-- The engine takes its turn. -/
  | engine
  /-- The host writes `value` with an access of `bytes` bytes. -/
  | hostWrite (a : HostAddr) (bytes : Nat) (value : Word)
  /-- The host reads with an access of `bytes` bytes. -/
  | hostRead (a : HostAddr) (bytes : Nat)
  /-- The host presents the next stream byte. -/
  | streamByte (b : Byte)
  /-- The host signals end-of-stream. -/
  | endOfStream
  /-- The decompressor answers the request it was sent. -/
  | decompressorAnswers
  /-- Power-on reset (70_reset_and_hazards.md R190). -/
  | powerOnReset
  deriving DecidableEq, Repr

/-- The whole state. Four fields are the model's own (log entries 2, 3, 4, 7): `schedule` is what the
outside does next (the engine alone moves when it is empty), `draws` counts the free values that
host reads have drawn, `epoch` how often a reset has made the spaces unspecified, and `readData` is
what the last host read returned. -/
structure State where
  params : Params
  eng : Engine
  regs : Regs
  spaces : Spaces
  ports : Ports
  schedule : List Event
  draws : Nat
  epoch : Nat
  readData : Option Word
  deriving DecidableEq, Repr

/-- No step of the block ends in a fault: every failure of a decode is the ERROR state the spec
describes (60_exceptions.md R175), which is a next state, and a block that waits for ever stays in
BUSY (R189). -/
inductive Fault where
  deriving DecidableEq, Repr

/-- Why a step has no meaning. -/
inductive Refusal where
  /-- The instruction has no meaning yet: raised by exec's refused arms only. Safe. -/
  | notModelled (mnemonic : String)
  /-- A host access that is not 32 bits wide, raised by the host access rules: "A sub-word, misaligned
  or wider access has no defined effect and a model refuses it" (20_memory.md R62). Safe. -/
  | hostAccessWidth
  /-- A register access at an offset that is no multiple of 4, raised by the host access rules (R62,
  the same sentence). Safe. -/
  | hostAccessMisaligned
  deriving DecidableEq, Repr

/-- The engine record after reset (R51). -/
def Engine.reset : Engine where
  phase := .idle
  pos := 0
  sigK := 0
  fldK := 0
  curStart := 0
  curLen := 0#32
  curType := 0#32
  curCrc := 0#32
  curOff := 0
  zeroSeen := false
  keyLen := 0#32
  hdrBuf := Vector.replicate 13 0#8
  chunkCount := 0#32
  idatBytes := 0#32
  textCount := 0#32
  textBytes := 0#32
  hdrValid := false
  expSize := 0
  row := 0#32
  col := 0#32
  decPending := false
  err := ⟨.none, 0, 0#32⟩
  stage := .method
  packIdx := 0

/-- The host registers after reset (R31, R51): all zero. -/
def Regs.reset : Regs where
  status := 0#32
  errOffset := 0#32
  errIndex := 0#32
  streamPos := 0#32
  chunkCount := 0#32
  idatBytes := 0#32
  textCount := 0#32
  textBytes := 0#32
  hdrWidth := 0#32
  hdrHeight := 0#32
  hdrFmt := 0#32
  hdrIlace := 0#32
  expSize := 0#32
  pixelCount := 0#32

/-- The spaces after reset: nothing listed, every element unspecified (R51). -/
def Spaces.reset : Spaces where
  chunk := []
  idat := []
  text := []
  textdir := []
  pixel := []
  decompBuf := []
  recon := []

/-- The ports after reset: nothing presented, no request outstanding (R190). -/
def Ports.reset : Ports where
  stream := []
  streamEnded := false
  request := none
  answer := none

/-- The capacities that spec/95_test_vectors.md assumes, and no listed decompressor answer: the
parameters of the one machine `State.reset` names (log entry 1, DESIGN CHOICE). -/
def Params.standard : Params where
  maxChunks := 64#32
  maxIdatBytes := 4096#32
  maxTextBytes := 4096#32
  maxReconBytes := 1048576#32
  decompressTable := []

/-- The block after power-on reset with parameters `p`: R190. -/
def State.resetWith (p : Params) : State where
  params := p
  eng := Engine.reset
  regs := Regs.reset
  spaces := Spaces.reset
  ports := Ports.reset
  schedule := []
  draws := 0
  epoch := 0
  readData := none

/-- The machine right after reset (R51, R190). -/
def State.reset : State := State.resetWith Params.standard

end Sys2Proof.Machine
end

