-- ==== Sys2Proof/Machine/Ops.lean ====
section
/-! DEFINITION. The shared operations: reading and writing a space, the stream port, byte assembly,
error entry (60_exceptions.md R175) and the two ways out of it (42_host_commands.md R160, R162). -/

namespace Sys2Proof.Machine

/-! ## Spaces -/

/-- The element at index `a` that was written since power-on or SOFT_RESET, or none (R51). -/
def Memory.read? {α : Type} : Memory α → Nat → Option α
  | [], _ => none
  | (k, v) :: rest, a => if a = k then some v else Memory.read? rest a

/-- Writes one element, keeping the indices strictly rising. -/
def Memory.write {α : Type} : Memory α → Nat → α → Memory α
  | [], a, v => [(a, v)]
  | (k, w) :: rest, a, v =>
    if a < k then (a, v) :: (k, w) :: rest
    else if a = k then (a, v) :: rest
    else (k, w) :: Memory.write rest a v

/-- Writes consecutive elements from index `a` on (R11 MemWrite). -/
def Memory.writeList {α : Type} (m : Memory α) (a : Nat) : List α → Memory α
  | [] => m
  | v :: vs => Memory.writeList (Memory.write m a v) (a + 1) vs

/-- The canonical form: indices strictly rising. An unlisted index has no value of its own, so no
listed element can equal it. -/
abbrev Memory.wf {α : Type} (m : Memory α) : Prop := m.Pairwise (fun x y => x.1 < y.1)

/-- The byte space of a name. -/
def Spaces.bytes (sp : Spaces) : ByteSpace → List Host.Cell
  | .idat => sp.idat
  | .decompBuf => sp.decompBuf
  | .recon => sp.recon

/-- What the engine reads at index `a` of a byte space (R11 MemRead): the element written there, or the
unspecified element the space powered up with (R51, log entry 7). -/
def State.readByteAt (s : State) (b : ByteSpace) (a : Nat) : Byte :=
  (Memory.read? (s.spaces.bytes b) a).getD (Config.unwritten s.epoch b a)

/-- `n` consecutive bytes from index `a` on (R11 MemRead). -/
def State.readBytes (s : State) (b : ByteSpace) (a : Nat) : Nat → List Byte
  | 0 => []
  | n + 1 => s.readByteAt b a :: s.readBytes b (a + 1) n

/-! ## Byte order and display -/

/-- One more byte of a big-endian field: {w[23:0], b} (20_memory.md R61, 00_scope.md R11). Four of them
make the field {b0, b1, b2, b3} whatever stood there before. -/
def appendByte (w : Word) (b : Byte) : Word := w.setWidth 24 ++ b

/-- {b0, b1, b2, b3}, b0 in bits 31:24 (R11 ReadBE32, R61). -/
def be32 (b0 b1 b2 b3 : Byte) : Word :=
  appendByte (appendByte (appendByte (appendByte 0#32 b0) b1) b2) b3

/-- How a 32-bit register shows an exact value: min(value, 0xFFFFFFFF) (10_state.md R53). -/
def sat32 (n : Nat) : Word := BitVec.ofNat 32 (min n 0xFFFFFFFF)

/-! ## STATUS and the error codes -/

/-- The numeric error code (60_exceptions.md R170). -/
def ErrKind.code : ErrKind → BitVec 4
  | .none => 0#4
  | .invalidSignature => 1#4
  | .malformedChunk => 2#4
  | .unsupportedChunkType => 3#4
  | .unsupportedMethod => 4#4
  | .decompressionFailed => 5#4
  | .unknownFilterType => 6#4
  | .truncatedStream => 7#4
  | .sequenceError => 8#4
  | .capacityExceeded => 9#4

/-- STATUS in BUSY (R34, R160). -/
def statusBusy : Word := 0x00000001#32

/-- STATUS in DONE (R34, R148). -/
def statusDone : Word := 0x00000002#32

/-- STATUS in ERROR: (code << 8) | 4 (R34, R175). -/
def statusError (k : ErrKind) : Word := ((k.code.setWidth 32) <<< 8) ||| 0x00000004#32

/-! ## Taking an error, and leaving it -/

/-- `raise k(offset, index)`: error entry (R175). The one shared operation behind every error of a
decode: it records the error, shows it in the registers and puts the engine into ERROR. -/
def State.raise (k : ErrKind) (offset : Nat) (index : Word) (s : State) : State :=
  { s with
    eng := { s.eng with err := ⟨k, offset, index⟩, phase := .error }
    regs := { s.regs with
      errOffset := sat32 offset
      errIndex := index
      streamPos := sat32 s.eng.pos
      status := statusError k } }

/-- The engine waits: no step (20_memory.md R60; 60_exceptions.md R189). -/
def State.wait (s : State) : State := s

/-- An accepted START (R160): every engine field at its reset value but the phase, the error and
position registers 0, BUSY, and a new stream (70_reset_and_hazards.md R195: no unconsumed byte of an
earlier stream is part of it). It is also the return from ERROR (60_exceptions.md R177). The spaces
and the result registers keep what they hold, which no host read shows outside DONE (log entry 15). -/
def State.start (s : State) : State :=
  { s with
    eng := { Engine.reset with phase := .sig }
    regs := { s.regs with
      errOffset := 0#32, errIndex := 0#32, streamPos := 0#32, status := statusBusy }
    ports := Ports.reset }

/-- The reset state with this machine's parameters (R51, R190, R191): every register and engine field at
its reset value, the spaces unspecified (a new epoch), any request abandoned. What the outside does
next and what the host last read are no part of the block. -/
def State.resetBlock (s : State) : State :=
  { s with
    eng := Engine.reset
    regs := Regs.reset
    spaces := Spaces.reset
    ports := Ports.reset
    epoch := s.epoch + 1 }

/-! ## The stream port -/

/-- What `ReadByte()` finds at the stream port (00_scope.md R11, 20_memory.md R60). -/
inductive StreamRead where
  /-- The next byte, consumed: `pos` has moved by 1. -/
  | byte (b : Byte) (s : State)
  /-- End-of-stream. -/
  | ended
  /-- The host has presented neither a byte nor end-of-stream. -/
  | stalled
  deriving DecidableEq, Repr

/-- One byte consumed, `rest` left at the port: `pos` moves by 1 (10_state.md R24). -/
def State.consume (rest : List Byte) (s : State) : State :=
  { s with
    eng := { s.eng with pos := s.eng.pos + 1 }
    ports := { s.ports with stream := rest } }

/-- `ReadByte()` (R11): takes the next byte of the stream. -/
def State.nextByte (s : State) : StreamRead :=
  match s.ports.stream with
  | b :: rest => .byte b (State.consume rest s)
  | [] => if s.ports.streamEnded then .ended else .stalled

/-- TruncatedStream at end-of-stream: offset |S|, which is `pos`, and the index of the chunk being parsed
(R11, R116, R176). -/
def State.raiseTruncated (s : State) : State :=
  s.raise .truncatedStream s.eng.pos s.eng.chunkCount

/-- An error located at the current chunk: offset cur_start, index chunk_count (R104, R176). -/
def State.raiseAtChunk (k : ErrKind) (s : State) : State :=
  s.raise k s.eng.curStart s.eng.chunkCount

/-! ## Engine field updates -/

/-- `phase <- p`, with no other effect (R11). -/
def State.setPhase (p : Phase) (s : State) : State :=
  { s with eng := { s.eng with phase := p } }

/-- A chunk boundary (R27, R103): the next byte is the first length byte of a chunk. -/
def State.chunkBoundary (s : State) : State :=
  { s with eng := { s.eng with
      phase := .len
      curStart := s.eng.pos
      curOff := 0
      zeroSeen := false
      keyLen := 0#32
      fldK := 0 } }

/-- The CRC field is next (R103). -/
def State.enterCrc (s : State) : State :=
  { s with eng := { s.eng with phase := .crc, fldK := 0 } }

end Sys2Proof.Machine
end

