-- ==== Sys2Proof/Machine/Flags.lean ====
section
/-! DEFINITION. The three flags, read from STATUS (10_state.md R34, R48), and the fields of the header
registers (R33). -/

namespace Sys2Proof.Machine

/-- STATUS.BUSY, bit 0 (R34). -/
def Regs.busy (r : Regs) : Bool := r.status.getLsbD 0

/-- STATUS.DONE, bit 1 (R34). -/
def Regs.done (r : Regs) : Bool := r.status.getLsbD 1

/-- STATUS.ERROR, bit 2 (R34). -/
def Regs.error (r : Regs) : Bool := r.status.getLsbD 2

/-- STATUS.ERR_CODE, bits 11:8 (R34). -/
def Regs.errCode (r : Regs) : BitVec 4 := r.status.extractLsb' 8 4

/-- HDR_FMT[7:0] BIT_DEPTH (R33). -/
def Regs.bitDepth (r : Regs) : Byte := r.hdrFmt.extractLsb' 0 8

/-- HDR_FMT[15:8] COLOR_TYPE (R33). -/
def Regs.colorType (r : Regs) : Byte := r.hdrFmt.extractLsb' 8 8

/-- HDR_FMT[23:16] COMPRESSION (R33). -/
def Regs.compression (r : Regs) : Byte := r.hdrFmt.extractLsb' 16 8

/-- HDR_FMT[31:24] FILTER (R33). -/
def Regs.filterMethod (r : Regs) : Byte := r.hdrFmt.extractLsb' 24 8

/-- HDR_ILACE[7:0] INTERLACE (R33). -/
def Regs.interlace (r : Regs) : Byte := r.hdrIlace.extractLsb' 0 8

/-- The STATUS word each phase shows (R23, R25, R34). -/
def statusOf (p : Phase) (k : ErrKind) : Word :=
  match p with
  | .idle => 0#32
  | .sig | .len | .type | .payload | .crc | .check | .decomp | .filter | .pack => statusBusy
  | .done => statusDone
  | .error => statusError k

end Sys2Proof.Machine
end

