-- ==== Sys2Proof/Machine/HostCommands.lean ====
section
/-! DEFINITION. The host's side (42_host_commands.md): the two commands, register and space reads, and the
writes that have no effect. -/

namespace Sys2Proof.Machine

/-! ## Commands -/

/-- CMD_START (R160, R161): ignored while STATUS.BUSY, else a new decode. -/
def execCmdStart (_reserved : BitVec 30) (s : State) : Host.Outcome State Fault Refusal :=
  if s.regs.busy then .next s else .next s.start

/-- CMD_SOFT_RESET (R162, R163): the reset state, in every state and whatever bit 0 holds. -/
def execCmdSoftReset (_start : Bool) (_reserved : BitVec 30) (s : State) :
    Host.Outcome State Fault Refusal :=
  .next s.resetBlock

/-! ## Reads -/

/-- A register defined only in DONE (10_state.md R50): its value, or none for an unspecified one. -/
def Regs.whenDone (r : Regs) (w : Word) : Option Word := if r.done then some w else none

/-- Host register read at a REG offset (R164, 10_state.md R31): none where R50 or R37 says the value
is unspecified. CTRL, the reserved offsets and offsets at or beyond the space's size read 0 (R32,
R41, R52), and so do the reserved bits 31:8 of HDR_ILACE (R33, R52). -/
def State.readReg (s : State) (offset : Nat) : Option Word :=
  if offset = 0x04 then some s.regs.status
  else if offset = 0x08 then some s.regs.errOffset
  else if offset = 0x0C then some s.regs.errIndex
  else if offset = 0x10 then if s.regs.busy then none else some s.regs.streamPos
  else if offset = 0x14 then s.regs.whenDone s.regs.chunkCount
  else if offset = 0x18 then s.regs.whenDone s.regs.idatBytes
  else if offset = 0x1C then s.regs.whenDone s.regs.textCount
  else if offset = 0x20 then s.regs.whenDone s.regs.textBytes
  else if offset = 0x24 then s.regs.whenDone s.regs.hdrWidth
  else if offset = 0x28 then s.regs.whenDone s.regs.hdrHeight
  else if offset = 0x2C then s.regs.whenDone s.regs.hdrFmt
  else if offset = 0x30 then s.regs.whenDone (s.regs.interlace.setWidth 32)
  else if offset = 0x34 then s.regs.whenDone s.regs.expSize
  else if offset = 0x38 then s.regs.whenDone s.regs.pixelCount
  else if offset = 0x40 then some s.params.maxChunks
  else if offset = 0x44 then some s.params.maxIdatBytes
  else if offset = 0x48 then some s.params.maxTextBytes
  else if offset = 0x4C then some s.params.maxReconBytes
  else some 0#32

/-- Host read of element `n` of a space of `size` elements whose count register holds `count` (R166,
10_state.md R41): 0 at or beyond the size, the element in DONE below the count, else unspecified. -/
def State.readElement (s : State) (size : Nat) (count : Word) (n : Nat)
    (element : Option Word) : Option Word :=
  if size ≤ n then some 0#32
  else if s.regs.done ∧ n < count.toNat then element
  else none

/-- A word of a CHUNK record (10_state.md R42). -/
def ChunkRecord.word (r : ChunkRecord) (w : Nat) : Word :=
  if w = 0 then r.len else if w = 1 then r.type else if w = 2 then r.crc else r.aux

/-- A word of a TEXTDIR entry (10_state.md R44). -/
def TextEntry.word (e : TextEntry) (w : Nat) : Word :=
  if w = 0 then e.chunkIndex else if w = 1 then e.offset else if w = 2 then e.keyLen else e.textLen

/-- What a 32-bit host read returns (R164, R166): none where the spec leaves the value unspecified, but
for the bits `unspecifiedValue` fixes. A
record word other than 0..3 reads 0 (10_state.md R41). -/
def State.hostValue (s : State) : HostAddr → Option Word
  | .reg offset => s.readReg offset
  | .chunk k w =>
    if 3 < w then some 0#32
    else s.readElement s.params.maxChunks.toNat s.regs.chunkCount k
      ((Memory.read? s.spaces.chunk k).map (ChunkRecord.word · w))
  | .textdir m w =>
    if 3 < w then some 0#32
    else s.readElement s.params.maxChunks.toNat s.regs.textCount m
      ((Memory.read? s.spaces.textdir m).map (TextEntry.word · w))
  | .idat n =>
    s.readElement s.params.maxIdatBytes.toNat s.regs.idatBytes n
      ((Memory.read? s.spaces.idat n).map (BitVec.setWidth 32))
  | .text n =>
    s.readElement s.params.maxTextBytes.toNat s.regs.textBytes n
      ((Memory.read? s.spaces.text n).map (BitVec.setWidth 32))
  | .pixel n =>
    s.readElement (s.params.maxReconBytes.toNat / 3) s.regs.pixelCount n
      (Memory.read? s.spaces.pixel n)

/-- An unspecified read of `a` that draws the free value `w`: HDR_ILACE's reserved bits 31:8 read 0 in
every state (10_state.md R33, R52), every other bit is free (R50; log entry 25, DEDUCED). -/
def unspecifiedValue (a : HostAddr) (w : Word) : Word :=
  if a = .reg 0x30 then (w.extractLsb' 0 8).setWidth 32 else w

/-- Delivers a read of `a`: a defined value changes nothing in the block, an unspecified one is a fresh
free value (10_state.md R50, R52; 20_memory.md R65). -/
def State.deliver (a : HostAddr) (v : Option Word) (s : State) : State :=
  match v with
  | some w => { s with readData := some w }
  | none =>
    { s with
      readData := some (unspecifiedValue a (Config.freeRead s.draws)), draws := s.draws + 1 }

/-- What makes an access one the model refuses (20_memory.md R62): its width, or the alignment of a
register offset. -/
def accessRefusal (a : HostAddr) (bytes : Nat) : Option Refusal :=
  if bytes ≠ 4 then some .hostAccessWidth
  else
    match a with
    | .reg offset => if offset % 4 ≠ 0 then some .hostAccessMisaligned else none
    | .chunk _ _ | .textdir _ _ | .idat _ | .text _ | .pixel _ => none

/-- A host read (R164, R166). -/
def hostRead (a : HostAddr) (bytes : Nat) (s : State) : Host.Outcome State Fault Refusal :=
  match accessRefusal a bytes with
  | some r => .refused r
  | none => .next (s.deliver a (s.hostValue a))

/-- A host write that is no command: to another register (R165), to a space (10_state.md R41), or to CTRL
with bits 1:0 = 00 (R163). It is ignored. -/
def hostWriteIgnored (a : HostAddr) (bytes : Nat) (s : State) : Host.Outcome State Fault Refusal :=
  match accessRefusal a bytes with
  | some r => .refused r
  | none => .next s

/-! ## The stream port's other side -/

/-- The host presents the next byte of the stream (20_memory.md R60). A byte presented after
end-of-stream is no byte of S (log entry 8). -/
def State.presentByte (b : Byte) (s : State) : State :=
  if s.ports.streamEnded then s
  else { s with ports := { s.ports with stream := s.ports.stream ++ [b] } }

/-- The host signals end-of-stream (20_memory.md R60). -/
def State.endStream (s : State) : State :=
  { s with ports := { s.ports with streamEnded := true } }

end Sys2Proof.Machine
end

