-- ==== Sys2Proof/WellFormed.lean ====
section
/-! DEFINITION. Which instruction terms the encoding admits (30_encoding.md R89, R91). -/

namespace Sys2Proof

/-- The encoding admits the term: the two catch-all rows apply only where no specific row matches
(R91: "Both decodes are total: every code and every byte selects exactly one row"). Every other
term is admitted: an IHDR of a wrong length is an encodable instruction whose meaning raises. -/
def Instr.wellFormed : Instr → Bool
  | .unknownChunk code => !knownCodes.contains code
  | .filtInvalid ft => decide (4 < ft.toNat)
  | .signature | .ihdr | .idat | .text | .iend => true
  | .methodCheck | .size | .decompress => true
  | .filtNone | .filtSub | .filtUp | .filtAvg | .filtPaeth | .pack => true
  | .cmdStart _ | .cmdSoftReset _ _ => true

/-- `Instr.wellFormed` as a proposition. -/
abbrev Instr.WellFormed (i : Instr) : Prop := i.wellFormed = true

end Sys2Proof
end

