-- ==== Sys2Proof/Decode.lean ====
section
/-! DEFINITION. The decode maps of 30_encoding.md (R81, R83, R89, R91, R94), total on every code, and
the encoder written from the same tables. -/

namespace Sys2Proof

/-- A code in the place the block reads it from. The block has no one instruction stream (R80): a unit
is selected by its position, by a type code, by a filter-type byte or by the word written to CTRL,
and the same number means different units in different places. -/
inductive Code where
  /-- The first 8 stream bytes as one value, S[0] in bits 63:56 (opcode_table.json, SIGNATURE). -/
  | sig (w : BitVec 64)
  /-- A chunk's type code, t0 in bits 31:24 (R83). -/
  | tag (w : Word)
  /-- A scanline's filter-type byte (R89). -/
  | filter (b : Byte)
  /-- A word written to CTRL (R94). -/
  | ctrl (w : Word)
  deriving DecidableEq, Repr

/-- Why a code is no instruction. -/
inductive DecodeError where
  /-- The eight bytes are not the signature of R81; the engine finds this byte by byte and raises
  InvalidSignature (R100). -/
  | badSignature
  /-- A CTRL word with bits 1:0 = 00: "any value with bits 1:0 = 00 has no effect" (R94, R163). -/
  | noCommand
  deriving DecidableEq, Repr

/-- Decode of the signature position (R80, R81). -/
def decodeSignature (w : BitVec 64) : Except DecodeError Instr :=
  if w = signatureCode then .ok .signature else .error .badSignature

/-- Chunk decode (R91): "the type code selects exactly one of five rows". -/
def decodeTypeCode (w : Word) : Instr :=
  if w = codeIHDR then .ihdr
  else if w = codeIDAT then .idat
  else if w = codeTEXt then .text
  else if w = codeIEND then .iend
  else .unknownChunk w

/-- Filter decode (R89, R91): 0..4 the five filters, 5..255 INVALID. -/
def decodeFilterByte (b : Byte) : Instr :=
  if b = 0#8 then .filtNone
  else if b = 1#8 then .filtSub
  else if b = 2#8 then .filtUp
  else if b = 3#8 then .filtAvg
  else if b = 4#8 then .filtPaeth
  else .filtInvalid b

/-- Command decode of a word written to CTRL (R32, R94, R163): bit 1 is SOFT_RESET, whatever bit 0
holds; bit 0 alone is START; bits 31:2 are ignored. -/
def decodeCtrl (w : Word) : Except DecodeError Instr :=
  if w.getLsbD 1 then .ok (.cmdSoftReset (w.getLsbD 0) (w.extractLsb' 2 30))
  else if w.getLsbD 0 then .ok (.cmdStart (w.extractLsb' 2 30))
  else .error .noCommand

/-- The decoder: total on every code of every place, rejecting by name. -/
def decode : Code → Except DecodeError Instr
  | .sig w => decodeSignature w
  | .tag w => .ok (decodeTypeCode w)
  | .filter b => .ok (decodeFilterByte b)
  | .ctrl w => decodeCtrl w

/-- The encoder: the code of an instruction in its place, or none for the four stages, which
opcode_table.json gives "no encoding" (METHOD_CHECK, SIZE, DECOMPRESS, PACK). -/
def encode : Instr → Option Code
  | .signature => some (.sig signatureCode)
  | .ihdr => some (.tag codeIHDR)
  | .idat => some (.tag codeIDAT)
  | .text => some (.tag codeTEXt)
  | .iend => some (.tag codeIEND)
  | .unknownChunk code => some (.tag code)
  | .methodCheck => none
  | .size => none
  | .decompress => none
  | .filtNone => some (.filter 0#8)
  | .filtSub => some (.filter 1#8)
  | .filtUp => some (.filter 2#8)
  | .filtAvg => some (.filter 3#8)
  | .filtPaeth => some (.filter 4#8)
  | .filtInvalid ft => some (.filter ft)
  | .pack => none
  | .cmdStart reserved => some (.ctrl (reserved ++ 0b01#2))
  | .cmdSoftReset start reserved => some (.ctrl (reserved ++ (1#1 ++ BitVec.ofBool start)))

/-- The place a table word of `nbits` bits is read in, as opcode_table.json gives the rows' widths:
64 bits the signature, 8 bits a filter-type byte, 32 bits a type code or a CTRL word. The table
gives type codes and CTRL words the same 32 bits: the words 1, 2 and 3 (R94: no reserved bit set)
are read as CTRL words, every other word as a type code (log entry 12). -/
def tableCode (nbits w : Nat) : Option Code :=
  if nbits = 64 then some (.sig (BitVec.ofNat 64 w))
  else if nbits = 8 then some (.filter (BitVec.ofNat 8 w))
  else if nbits = 32 then
    if 1 ≤ w ∧ w ≤ 3 then some (.ctrl (BitVec.ofNat 32 w)) else some (.tag (BitVec.ofNat 32 w))
  else none

/-- What the decoder reads from a word numbered as spec/opcode_table.json numbers it. -/
def decodeTableWord (nbits w : Nat) : Option Instr :=
  match tableCode nbits w with
  | none => none
  | some c =>
    match decode c with
    | .ok i => some i
    | .error _ => none

/-- The four bytes of a 32-bit value, most significant first: the stream's byte order (20_memory.md
R61). -/
def be32Bytes (w : Word) : List Byte :=
  [w.extractLsb' 24 8, w.extractLsb' 16 8, w.extractLsb' 8 8, w.extractLsb' 0 8]

/-- The eight bytes of a signature value, S[0] from bits 63:56 (opcode_table.json). -/
def sigBytes (w : BitVec 64) : List Byte :=
  [w.extractLsb' 56 8, w.extractLsb' 48 8, w.extractLsb' 40 8, w.extractLsb' 32 8,
   w.extractLsb' 24 8, w.extractLsb' 16 8, w.extractLsb' 8 8, w.extractLsb' 0 8]

/-- The stream bytes of a chunk with these four fields (R82): length, tag, payload, CRC. -/
def chunkBytes (len code : Word) (payload : List Byte) (crc : Word) : List Byte :=
  be32Bytes len ++ be32Bytes code ++ payload ++ be32Bytes crc

end Sys2Proof
end

