-- ==== Sys2Proof/Machine/Parser.lean ====
section
/-! DEFINITION. The Container Parser (40_container_parser.md): the signature, the chunk framing, and the
meanings of the chunk instructions. One engine step consumes at most one stream byte. -/

namespace Sys2Proof.Machine

/-! ## Chunk framing -/

/-- One byte of the LENGTH field (R103): after the fourth the TYPE field is next. The bytes of a field
that is not complete stand in the low bytes of the field they make, shifted in one by one (log entry 24,
DESIGN CHOICE: the rule assigns the whole field at once). -/
def State.lengthStep (s : State) : State :=
  match s.nextByte with
  | .byte b t =>
    { t with eng := { t.eng with
        curLen := appendByte t.eng.curLen b
        fldK := if 3 ≤ t.eng.fldK then 0 else t.eng.fldK + 1
        phase := if 3 ≤ t.eng.fldK then .type else .len } }
  | .ended => s.raiseTruncated
  | .stalled => s.wait

/-- One byte of the TYPE field (R103): the fourth is the type completion, where the engine stands with
`fld_k` = 4 until it runs the chunk instruction the code selects. An incomplete field stands in
`cur_type` (log entry 24). -/
def State.typeStep (s : State) : State :=
  match s.nextByte with
  | .byte b t =>
    { t with eng := { t.eng with
        curType := appendByte t.eng.curType b
        fldK := t.eng.fldK + 1 } }
  | .ended => s.raiseTruncated
  | .stalled => s.wait

/-- TypeChecks for a recognised code `ty` (R104, R108), in the order of the rule: the first error that
applies, or none. The first check of R104, an unrecognised code, is UNKNOWN_CHUNK's meaning. -/
def State.typeChecks (s : State) (ty : Word) : Option ErrKind :=
  if s.eng.chunkCount.toNat = 0 ∧ ty ≠ codeIHDR then some .sequenceError
  else if 0 < s.eng.chunkCount.toNat ∧ ty = codeIHDR then some .sequenceError
  else if ty = codeIHDR ∧ s.eng.curLen.toNat ≠ 13 then some .malformedChunk
  else if ty = codeIEND ∧ s.eng.curLen.toNat ≠ 0 then some .malformedChunk
  else if s.params.maxChunks.toNat < s.eng.chunkCount.toNat + 1 then some .capacityExceeded
  else if ty = codeIDAT ∧
      s.params.maxIdatBytes.toNat < s.eng.idatBytes.toNat + s.eng.curLen.toNat then
    some .capacityExceeded
  else if ty = codeTEXt ∧
      s.params.maxTextBytes.toNat < s.eng.textBytes.toNat + s.eng.curLen.toNat + 1 then
    some .capacityExceeded
  else none

/-- Type completion (R103, R104): the checks, then the payload, or, where `cur_len` = 0, payload
completion at once. -/
def State.typeCompletion (ty : Word) (complete : State → State) (s : State) : State :=
  match s.typeChecks ty with
  | some k => s.raiseAtChunk k
  | none => if 0 < s.eng.curLen.toNat then s.setPhase .payload else complete s

/-- One payload byte: `store` puts it where the chunk type puts byte number `cur_off` of its payload, and
after the last of `cur_len` bytes comes payload completion (R105, R109, R110). -/
def State.payloadStep (store : Byte → State → State) (complete : State → State)
    (s : State) : State :=
  match s.nextByte with
  | .byte b t =>
    let u := store b t
    let v := { u with eng := { u.eng with curOff := u.eng.curOff + 1 } }
    if v.eng.curLen.toNat ≤ v.eng.curOff then complete v else v
  | .ended => s.raiseTruncated
  | .stalled => s.wait

/-- AUX of the record of a chunk with code `ty` (R42, R111). -/
def State.chunkAux (s : State) (ty : Word) : Word :=
  if ty = codeIDAT then s.eng.idatBytes else if ty = codeTEXt then s.eng.textCount else 0#32

/-- The CHUNK record written at chunk completion (R111). -/
def State.chunkRecord (s : State) (ty : Word) : ChunkRecord :=
  ⟨s.eng.curLen, s.eng.curType, s.eng.curCrc, s.chunkAux ty⟩

/-- The TEXTDIR entry written at the completion of a tEXt chunk (R44, R111). -/
def State.textEntry (s : State) : TextEntry :=
  ⟨s.eng.chunkCount, s.eng.textBytes, s.eng.keyLen, s.eng.curLen - s.eng.keyLen - 1#32⟩

/-- What an IDAT's completion adds (R111): its length to `idat_bytes`. -/
def State.commitIdat (s : State) : State :=
  { s with eng := { s.eng with idatBytes := s.eng.idatBytes + s.eng.curLen } }

/-- What a tEXt's completion adds (R111): the terminator, the TEXTDIR entry, and the two counts. -/
def State.commitText (s : State) : State :=
  { s with
    spaces := { s.spaces with
      text := Memory.write s.spaces.text (s.eng.textBytes.toNat + s.eng.curLen.toNat) 0#8
      textdir := Memory.write s.spaces.textdir s.eng.textCount.toNat s.textEntry }
    eng := { s.eng with
      textCount := s.eng.textCount + 1#32
      textBytes := s.eng.textBytes + s.eng.curLen + 1#32 } }

/-- The CHUNK record of the chunk (R111). -/
def State.writeRecord (ty : Word) (s : State) : State :=
  { s with spaces := { s.spaces with
      chunk := Memory.write s.spaces.chunk s.eng.chunkCount.toNat (s.chunkRecord ty) } }

/-- One chunk more (R111). -/
def State.countChunk (s : State) : State :=
  { s with eng := { s.eng with chunkCount := s.eng.chunkCount + 1#32 } }

/-- The type-specific part of a chunk's completion (R111). -/
def State.commitType (ty : Word) (s : State) : State :=
  if ty = codeIDAT then s.commitIdat else if ty = codeTEXt then s.commitText else s

/-- Where the engine goes after a chunk (R111, R114): after IEND to CHECK, else to the next chunk
boundary. -/
def State.afterChunk (ty : Word) (s : State) : State :=
  if ty = codeIEND then
    { s with eng := { s.eng with phase := .check, stage := .method } }
  else s.chunkBoundary

/-- ChunkComplete() for a chunk with code `ty`, in the order of R111: the record, what the type adds,
the count, and where the engine goes. The CRC is stored and compared with nothing (R112). -/
def State.chunkComplete (ty : Word) (s : State) : State :=
  State.afterChunk ty (State.countChunk (State.commitType ty (State.writeRecord ty s)))

/-- One byte of the CRC field (R111): the fourth completes the chunk. An incomplete field stands in
`cur_crc` (log entry 24). -/
def State.crcStep (ty : Word) (s : State) : State :=
  match s.nextByte with
  | .byte b t =>
    let u := { t with eng := { t.eng with
      curCrc := appendByte t.eng.curCrc b, fldK := t.eng.fldK + 1 } }
    if 4 ≤ u.eng.fldK then State.chunkComplete ty u else u
  | .ended => s.raiseTruncated
  | .stalled => s.wait

/-- One engine step of a recognised chunk, by the point it has reached (R103): a payload byte, a CRC
byte, or else its type completion. -/
def State.chunkStep (ty : Word) (store : Byte → State → State) (complete : State → State)
    (s : State) : State :=
  match s.eng.phase with
  | .payload => State.payloadStep store complete s
  | .crc => State.crcStep ty s
  | .type | .idle | .sig | .len | .check | .decomp | .filter | .pack | .done | .error =>
    State.typeCompletion ty complete s

/-! ## SIGNATURE -/

/-- InvalidSignature(offset, 0) (R100, R101). -/
def State.raiseSignature (offset : Nat) (s : State) : State :=
  s.raise .invalidSignature offset 0#32

/-- The comparison of one signature byte against the `want`ed one (R100): `pos` has already moved past
it, so a mismatch is reported at `pos` - 1; after the eighth match the first chunk begins. -/
def State.matchSignature (want got : Byte) (s : State) : State :=
  if got = want then
    let t := { s with eng := { s.eng with sigK := s.eng.sigK + 1 } }
    if 8 ≤ t.eng.sigK then t.chunkBoundary else t
  else s.raiseSignature (s.eng.pos - 1)

/-- SIGNATURE (R100, R101): one byte of the signature check. A stream that ends within the signature is
InvalidSignature at offset |S|, which is `pos`. With all eight bytes matched the parser goes on. -/
def execSignature (s : State) : Host.Outcome State Fault Refusal :=
  match signatureList[s.eng.sigK]? with
  | none => .next s.chunkBoundary
  | some want =>
    match s.nextByte with
    | .byte got t => .next (State.matchSignature want got t)
    | .ended => .next (s.raiseSignature s.eng.pos)
    | .stalled => .next s.wait

/-! ## IHDR -/

/-- `hdr_buf[n] <- ReadByte()` with n = `cur_off` (R105). -/
def State.storeHeaderByte (b : Byte) (s : State) : State :=
  { s with eng := { s.eng with hdrBuf := s.eng.hdrBuf.setIfInBounds s.eng.curOff b } }

/-- IHDR `width`, bytes 0..3 (30_encoding.md R84). -/
def Engine.ihdrWidth (e : Engine) : Word :=
  be32 (e.hdrBuf[0]) (e.hdrBuf[1]) (e.hdrBuf[2]) (e.hdrBuf[3])

/-- IHDR `height`, bytes 4..7 (R84). -/
def Engine.ihdrHeight (e : Engine) : Word :=
  be32 (e.hdrBuf[4]) (e.hdrBuf[5]) (e.hdrBuf[6]) (e.hdrBuf[7])

/-- HDR_FMT: {filter, compression, color_type, bit_depth} (R106). -/
def Engine.ihdrFmt (e : Engine) : Word :=
  be32 (e.hdrBuf[11]) (e.hdrBuf[10]) (e.hdrBuf[9]) (e.hdrBuf[8])

/-- HDR_ILACE: the interlace byte zero-extended (R106). -/
def Engine.ihdrIlace (e : Engine) : Word := (e.hdrBuf[12]).setWidth 32

/-- IhdrComplete() (R106): a zero dimension is MalformedChunk with index 0; otherwise the header
registers are written and the CRC follows. -/
def State.ihdrComplete (s : State) : State :=
  if s.eng.ihdrWidth = 0#32 ∨ s.eng.ihdrHeight = 0#32 then
    s.raise .malformedChunk s.eng.curStart 0#32
  else
    State.enterCrc { s with
      eng := { s.eng with hdrValid := true }
      regs := { s.regs with
        hdrWidth := s.eng.ihdrWidth
        hdrHeight := s.eng.ihdrHeight
        hdrFmt := s.eng.ihdrFmt
        hdrIlace := s.eng.ihdrIlace } }

/-- IHDR (R105 to R107): one engine step of the image header chunk. `bit_depth`, `color_type` and
`interlace_method` are stored and never consulted. -/
def execIhdr (s : State) : Host.Outcome State Fault Refusal :=
  .next (State.chunkStep codeIHDR State.storeHeaderByte State.ihdrComplete s)

/-! ## IDAT -/

/-- `MemWrite(IDAT, idat_bytes + n, 1, v)` with n = `cur_off` (R109). -/
def State.storeIdatByte (b : Byte) (s : State) : State :=
  { s with spaces := { s.spaces with
      idat := Memory.write s.spaces.idat (s.eng.idatBytes.toNat + s.eng.curOff) b } }

/-- IDAT (R109): one engine step of an image data chunk. -/
def execIdat (s : State) : Host.Outcome State Fault Refusal :=
  .next (State.chunkStep codeIDAT State.storeIdatByte State.enterCrc s)

/-! ## tEXt -/

/-- `MemWrite(TEXT, text_bytes + n, 1, v)` with n = `cur_off`, and the first 0x00 fixes `key_len`
(R110). -/
def State.storeTextByte (b : Byte) (s : State) : State :=
  { s with
    spaces := { s.spaces with
      text := Memory.write s.spaces.text (s.eng.textBytes.toNat + s.eng.curOff) b }
    eng := { s.eng with
      zeroSeen := s.eng.zeroSeen || b == 0#8
      keyLen :=
        if b = 0#8 ∧ s.eng.zeroSeen = false then BitVec.ofNat 32 s.eng.curOff
        else s.eng.keyLen } }

/-- Payload completion of a tEXt (R110): a payload with no 0x00 is MalformedChunk. -/
def State.textComplete (s : State) : State :=
  if s.eng.zeroSeen then s.enterCrc else s.raiseAtChunk .malformedChunk

/-- tEXt (R110): one engine step of a text chunk. -/
def execText (s : State) : Host.Outcome State Fault Refusal :=
  .next (State.chunkStep codeTEXt State.storeTextByte State.textComplete s)

/-! ## IEND -/

/-- IEND has no payload to store (R113: the type checks have required `cur_len` = 0). -/
def State.storeNothing (_ : Byte) (s : State) : State := s

/-- IEND (R113, R114): one engine step of the end chunk, whose completion ends the parse. -/
def execIend (s : State) : Host.Outcome State Fault Refusal :=
  .next (State.chunkStep codeIEND State.storeNothing State.enterCrc s)

/-! ## UNKNOWN_CHUNK -/

/-- UNKNOWN_CHUNK (R115): UnsupportedChunkType at type completion, before every other check (R104),
whatever the code. -/
def execUnknownChunk (_code : Word) (s : State) : Host.Outcome State Fault Refusal :=
  .next (s.raiseAtChunk .unsupportedChunkType)

end Sys2Proof.Machine
end

