-- ==== Sys2Proof/Machine/Operands.lean ====
section
/-! DEFINITION. The operands of the reconstruction: image size, scanline addresses, the filtered byte,
the neighbour accessors and the predictors (41_scanline_reconstructor.md R131, R135 to R143). -/

namespace Sys2Proof.Machine

/-- W, the image width (41_scanline_reconstructor.md, header). -/
def State.width (s : State) : Nat := s.regs.hdrWidth.toNat

/-- H, the image height. -/
def State.height (s : State) : Nat := s.regs.hdrHeight.toNat

/-- The stride 3*width (00_scope.md R15). -/
def State.stride (s : State) : Nat := 3 * s.width

/-- E = width*height*3 + height, exact (R131). -/
def State.expectedSize (s : State) : Nat := s.width * s.height * 3 + s.height

/-- Where scanline `i` starts in DECOMP_BUF, its filter-type byte (R88, R135). -/
def State.scanlineAt (s : State) (i : Nat) : Nat := i * (s.stride + 1)

/-- The filter-type byte of the row being reconstructed (R135). -/
def State.filterByte (s : State) : Byte :=
  s.readByteAt .decompBuf (s.scanlineAt s.eng.row.toNat)

/-- Where the filtered byte (i, j) is in DECOMP_BUF (R88, R137). -/
def State.filteredAt (s : State) (i j : Nat) : Nat := s.scanlineAt i + 1 + j

/-- Where RECON[i][j] is (10_state.md R47). -/
def State.reconAt (s : State) (i j : Nat) : Nat := i * s.stride + j

/-- RECON[i][j]. -/
def State.reconByte (s : State) (i j : Nat) : Byte := s.readByteAt .recon (s.reconAt i j)

/-- x, the filtered byte of row i, byte j (R137). -/
def State.filtered (s : State) (i j : Nat) : Byte := s.readByteAt .decompBuf (s.filteredAt i j)

/-- A(i, j), the byte of the same channel one pixel to the left, 0 outside (R136). -/
def State.neighbourA (s : State) (i j : Nat) : Byte :=
  if 3 ≤ j then s.reconByte i (j - 3) else 0#8

/-- B(i, j), the byte above, 0 outside (R136). -/
def State.neighbourB (s : State) (i j : Nat) : Byte :=
  if 0 < i then s.reconByte (i - 1) j else 0#8

/-- C(i, j), the byte above and one pixel to the left, 0 outside (R136). -/
def State.neighbourC (s : State) (i j : Nat) : Byte :=
  if 3 ≤ j ∧ 0 < i then s.reconByte (i - 1) (j - 3) else 0#8

/-- floor((a + b) / 2) with the exact sum 0..510 (R141). -/
def averagePredictor (a b : Byte) : Byte := BitVec.ofNat 8 ((a.toNat + b.toNat) / 2)

/-- PaethPredictor(a, b, c) with exact signed integers (R143). -/
def paethPredictor (a b c : Byte) : Byte :=
  let p : Int := (a.toNat : Int) + b.toNat - c.toNat
  let pa := (p - a.toNat).natAbs
  let pb := (p - b.toNat).natAbs
  let pc := (p - c.toNat).natAbs
  if pa ≤ pb ∧ pa ≤ pc then a else if pb ≤ pc then b else c

end Sys2Proof.Machine
end

