-- ==== Sys2Proof/Machine/Reconstructor.lean ====
section
/-! DEFINITION. The Scanline Reconstructor (41_scanline_reconstructor.md): the method and size checks, the
decompression hand-off, the filter inversions and the packing. One engine step is one check, one
request, one answer, one reconstructed byte or one packed pixel. -/

namespace Sys2Proof.Machine

/-- An error of the reconstruction: offset `pos`, index 0 (60_exceptions.md R176). -/
def State.raiseAtEnd (k : ErrKind) (s : State) : State := s.raise k s.eng.pos 0#32

/-! ## METHOD_CHECK and SIZE -/

/-- METHOD_CHECK (R130): a non-zero compression or filter method is UnsupportedMethod. -/
def execMethodCheck (s : State) : Host.Outcome State Fault Refusal :=
  if s.regs.compression ≠ 0#8 ∨ s.regs.filterMethod ≠ 0#8 then
    .next (s.raiseAtEnd .unsupportedMethod)
  else .next { s with eng := { s.eng with stage := .size } }

/-- `E <- W*H*3 + H` (R131). -/
def State.setExpectedSize (s : State) : State :=
  { s with eng := { s.eng with expSize := s.expectedSize } }

/-- SIZE (R131, R132): E exactly, then the capacity check, then EXP_SIZE. -/
def execSize (s : State) : Host.Outcome State Fault Refusal :=
  if s.params.maxReconBytes.toNat < s.expectedSize then
    .next (s.setExpectedSize.raiseAtEnd .capacityExceeded)
  else
    .next { s.setExpectedSize with
      eng := { s.setExpectedSize.eng with stage := .request }
      regs := { s.regs with expSize := BitVec.ofNat 32 s.expectedSize } }

/-! ## DECOMPRESS -/

/-- The answer a configuration lists for a request, if it lists one. -/
def tableAnswer (rows : List DecompressRow) (src : List Byte) (expected : Nat) :
    Option (Option (List Byte)) :=
  match rows with
  | [] => none
  | r :: rest =>
    if r.src = src ∧ r.expected = expected then some r.answer else tableAnswer rest src expected

/-- DECOMPRESS(src, E), the parameter of 00_scope.md R7. -/
def decompressAnswer (p : Params) (src : List Byte) (expected : Nat) : Option (List Byte) :=
  (tableAnswer p.decompressTable src expected).getD (Config.decompress src expected)

/-- The decompressor's side of the port (60_exceptions.md R183, R184): it answers the outstanding
request once; an answer that arrives with none outstanding is discarded. -/
def State.decompressorAnswers (s : State) : State :=
  match s.eng.decPending, s.ports.request, s.ports.answer with
  | true, some r, none =>
    { s with ports := { s.ports with answer := some (decompressAnswer s.params r.src r.expected) } }
  | _, _, _ => s

/-- The request of R133: IDAT space bytes 0..idat_bytes-1 and E. -/
def State.issueRequest (s : State) : State :=
  { s with
    eng := { s.eng with phase := .decomp, decPending := true }
    ports := { s.ports with
      request := some ⟨s.readBytes .idat 0 s.eng.idatBytes.toNat, s.eng.expSize⟩
      answer := none } }

/-- `dec_pending <- 0`: the answer is taken off the port (10_state.md R30). -/
def State.takeAnswer (s : State) : State :=
  { s with
    eng := { s.eng with decPending := false }
    ports := { s.ports with request := none, answer := none } }

/-- DECOMP_BUF holds the answer and the first scanline is next (R134). -/
def State.enterFilter (d : List Byte) (s : State) : State :=
  { s with
    spaces := { s.spaces with decompBuf := Memory.writeList s.spaces.decompBuf 0 d }
    eng := { s.eng with phase := .filter, row := 0#32, col := 0#32 } }

/-- DecompCheck(r) (R134): Err, or a length other than E, is DecompressionFailed. -/
def State.decompCheck (r : Option (List Byte)) (s : State) : State :=
  match r with
  | none => s.raiseAtEnd .decompressionFailed
  | some d =>
    if d.length = s.eng.expSize then s.enterFilter d else s.raiseAtEnd .decompressionFailed

/-- DECOMPRESS (R133, R134): issues the request; with the request outstanding it waits for the answer,
and takes it when it is there. -/
def execDecompress (s : State) : Host.Outcome State Fault Refusal :=
  if s.eng.decPending then
    match s.ports.answer with
    | none => .next s.wait
    | some r => .next (State.decompCheck r s.takeAnswer)
  else .next s.issueRequest

/-! ## Filters -/

/-- The row loop's advance (R135): the next byte, the next row, or PACK after the last byte of the last
row. -/
def State.advance (s : State) : State :=
  if s.eng.col.toNat + 1 < s.stride then
    { s with eng := { s.eng with col := s.eng.col + 1#32 } }
  else if s.eng.row.toNat + 1 < s.height then
    { s with eng := { s.eng with row := s.eng.row + 1#32, col := 0#32 } }
  else { s with eng := { s.eng with phase := .pack, packIdx := 0 } }

/-- `RECON[i][j] <- x +₈ pred` for the current row and byte (R137). -/
def State.writeRecon (pred : Byte) (s : State) : State :=
  { s with spaces := { s.spaces with
      recon := Memory.write s.spaces.recon (s.reconAt s.eng.row.toNat s.eng.col.toNat)
        (s.filtered s.eng.row.toNat s.eng.col.toNat + pred) } }

/-- One reconstruction step with the predictor's value (R135, R137). -/
def State.reconstruct (pred : Byte) (s : State) : State := (s.writeRecon pred).advance

/-- a, b and c of the current byte (R136). -/
def State.a (s : State) : Byte := s.neighbourA s.eng.row.toNat s.eng.col.toNat
/-- The byte above (R136). -/
def State.b (s : State) : Byte := s.neighbourB s.eng.row.toNat s.eng.col.toNat
/-- The byte above and to the left (R136). -/
def State.c (s : State) : Byte := s.neighbourC s.eng.row.toNat s.eng.col.toNat

/-- FILT_NONE (R138): `recon = x`. -/
def execFiltNone (s : State) : Host.Outcome State Fault Refusal := .next (s.reconstruct 0#8)

/-- FILT_SUB (R139): `recon = x + a`. -/
def execFiltSub (s : State) : Host.Outcome State Fault Refusal := .next (s.reconstruct s.a)

/-- FILT_UP (R140): `recon = x + b`. -/
def execFiltUp (s : State) : Host.Outcome State Fault Refusal := .next (s.reconstruct s.b)

/-- FILT_AVG (R141): `recon = x + floor((a+b)/2)`. -/
def execFiltAvg (s : State) : Host.Outcome State Fault Refusal :=
  .next (s.reconstruct (averagePredictor s.a s.b))

/-- FILT_PAETH (R142): `recon = x + PaethPredictor(a,b,c)`. -/
def execFiltPaeth (s : State) : Host.Outcome State Fault Refusal :=
  .next (s.reconstruct (paethPredictor s.a s.b s.c))

/-- FILT_INVALID (R144): UnknownFilterType at `pos`, index the row, whatever the byte. -/
def execFiltInvalid (_ft : Byte) (s : State) : Host.Outcome State Fault Refusal :=
  .next (s.raise .unknownFilterType s.eng.pos s.eng.row)

/-! ## PACK and DONE -/

/-- The pixel at column x, row y (R147): {0xFF, b, g, r}. -/
def State.packedPixel (s : State) (x y : Nat) : Word :=
  be32 0xFF#8 (s.reconByte y (3 * x + 2)) (s.reconByte y (3 * x + 1)) (s.reconByte y (3 * x))

/-- `MemWrite(PIXEL, n, 1, ...)` for pixel n = y*W + x (R147, 10_state.md R45). -/
def State.packPixel (s : State) : State :=
  { s with
    spaces := { s.spaces with
      pixel := Memory.write s.spaces.pixel s.eng.packIdx
        (s.packedPixel (s.eng.packIdx % s.width) (s.eng.packIdx / s.width)) }
    eng := { s.eng with packIdx := s.eng.packIdx + 1 } }

/-- DONE entry (R148). -/
def State.enterDone (s : State) : State :=
  { s with
    eng := { s.eng with phase := .done }
    regs := { s.regs with
      pixelCount := BitVec.ofNat 32 (s.width * s.height)
      chunkCount := s.eng.chunkCount
      idatBytes := s.eng.idatBytes
      textCount := s.eng.textCount
      textBytes := s.eng.textBytes
      streamPos := sat32 s.eng.pos
      status := statusDone } }

/-- PACK (R147, R148): packs the next pixel, and after the last one enters DONE. -/
def execPack (s : State) : Host.Outcome State Fault Refusal :=
  if s.eng.packIdx < s.width * s.height then .next s.packPixel else .next s.enterDone

end Sys2Proof.Machine
end

