-- ==== Sys2Proof/Machine/Dispatch.lean ====
section
/-! DEFINITION. One arm per instruction. -/

namespace Sys2Proof.Machine

/-- The meaning of an instruction at the block's current place. -/
def exec (i : Instr) (s : State) : Host.Outcome State Fault Refusal :=
  match i with
  | .signature => Sys2Proof.Machine.execSignature s
  | .ihdr => Sys2Proof.Machine.execIhdr s
  | .idat => Sys2Proof.Machine.execIdat s
  | .text => Sys2Proof.Machine.execText s
  | .iend => Sys2Proof.Machine.execIend s
  | .unknownChunk code => Sys2Proof.Machine.execUnknownChunk code s
  | .methodCheck => Sys2Proof.Machine.execMethodCheck s
  | .size => Sys2Proof.Machine.execSize s
  | .decompress => Sys2Proof.Machine.execDecompress s
  | .filtNone => Sys2Proof.Machine.execFiltNone s
  | .filtSub => Sys2Proof.Machine.execFiltSub s
  | .filtUp => Sys2Proof.Machine.execFiltUp s
  | .filtAvg => Sys2Proof.Machine.execFiltAvg s
  | .filtPaeth => Sys2Proof.Machine.execFiltPaeth s
  | .filtInvalid ft => Sys2Proof.Machine.execFiltInvalid ft s
  | .pack => Sys2Proof.Machine.execPack s
  | .cmdStart reserved => Sys2Proof.Machine.execCmdStart reserved s
  | .cmdSoftReset start reserved => Sys2Proof.Machine.execCmdSoftReset start reserved s

end Sys2Proof.Machine
end

