-- ==== Sys2Proof/Machine/Fetch.lean ====
section
/-! DEFINITION. Which instruction the next step runs (30_encoding.md R80: each unit has its own place),
and what a step does that runs none. -/

namespace Sys2Proof.Machine

/-- The code the engine stands at, by its place in the decode (R80, R91): the type code from the type
completion to the end of the chunk, and the row's filter-type byte while its bytes are
reconstructed. -/
def State.engineCode (s : State) : Option Code :=
  match s.eng.phase with
  | .type => if s.eng.fldK = 4 then some (.tag s.eng.curType) else none
  | .payload | .crc => some (.tag s.eng.curType)
  | .filter => some (.filter s.filterByte)
  | .idle | .sig | .len | .check | .decomp | .pack | .done | .error => none

/-- The instructions the engine runs by their place alone, with no code to decode: the signature and the
four stages (R80; opcode_table.json "stage: no encoding"). -/
def State.engineStage (s : State) : Option Instr :=
  match s.eng.phase with
  | .sig => some .signature
  | .check =>
    match s.eng.stage with
    | .method => some .methodCheck
    | .size => some .size
    | .request => some .decompress
  | .decomp => some .decompress
  | .pack => some .pack
  | .idle | .len | .type | .payload | .crc | .filter | .done | .error => none

/-- The code in a host write: CTRL's word, for a 32-bit write of CTRL (R94). -/
def ctrlCode (a : HostAddr) (bytes : Nat) (v : Word) : Option Code :=
  if a = .reg 0x00 ∧ bytes = 4 then some (.ctrl v) else none

/-- The instruction a code decodes to, none for no code and for a rejected one. -/
def fetchCode (c : Option Code) : Option Instr :=
  match c with
  | none => none
  | some c =>
    match decode c with
    | .ok i => some i
    | .error _ => none

/-- The instruction the engine's next turn runs, none where it frames a chunk or has no step to take. -/
def State.engineInstr (s : State) : Option Instr :=
  match s.engineStage with
  | some i => some i
  | none => fetchCode s.engineCode

/-- The instruction the next step runs: the command a scheduled CTRL write gives, or the engine's. -/
def State.fetch (s : State) : Option Instr :=
  match s.schedule with
  | [] => s.engineInstr
  | .engine :: _ => s.engineInstr
  | .hostWrite a bytes v :: _ => fetchCode (ctrlCode a bytes v)
  | .hostRead _ _ :: _ | .streamByte _ :: _ | .endOfStream :: _ => none
  | .decompressorAnswers :: _ | .powerOnReset :: _ => none

/-- The state with the scheduled event taken. -/
def State.takeTurn (s : State) : State := { s with schedule := s.schedule.tail }

/-- The engine's turn where it runs no instruction: a byte of a chunk's length or type field (R103), or
nothing in IDLE, DONE and ERROR (10_state.md R25; 60_exceptions.md R177). -/
def State.engineOther (s : State) : State :=
  match s.eng.phase with
  | .len => s.lengthStep
  | .type => s.typeStep
  | .idle | .sig | .payload | .crc | .check | .decomp | .filter | .pack | .done | .error => s.wait

/-- A step that runs no instruction: the scheduled event, or the engine's turn. `t` is the state with the
event taken. -/
def otherStep (e : Event) (t : State) : Host.Outcome State Fault Refusal :=
  match e with
  | .engine => .next t.engineOther
  | .hostWrite a bytes _ => hostWriteIgnored a bytes t
  | .hostRead a bytes => hostRead a bytes t
  | .streamByte b => .next (t.presentByte b)
  | .endOfStream => .next t.endStream
  | .decompressorAnswers => .next t.decompressorAnswers
  | .powerOnReset => .next t.resetBlock

/-- The event the next step takes: the engine moves when nothing else is scheduled. -/
def State.nextEvent (s : State) : Event := s.schedule.headD .engine

/-! ## Where a table word is placed for the next step -/

/-- Places a table code where the next step fetches it: the signature's bytes at the stream port, a type
code at its type completion, a filter-type byte and a zero filtered byte at the row in hand, or a
CTRL word in a host write. -/
def State.placeCode (s : State) (c : Code) : State :=
  match c with
  | .sig w =>
    { s with
      eng := { s.eng with phase := .sig, sigK := 0 }
      ports := { s.ports with stream := sigBytes w, streamEnded := false }
      schedule := [] }
  | .tag w =>
    { s with eng := { s.eng with phase := .type, fldK := 4, curType := w }, schedule := [] }
  | .filter b =>
    { s with
      eng := { s.eng with phase := .filter }
      spaces := { s.spaces with
        decompBuf := Memory.write
          (Memory.write s.spaces.decompBuf (s.scanlineAt s.eng.row.toNat) b)
          (s.filteredAt s.eng.row.toNat s.eng.col.toNat) 0#8 }
      schedule := [] }
  | .ctrl w => { s with schedule := [.hostWrite (.reg 0x00) 4 w] }

end Sys2Proof.Machine
end

