-- ==== Sys2Proof/Machine/Step.lean ====
section
/-! DEFINITION. One step of the block: the next scheduled event, or the engine's turn. -/

namespace Sys2Proof.Machine

/-- One step: the instruction the block stands at, or else what happens without one. -/
def step (s : State) : Host.Outcome State Fault Refusal :=
  match s.fetch with
  | some i => exec i s.takeTurn
  | none => otherStep s.nextEvent s.takeTurn

/-- `s` with the table word `w` of `nbits` bits stored where step fetches its next instruction. The block
has no one program store: a word stands at the stream port, at a chunk's type completion, in the
scanline in hand, or in a host write to CTRL, as `tableCode` reads it. -/
def State.withFetchWord (s : State) (nbits w : Nat) : State :=
  match tableCode nbits w with
  | none => s
  | some c => s.placeCode c

end Sys2Proof.Machine
end

