-- ==== Sys2Proof/Safety.lean ====
section
/-! DEFINITION. The terms claims are stated in: the invariants of the block, the legal phase changes, the
states that differ only in what a host read leaves, and runs of the block. -/

namespace Sys2Proof.Machine

/-! ## Runs -/

/-- `n` steps lead from `s` to `t`, with no refusal on the way. -/
def Runs (n : Nat) (s t : State) : Prop := Host.Core.run Sys2Proof.core n s = .next t

/-- The next step is the engine's turn. -/
def State.engineTurn (s : State) : Prop := s.nextEvent = .engine

/-! ## Phases -/

/-- The BUSY phases (10_state.md R25). -/
def Phase.busy : Phase → Bool
  | .sig | .len | .type | .payload | .crc | .check | .decomp | .filter | .pack => true
  | .idle | .done | .error => false

/-- The phases after the parse (R25). -/
def Phase.parsed : Phase → Bool
  | .check | .decomp | .filter | .pack | .done => true
  | .idle | .sig | .len | .type | .payload | .crc | .error => false

/-- The legal transitions of R25 from `s` to `t`, a phase that stays included. -/
def LegalTransition (s t : State) : Prop :=
  t.eng.phase = s.eng.phase ∨ t.eng.phase = .idle ∨
  (s.eng.phase.busy = true ∧ t.eng.phase = .error) ∨
  (s.eng.phase.busy = false ∧ t.eng.phase = .sig) ∨
  (s.eng.phase = .sig ∧ t.eng.phase = .len) ∨
  (s.eng.phase = .len ∧ t.eng.phase = .type) ∨
  (s.eng.phase = .type ∧ t.eng.phase = .payload ∧ 0 < s.eng.curLen.toNat) ∨
  (s.eng.phase = .type ∧ t.eng.phase = .crc ∧ s.eng.curLen.toNat = 0) ∨
  (s.eng.phase = .payload ∧ t.eng.phase = .crc) ∨
  (s.eng.phase = .crc ∧ t.eng.phase = .len ∧ s.eng.curType ≠ codeIEND) ∨
  (s.eng.phase = .crc ∧ t.eng.phase = .check ∧ s.eng.curType = codeIEND) ∨
  (s.eng.phase = .check ∧ t.eng.phase = .decomp) ∨
  (s.eng.phase = .decomp ∧ t.eng.phase = .filter) ∨
  (s.eng.phase = .filter ∧ t.eng.phase = .pack) ∨
  (s.eng.phase = .pack ∧ t.eng.phase = .done)

/-! ## Invariants -/

/-- The registers that show the engine's state agree with it (R23, R30, R34 to R37, R48). -/
structure StatusAgrees (s : State) : Prop where
  status : s.regs.status = statusOf s.eng.phase s.eng.err.kind
  kind : s.eng.phase = .error ↔ s.eng.err.kind ≠ .none
  errOffset : s.regs.errOffset = if s.eng.phase = .error then sat32 s.eng.err.offset else 0#32
  errIndex : s.regs.errIndex = if s.eng.phase = .error then s.eng.err.index else 0#32
  streamPos : s.regs.streamPos =
    if s.eng.phase = .done ∨ s.eng.phase = .error then sat32 s.eng.pos else 0#32
  pending : s.eng.decPending = true ↔ s.eng.phase = .decomp
  request : s.ports.request.isSome = s.eng.decPending
  answer : s.ports.answer.isSome = true → s.eng.decPending = true

/-- Every space is in canonical form. -/
structure SpacesCanonical (s : State) : Prop where
  chunk : Memory.wf s.spaces.chunk
  idat : Memory.wf s.spaces.idat
  text : Memory.wf s.spaces.text
  textdir : Memory.wf s.spaces.textdir
  pixel : Memory.wf s.spaces.pixel
  decompBuf : Memory.wf s.spaces.decompBuf
  recon : Memory.wf s.spaces.recon

/-- Every listed index of a space is below `size`. -/
def Memory.below {α : Type} (m : Memory α) (size : Nat) : Prop := ∀ x ∈ m, x.1 < size

/-- A chunk whose type checks have passed and that is not completed yet (40_container_parser.md R104,
R108). -/
structure ChunkAdmitted (s : State) : Prop where
  known : s.eng.curType ∈ knownCodes
  chunks : s.eng.chunkCount.toNat + 1 ≤ s.params.maxChunks.toNat
  idat : s.eng.curType = codeIDAT →
    s.eng.idatBytes.toNat + s.eng.curLen.toNat ≤ s.params.maxIdatBytes.toNat
  text : s.eng.curType = codeTEXt →
    s.eng.textBytes.toNat + s.eng.curLen.toNat + 1 ≤ s.params.maxTextBytes.toNat
  first : s.eng.chunkCount.toNat = 0 ↔ s.eng.curType = codeIHDR
  ihdr : s.eng.curType = codeIHDR → s.eng.curLen.toNat = 13
  iend : s.eng.curType = codeIEND → s.eng.curLen.toNat = 0

/-- The engine's counters and places stay within their bounds, and every space within its capacity (R22,
R24, R28, R40; 20_memory.md R76). -/
structure WithinBounds (s : State) : Prop where
  params : s.params.wf
  sigK : s.eng.sigK ≤ 8
  sig : s.eng.phase = .sig → s.eng.sigK < 8
  fldK : s.eng.fldK ≤ 4
  len : s.eng.phase = .len → s.eng.fldK < 4
  boundary : s.eng.phase = .len ∨ s.eng.phase = .type →
    s.eng.curOff = 0 ∧ s.eng.zeroSeen = false ∧ s.eng.keyLen = 0#32
  crc : s.eng.phase = .crc → s.eng.fldK < 4
  chunks : s.eng.chunkCount.toNat ≤ s.params.maxChunks.toNat
  idatBytes : s.eng.idatBytes.toNat ≤ s.params.maxIdatBytes.toNat
  textBytes : s.eng.textBytes.toNat ≤ s.params.maxTextBytes.toNat
  textCount : s.eng.textCount.toNat ≤ s.eng.chunkCount.toNat
  admitted : s.eng.phase = .payload ∨ s.eng.phase = .crc → ChunkAdmitted s
  payload : s.eng.phase = .payload → s.eng.curOff < s.eng.curLen.toNat
  header : 0 < s.eng.chunkCount.toNat ∨ s.eng.phase = .crc →
    s.eng.hdrValid = true ∧ 0 < s.width ∧ 0 < s.height
  parsed : s.eng.phase.parsed = true → 0 < s.eng.chunkCount.toNat
  size : (s.eng.phase = .check ∧ s.eng.stage = .request) ∨ s.eng.phase = .decomp ∨
      s.eng.phase = .filter ∨ s.eng.phase = .pack ∨ s.eng.phase = .done →
    s.eng.expSize = s.expectedSize ∧ s.expectedSize ≤ s.params.maxReconBytes.toNat ∧
    s.regs.expSize.toNat = s.expectedSize
  filter : s.eng.phase = .filter → s.eng.row.toNat < s.height ∧ s.eng.col.toNat < s.stride
  pack : s.eng.phase = .pack → s.eng.packIdx ≤ s.width * s.height
  chunkSpace : Memory.below s.spaces.chunk s.params.maxChunks.toNat
  idatSpace : Memory.below s.spaces.idat s.params.maxIdatBytes.toNat
  textSpace : Memory.below s.spaces.text s.params.maxTextBytes.toNat
  textdirSpace : Memory.below s.spaces.textdir s.params.maxChunks.toNat
  pixelSpace : Memory.below s.spaces.pixel (s.params.maxReconBytes.toNat / 3)
  decompSpace : Memory.below s.spaces.decompBuf s.params.maxReconBytes.toNat
  reconSpace : Memory.below s.spaces.recon s.params.maxReconBytes.toNat

/-- Every element of a space below `n` has been written since power-on or SOFT_RESET. -/
def Memory.writtenBelow {α : Type} (m : Memory α) (n : Nat) : Prop :=
  ∀ a < n, (Memory.read? m a).isSome = true

/-- How many IDAT bytes of this decode stand in IDAT space: those of completed chunks and those of the
chunk in hand (40_container_parser.md R109). -/
def State.idatWritten (s : State) : Nat :=
  s.eng.idatBytes.toNat +
    if s.eng.curType = codeIDAT then
      if s.eng.phase = .payload then s.eng.curOff
      else if s.eng.phase = .crc then s.eng.curLen.toNat else 0
    else 0

/-- How many TEXT bytes of this decode stand in TEXT space (R110). -/
def State.textWritten (s : State) : Nat :=
  s.eng.textBytes.toNat +
    if s.eng.curType = codeTEXt then
      if s.eng.phase = .payload then s.eng.curOff
      else if s.eng.phase = .crc then s.eng.curLen.toNat else 0
    else 0

/-- The elements the engine will read, and those a host may read in DONE, have been written (20_memory.md
R73, R74; 10_state.md R42 to R47). -/
structure ElementsWritten (s : State) : Prop where
  chunk : Memory.writtenBelow s.spaces.chunk s.eng.chunkCount.toNat
  idat : Memory.writtenBelow s.spaces.idat s.idatWritten
  text : Memory.writtenBelow s.spaces.text s.textWritten
  textdir : Memory.writtenBelow s.spaces.textdir s.eng.textCount.toNat
  filterScanlines : s.eng.phase = .filter →
    Memory.writtenBelow s.spaces.decompBuf s.expectedSize
  filterRows : s.eng.phase = .filter →
    Memory.writtenBelow s.spaces.recon (s.reconAt s.eng.row.toNat s.eng.col.toNat)
  packRows : s.eng.phase = .pack →
    Memory.writtenBelow s.spaces.recon (s.height * s.stride)
  packPixels : s.eng.phase = .pack → Memory.writtenBelow s.spaces.pixel s.eng.packIdx
  donePixels : s.eng.phase = .done →
    Memory.writtenBelow s.spaces.pixel (s.width * s.height)
  doneCounts : s.eng.phase = .done →
    s.regs.chunkCount = s.eng.chunkCount ∧ s.regs.idatBytes = s.eng.idatBytes ∧
    s.regs.textCount = s.eng.textCount ∧ s.regs.textBytes = s.eng.textBytes ∧
    s.regs.pixelCount.toNat = s.width * s.height

/-! ## States that differ only in what host reads leave -/

/-- The two states hold the same block and the same events to come: they may differ in the free values
drawn so far and in what the last host read returned. -/
structure SameBlock (s t : State) : Prop where
  params : s.params = t.params
  eng : s.eng = t.eng
  regs : s.regs = t.regs
  spaces : s.spaces = t.spaces
  ports : s.ports = t.ports
  schedule : s.schedule = t.schedule
  epoch : s.epoch = t.epoch

/-! ## The predictor of a filter type, on exact integers -/

/-- The number a filter type adds to x (41_scanline_reconstructor.md R137 to R143), from the neighbours'
values; 0 for a byte that is no filter type. -/
def predictorOf (ft : Byte) (a b c : Byte) : Nat :=
  if ft.toNat = 1 then a.toNat
  else if ft.toNat = 2 then b.toNat
  else if ft.toNat = 3 then (a.toNat + b.toNat) / 2
  else if ft.toNat = 4 then (paethPredictor a b c).toNat
  else 0

end Sys2Proof.Machine
end

