-- ==== Sys2Proof/Certificates/Slice0/Obligations.lean ====
section
/-! DEFINITION. The statements for the provers, each from the spec's numbered rules. -/

open Sys2Proof Sys2Proof.Machine

/-! ## Encoding -/

/-- No bit of an encoding is dropped: what the encoder writes, the decoder reads back (30_encoding.md
R83, R89, R94). -/
def Obligations.DecodeOfEncode : Prop :=
  ∀ (i : Instr) (c : Code), i.WellFormed → encode i = some c → decode c = .ok i

/-- Each accepted code has one meaning and is that meaning's own encoding (30_encoding.md R91). -/
def Obligations.EncodeOfDecode : Prop :=
  ∀ (c : Code) (i : Instr), decode c = .ok i → i.WellFormed ∧ encode i = some c

/-- R91: both decodes are total and select exactly one row; an unknown tag fails with
UnsupportedChunkType. -/
def Obligations.EveryCodeSelectsOneRow : Prop :=
  (∀ w : Word, decode (.tag w) = .ok
    (if w = 0x49484452#32 then .ihdr else if w = 0x49444154#32 then .idat
     else if w = 0x74455874#32 then .text else if w = 0x49454E44#32 then .iend
     else .unknownChunk w)) ∧
  (∀ b : Byte, decode (.filter b) = .ok
    (if b.toNat = 0 then .filtNone else if b.toNat = 1 then .filtSub
     else if b.toNat = 2 then .filtUp else if b.toNat = 3 then .filtAvg
     else if b.toNat = 4 then .filtPaeth else .filtInvalid b)) ∧
  (∀ (w : Word) (s : State), ∃ t, exec (.unknownChunk w) s = .next t ∧
    t.eng.phase = .error ∧ t.eng.err.kind = .unsupportedChunkType)

/-- R94: the words of CTRL and their commands; a word with bits 1:0 = 00 is no command, and writing it
changes nothing but that the write has happened. -/
def Obligations.CtrlWordsAndTheirCommands : Prop :=
  decode (.ctrl 0x00000001#32) = .ok (.cmdStart 0#30) ∧
  decode (.ctrl 0x00000002#32) = .ok (.cmdSoftReset false 0#30) ∧
  decode (.ctrl 0x00000003#32) = .ok (.cmdSoftReset true 0#30) ∧
  (∀ w : Word, w.getLsbD 1 = true →
    ∃ b r, decode (.ctrl w) = .ok (.cmdSoftReset b r)) ∧
  (∀ w : Word, w.getLsbD 1 = false → w.getLsbD 0 = true →
    ∃ r, decode (.ctrl w) = .ok (.cmdStart r)) ∧
  (∀ (w : Word) (s : State) (rest : List Event),
    w.getLsbD 1 = false → w.getLsbD 0 = false →
    s.schedule = .hostWrite (.reg 0x00) 4 w :: rest → step s = .next { s with schedule := rest })

/-- Words written out from the tables of 30_encoding.md (R81, R83, R89, R94), as the opcode table numbers
them. That a 32-bit table word is read as a CTRL word exactly when it is 1, 2 or 3, and else as a type
code, is the model's choice (log entry 12, DESIGN CHOICE): the table gives both the same 32 bits. -/
def Obligations.SpecWordsDecode : Prop :=
  decodeTableWord 64 0x89504E470D0A1A0A = some .signature ∧
  decodeTableWord 32 0x49484452 = some .ihdr ∧
  decodeTableWord 32 0x49444154 = some .idat ∧
  decodeTableWord 32 0x74455874 = some .text ∧
  decodeTableWord 32 0x49454E44 = some .iend ∧
  decodeTableWord 32 0x504C5445 = some (.unknownChunk 0x504C5445#32) ∧
  decodeTableWord 8 0x00 = some .filtNone ∧
  decodeTableWord 8 0x04 = some .filtPaeth ∧
  decodeTableWord 8 0x05 = some (.filtInvalid 5#8) ∧
  decodeTableWord 32 0x00000001 = some (.cmdStart 0#30) ∧
  decodeTableWord 32 0x00000002 = some (.cmdSoftReset false 0#30)

/-! ## Steps -/

/-- A step runs the decoded instruction. On the engine's turn: the type code from the type completion to
the end of the chunk, the filter-type byte of the row in hand, or the unit the phase alone selects
(30_encoding.md R80). On a CTRL write: the command of the word. What step adds around exec is that the
scheduled event has been taken. -/
def Obligations.StepRunsDecodedInstruction : Prop :=
  ∀ (s : State) (i : Instr),
    (s.engineTurn →
      ((s.eng.phase = .type ∧ s.eng.fldK = 4) ∨ s.eng.phase = .payload ∨ s.eng.phase = .crc →
        decode (.tag s.eng.curType) = .ok i →
          step s = exec i { s with schedule := s.schedule.tail }) ∧
      (s.eng.phase = .filter → decode (.filter s.filterByte) = .ok i →
        step s = exec i { s with schedule := s.schedule.tail }) ∧
      (s.eng.phase = .sig → step s = exec .signature { s with schedule := s.schedule.tail }) ∧
      (s.eng.phase = .check → s.eng.stage = .method →
        step s = exec .methodCheck { s with schedule := s.schedule.tail }) ∧
      (s.eng.phase = .check → s.eng.stage = .size →
        step s = exec .size { s with schedule := s.schedule.tail }) ∧
      ((s.eng.phase = .check ∧ s.eng.stage = .request) ∨ s.eng.phase = .decomp →
        step s = exec .decompress { s with schedule := s.schedule.tail }) ∧
      (s.eng.phase = .pack → step s = exec .pack { s with schedule := s.schedule.tail })) ∧
    (∀ (v : Word) (rest : List Event), s.schedule = .hostWrite (.reg 0x00) 4 v :: rest →
      decode (.ctrl v) = .ok i → step s = exec i { s with schedule := rest })

/-- Every instruction has a next state in every state, and a step stops for one reason only: a host access
that is not 32 bits wide or a misaligned register access (20_memory.md R62). -/
def Obligations.OnlyUndefinedHostAccessesStop : Prop :=
  (∀ (i : Instr) (s : State), ∃ t, exec i s = .next t) ∧
  ∀ s : State,
    (∀ f, step s ≠ .fault f) ∧
    (∀ r, step s = .refused r ↔
      ∃ a n, (s.nextEvent = .hostRead a n ∨ ∃ v, s.nextEvent = .hostWrite a n v) ∧
        ((n ≠ 4 ∧ r = .hostAccessWidth) ∨
         (n = 4 ∧ r = .hostAccessMisaligned ∧ ∃ o, a = .reg o ∧ o % 4 ≠ 0)))

/-- The legal transitions of the phases (10_state.md R25). -/
def Obligations.OnlyLegalPhaseTransitions : Prop :=
  ∀ s t : State, StatusAgrees s → step s = .next t → LegalTransition s t

/-- Both sides of the stream port (10_state.md R24; 20_memory.md R60, R72). A step of the engine consumes
the next stream byte and counts it, or consumes none. A byte the host presents goes behind those already
there, and end-of-stream is kept; that a byte presented after end-of-stream is dropped is the model's
choice (log entry 8). -/
def Obligations.StreamIsPresentedAndConsumedInOrder : Prop :=
  (∀ s t : State, s.engineTurn → step s = .next t →
    (t.eng.pos = s.eng.pos ∧ t.ports.stream = s.ports.stream) ∨
    (t.eng.pos = s.eng.pos + 1 ∧ ∃ b, s.ports.stream = b :: t.ports.stream)) ∧
  (∀ (s : State) (b : Byte) (rest : List Event), s.schedule = .streamByte b :: rest →
    (s.ports.streamEnded = false → step s = .next { s with
      schedule := rest, ports := { s.ports with stream := s.ports.stream ++ [b] } }) ∧
    (s.ports.streamEnded = true → step s = .next { s with schedule := rest })) ∧
  (∀ (s : State) (rest : List Event), s.schedule = .endOfStream :: rest →
    step s = .next { s with schedule := rest, ports := { s.ports with streamEnded := true } })

/-- IDLE, DONE and ERROR are waiting states: the engine's turn changes nothing there
(60_exceptions.md R177, R188). -/
def Obligations.EngineRestsOutsideADecode : Prop :=
  ∀ s : State, s.engineTurn →
    (s.eng.phase = .idle ∨ s.eng.phase = .done ∨ s.eng.phase = .error) →
    step s = .next { s with schedule := s.schedule.tail }

/-- The two waits that may never end (60_exceptions.md R189): no byte and no end-of-stream in the phases
SIG to CRC, and no answer in DECOMP. The engine's turn changes nothing. -/
def Obligations.EngineWaitsForByteOrAnswer : Prop :=
  ∀ s : State, s.engineTurn →
    ((s.eng.phase = .sig ∧ s.eng.sigK < 8) ∨ s.eng.phase = .len ∨
      (s.eng.phase = .type ∧ s.eng.fldK ≠ 4) ∨
      ((s.eng.phase = .payload ∨ s.eng.phase = .crc) ∧ s.eng.curType ∈ knownCodes) →
      s.ports.stream = [] → s.ports.streamEnded = false →
      step s = .next { s with schedule := s.schedule.tail }) ∧
    (s.eng.phase = .decomp → s.eng.decPending = true → s.ports.answer = none →
      step s = .next { s with schedule := s.schedule.tail })

/-! ## Invariants -/

/-- Every step keeps STATUS, the error and position registers and the decompression port in agreement
with the engine (10_state.md R23, R30, R34 to R37, R48). -/
def Obligations.StepKeepsStatusAgreement : Prop :=
  ∀ s t : State, StatusAgrees s → step s = .next t → StatusAgrees t

/-- Every step keeps the spaces in canonical form. -/
def Obligations.StepKeepsSpacesCanonical : Prop :=
  ∀ s t : State, SpacesCanonical s → step s = .next t → SpacesCanonical t

/-- Every step keeps the counters and places within their bounds and the spaces within their capacities
(10_state.md R22, R24, R28; 20_memory.md R76). -/
def Obligations.StepKeepsBounds : Prop :=
  ∀ s t : State, StatusAgrees s → WithinBounds s → step s = .next t → WithinBounds t

/-- Every step keeps written what the engine will read and what a host may read in DONE (20_memory.md
R73, R74). -/
def Obligations.StepKeepsElementsWritten : Prop :=
  ∀ s t : State, StatusAgrees s → WithinBounds s → ElementsWritten s → step s = .next t →
    ElementsWritten t

/-- The four invariants hold after reset. -/
def Obligations.ResetMeetsTheInvariants : Prop :=
  StatusAgrees State.reset ∧ SpacesCanonical State.reset ∧ WithinBounds State.reset ∧
  ElementsWritten State.reset

/-- In DONE every result is defined: a host read below a count returns a value the block holds
(10_state.md R50; 42_host_commands.md R166). -/
def Obligations.DoneResultsAreDefined : Prop :=
  ∀ s : State, StatusAgrees s → WithinBounds s → ElementsWritten s → s.eng.phase = .done →
    (∀ o, (s.hostValue (.reg o)).isSome = true) ∧
    (∀ k w, k < s.eng.chunkCount.toNat → (s.hostValue (.chunk k w)).isSome = true) ∧
    (∀ m w, m < s.eng.textCount.toNat → (s.hostValue (.textdir m w)).isSome = true) ∧
    (∀ n, n < s.eng.idatBytes.toNat → (s.hostValue (.idat n)).isSome = true) ∧
    (∀ n, n < s.eng.textBytes.toNat → (s.hostValue (.text n)).isSome = true) ∧
    (∀ n, n < s.width * s.height → (s.hostValue (.pixel n)).isSome = true)

/-- After DONE nothing writes a result until the next START or reset (20_memory.md R68). -/
def Obligations.ResultsAreFrozenInDone : Prop :=
  ∀ s t : State, s.eng.phase = .done → step s = .next t →
    (∀ a n v, s.nextEvent = .hostWrite a n v → a = .reg 0x00 → v.getLsbD 0 = false ∧
      v.getLsbD 1 = false) →
    s.nextEvent ≠ .powerOnReset →
    t.eng = s.eng ∧ t.regs = s.regs ∧ t.spaces = s.spaces ∧ t.params = s.params

/-- Host reads do not influence the block: two states that differ only in the free values drawn and in
what the last read returned step alike (20_memory.md R65; 42_host_commands.md R167). -/
def Obligations.HostReadsDoNotInfluenceTheBlock : Prop :=
  ∀ s s' t : State, SameBlock s s' → step s = .next t → ∃ t', step s' = .next t' ∧ SameBlock t t'

/-! ## Errors -/

/-- Error entry (60_exceptions.md R170, R175): what it records and shows, that it touches no space and
no port, and that the engine takes no step afterwards. -/
def Obligations.ErrorEntryRecordsAndStops : Prop :=
  ∀ (k : ErrKind) (o : Nat) (i : Word) (s : State),
    (s.raise k o i).eng = { s.eng with err := ⟨k, o, i⟩, phase := .error } ∧
    (s.raise k o i).regs = { s.regs with
      errOffset := BitVec.ofNat 32 (min o 0xFFFFFFFF)
      errIndex := i
      streamPos := BitVec.ofNat 32 (min s.eng.pos 0xFFFFFFFF)
      status := BitVec.ofNat 32 (
        (match k with
         | .none => 0
         | .invalidSignature => 1
         | .malformedChunk => 2
         | .unsupportedChunkType => 3
         | .unsupportedMethod => 4
         | .decompressionFailed => 5
         | .unknownFilterType => 6
         | .truncatedStream => 7
         | .sequenceError => 8
         | .capacityExceeded => 9) * 256 + 4) } ∧
    (s.raise k o i).spaces = s.spaces ∧ (s.raise k o i).ports = s.ports ∧
    (s.raise k o i).params = s.params ∧ (s.raise k o i).schedule = s.schedule ∧
    (s.engineTurn → step (s.raise k o i) =
      .next { s.raise k o i with schedule := s.schedule.tail })

/-- End-of-stream after the signature is TruncatedStream, wherever in a chunk it comes
(40_container_parser.md R116; 00_scope.md R11). -/
def Obligations.EndOfStreamInAChunkIsTruncated : Prop :=
  ∀ s : State, s.engineTurn → s.ports.stream = [] → s.ports.streamEnded = true →
    (s.eng.phase = .len ∨ (s.eng.phase = .type ∧ s.eng.fldK ≠ 4) ∨
      ((s.eng.phase = .payload ∨ s.eng.phase = .crc) ∧ s.eng.curType ∈ knownCodes)) →
    step s = .next (State.raise .truncatedStream s.eng.pos s.eng.chunkCount
      { s with schedule := s.schedule.tail })

/-! ## Host commands and register access -/

/-- CMD_START (42_host_commands.md R160, R161): while not BUSY a new decode, with the stream's next byte
the first one presented from now on, the spaces and the result registers untouched (log entry 15);
while BUSY it is ignored. -/
def Obligations.StartBeginsADecodeUnlessBusy : Prop :=
  ∀ (r : BitVec 30) (s : State),
    (s.regs.status.getLsbD 0 = false →
      exec (.cmdStart r) s = .next { s with
        eng := { Engine.reset with phase := .sig }
        regs := { s.regs with
          status := 0x00000001#32, errOffset := 0#32, errIndex := 0#32, streamPos := 0#32 }
        ports := { stream := [], streamEnded := false, request := none, answer := none } }) ∧
    (s.regs.status.getLsbD 0 = true → exec (.cmdStart r) s = .next s)

/-- CMD_SOFT_RESET is the reset state with this machine's parameters, in every state and whatever the
other bits hold (42_host_commands.md R162, R163; 70_reset_and_hazards.md R191). -/
def Obligations.SoftResetIsReset : Prop :=
  ∀ (b : Bool) (r : BitVec 30) (s : State), ∃ t, exec (.cmdSoftReset b r) s = .next t ∧
    t.eng = (State.resetWith s.params).eng ∧ t.regs = (State.resetWith s.params).regs ∧
    t.spaces = (State.resetWith s.params).spaces ∧ t.ports = (State.resetWith s.params).ports ∧
    t.params = s.params ∧ t.schedule = s.schedule

/-- What reset leaves (10_state.md R51; 70_reset_and_hazards.md R190, R191): after power-on reset and
after SOFT_RESET, every engine field, every register a host can read there, and no request outstanding.
The model's own choices in it: the last two engine fields are its place markers (log entry 5), and a
space that lists nothing is its form of unspecified contents (log entry 7). The capacities are whatever
the parameters are. -/
def Obligations.ResetValues : Prop :=
  ∀ (p : Params) (t : State),
    (t = State.resetWith p ∨
      (∃ (s : State) (b : Bool) (r : BitVec 30), s.params = p ∧
        exec (.cmdSoftReset b r) s = .next t) ∨
      (∃ (s : State) (rest : List Event), s.params = p ∧ s.schedule = .powerOnReset :: rest ∧
        step s = .next t)) →
    t.hostValue (.reg 0x00) = some 0#32 ∧ t.hostValue (.reg 0x04) = some 0#32 ∧
    t.hostValue (.reg 0x08) = some 0#32 ∧ t.hostValue (.reg 0x0C) = some 0#32 ∧
    t.hostValue (.reg 0x10) = some 0#32 ∧
    t.hostValue (.reg 0x40) = some p.maxChunks ∧ t.hostValue (.reg 0x44) = some p.maxIdatBytes ∧
    t.hostValue (.reg 0x48) = some p.maxTextBytes ∧
    t.hostValue (.reg 0x4C) = some p.maxReconBytes ∧
    (∀ o, o = 0x3C ∨ (0x50 ≤ o ∧ o ≤ 0xFC) → t.hostValue (.reg o) = some 0#32) ∧
    t.regs = ⟨0, 0, 0, 0, 0, 0, 0, 0, 0, 0, 0, 0, 0, 0⟩ ∧
    t.eng = {
      phase := .idle, pos := 0, sigK := 0, fldK := 0, curStart := 0, curLen := 0, curType := 0
      curCrc := 0, curOff := 0, zeroSeen := false, keyLen := 0, hdrBuf := Vector.replicate 13 0
      chunkCount := 0, idatBytes := 0, textCount := 0, textBytes := 0, hdrValid := false
      expSize := 0, row := 0, col := 0, decPending := false, err := ⟨.none, 0, 0⟩
      stage := .method, packIdx := 0 } ∧
    t.ports.request = none ∧ t.spaces = ⟨[], [], [], [], [], [], []⟩

/-- Which reads are defined outside DONE (10_state.md R31, R34 to R37, R39, R50, R52): STATUS, the error
registers, CAP_*, CTRL, the reserved offsets and, while not BUSY, STREAM_POS. Offsets of 256 and more are
deduced (log entry 18). -/
def Obligations.WhichReadsAreDefinedOutsideDone : Prop :=
  ∀ s : State, StatusAgrees s → s.eng.phase ≠ .done →
    s.hostValue (.reg 0x00) = some 0#32 ∧
    s.hostValue (.reg 0x04) = some (statusOf s.eng.phase s.eng.err.kind) ∧
    s.hostValue (.reg 0x08) =
      some (if s.eng.phase = .error then sat32 s.eng.err.offset else 0#32) ∧
    s.hostValue (.reg 0x0C) = some (if s.eng.phase = .error then s.eng.err.index else 0#32) ∧
    s.hostValue (.reg 0x10) =
      (if s.eng.phase = .error then some (sat32 s.eng.pos)
       else if s.eng.phase = .idle then some 0#32 else none) ∧
    s.hostValue (.reg 0x40) = some s.params.maxChunks ∧
    s.hostValue (.reg 0x44) = some s.params.maxIdatBytes ∧
    s.hostValue (.reg 0x48) = some s.params.maxTextBytes ∧
    s.hostValue (.reg 0x4C) = some s.params.maxReconBytes ∧
    (∀ o, 0x14 ≤ o → o ≤ 0x38 → o % 4 = 0 → s.hostValue (.reg o) = none) ∧
    (∀ o, o = 0x3C ∨ 0x50 ≤ o → s.hostValue (.reg o) = some 0#32) ∧
    (∀ n, n < s.params.maxIdatBytes.toNat → s.hostValue (.idat n) = none) ∧
    (∀ n, n < s.params.maxTextBytes.toNat → s.hostValue (.text n) = none) ∧
    (∀ n, n < s.params.maxReconBytes.toNat / 3 → s.hostValue (.pixel n) = none) ∧
    (∀ k w, k < s.params.maxChunks.toNat → w ≤ 3 →
      s.hostValue (.chunk k w) = none ∧ s.hostValue (.textdir k w) = none)

/-- Register and space reads in DONE (10_state.md R31 to R39, R42 to R45, R50, R52; 42_host_commands.md
R166): every register by offset, and an element below its count. The reserved bits of HDR_ILACE read 0.
In a state whose registers agree with the engine the error registers read 0 and STREAM_POS shows pos. -/
def Obligations.DoneReadsReturnTheResults : Prop :=
  ∀ s : State, s.regs.status = 0x00000002#32 →
    s.hostValue (.reg 0x00) = some 0#32 ∧
    s.hostValue (.reg 0x04) = some 0x00000002#32 ∧
    s.hostValue (.reg 0x08) = some s.regs.errOffset ∧
    s.hostValue (.reg 0x0C) = some s.regs.errIndex ∧
    (StatusAgrees s →
      s.hostValue (.reg 0x08) = some 0#32 ∧ s.hostValue (.reg 0x0C) = some 0#32 ∧
      s.hostValue (.reg 0x10) = some (BitVec.ofNat 32 (min s.eng.pos 0xFFFFFFFF))) ∧
    s.hostValue (.reg 0x40) = some s.params.maxChunks ∧
    s.hostValue (.reg 0x44) = some s.params.maxIdatBytes ∧
    s.hostValue (.reg 0x48) = some s.params.maxTextBytes ∧
    s.hostValue (.reg 0x4C) = some s.params.maxReconBytes ∧
    (∀ o, o = 0x3C ∨ (0x50 ≤ o ∧ o ≤ 0xFC) → s.hostValue (.reg o) = some 0#32) ∧
    s.hostValue (.reg 0x10) = some s.regs.streamPos ∧
    s.hostValue (.reg 0x14) = some s.regs.chunkCount ∧
    s.hostValue (.reg 0x18) = some s.regs.idatBytes ∧
    s.hostValue (.reg 0x1C) = some s.regs.textCount ∧
    s.hostValue (.reg 0x20) = some s.regs.textBytes ∧
    s.hostValue (.reg 0x24) = some s.regs.hdrWidth ∧
    s.hostValue (.reg 0x28) = some s.regs.hdrHeight ∧
    s.hostValue (.reg 0x2C) = some s.regs.hdrFmt ∧
    s.hostValue (.reg 0x30) = some (0#24 ++ s.regs.hdrIlace.extractLsb' 0 8) ∧
    s.hostValue (.reg 0x34) = some s.regs.expSize ∧
    s.hostValue (.reg 0x38) = some s.regs.pixelCount ∧
    (∀ k r, k < s.regs.chunkCount.toNat → k < s.params.maxChunks.toNat →
      Memory.read? s.spaces.chunk k = some r →
      s.hostValue (.chunk k 0) = some r.len ∧ s.hostValue (.chunk k 1) = some r.type ∧
      s.hostValue (.chunk k 2) = some r.crc ∧ s.hostValue (.chunk k 3) = some r.aux) ∧
    (∀ m e, m < s.regs.textCount.toNat → m < s.params.maxChunks.toNat →
      Memory.read? s.spaces.textdir m = some e →
      s.hostValue (.textdir m 0) = some e.chunkIndex ∧
      s.hostValue (.textdir m 1) = some e.offset ∧
      s.hostValue (.textdir m 2) = some e.keyLen ∧
      s.hostValue (.textdir m 3) = some e.textLen) ∧
    (∀ n b, n < s.regs.idatBytes.toNat → n < s.params.maxIdatBytes.toNat →
      Memory.read? s.spaces.idat n = some b →
      s.hostValue (.idat n) = some (BitVec.ofNat 32 b.toNat)) ∧
    (∀ n b, n < s.regs.textBytes.toNat → n < s.params.maxTextBytes.toNat →
      Memory.read? s.spaces.text n = some b →
      s.hostValue (.text n) = some (BitVec.ofNat 32 b.toNat)) ∧
    (∀ n w, n < s.regs.pixelCount.toNat → n < s.params.maxReconBytes.toNat / 3 →
      Memory.read? s.spaces.pixel n = some w → s.hostValue (.pixel n) = some w)

/-- An index at or beyond a space's size, or a record word other than 0..3, reads 0 (10_state.md R41). -/
def Obligations.BeyondASpaceReadsZero : Prop :=
  ∀ s : State,
    (∀ k w, s.params.maxChunks.toNat ≤ k ∨ 3 < w →
      s.hostValue (.chunk k w) = some 0#32 ∧ s.hostValue (.textdir k w) = some 0#32) ∧
    (∀ n, s.params.maxIdatBytes.toNat ≤ n → s.hostValue (.idat n) = some 0#32) ∧
    (∀ n, s.params.maxTextBytes.toNat ≤ n → s.hostValue (.text n) = some 0#32) ∧
    (∀ n, s.params.maxReconBytes.toNat / 3 ≤ n → s.hostValue (.pixel n) = some 0#32) ∧
    (∀ o, 256 ≤ o → s.hostValue (.reg o) = some 0#32)

/-- A host read changes no state of the block and returns the value, or a free one where the value is
unspecified (42_host_commands.md R164, R166; 10_state.md R50); the reserved bits 31:8 of HDR_ILACE read 0
then too (10_state.md R52, log entry 25). -/
def Obligations.HostReadReturnsAndChangesNothing : Prop :=
  ∀ (s : State) (a : HostAddr) (rest : List Event),
    s.schedule = .hostRead a 4 :: rest → (∀ o, a = .reg o → o % 4 = 0) →
    (∀ v, s.hostValue a = some v →
      step s = .next { s with schedule := rest, readData := some v }) ∧
    (s.hostValue a = none →
      step s = .next { s with
        schedule := rest
        readData := some (if a = .reg 0x30 then
          0#24 ++ (Config.freeRead s.draws).extractLsb' 0 8 else Config.freeRead s.draws)
        draws := s.draws + 1 })

/-- A host write to a register other than CTRL, or to a space, is ignored (42_host_commands.md R165;
10_state.md R41). -/
def Obligations.OtherHostWritesAreIgnored : Prop :=
  ∀ (s : State) (a : HostAddr) (v : Word) (rest : List Event),
    s.schedule = .hostWrite a 4 v :: rest → a ≠ .reg 0x00 → (∀ o, a = .reg o → o % 4 = 0) →
    step s = .next { s with schedule := rest }

/-! ## Container Parser -/

/-- The whole signature (40_container_parser.md R100): eight steps consume it and stand at the first
chunk boundary. That a step takes one byte (log entry 14), and that sig_k ends at 8 by counting matches
(log entry 16), are the model's. -/
def Obligations.SignatureIsAccepted : Prop :=
  ∀ (s : State) (rest : List Byte),
    s.schedule = [] → s.eng.phase = .sig → s.eng.sigK = 0 →
    s.ports.stream = [0x89#8, 0x50#8, 0x4E#8, 0x47#8, 0x0D#8, 0x0A#8, 0x1A#8, 0x0A#8] ++ rest →
    Runs 8 s { s with
      eng := { s.eng with
        phase := .len, pos := s.eng.pos + 8, sigK := 8, curStart := s.eng.pos + 8, curOff := 0
        zeroSeen := false, keyLen := 0#32, fldK := 0 }
      ports := { s.ports with stream := rest } }

/-- One byte of the signature (40_container_parser.md R100, R101): a match goes on, and after the eighth
the chunks begin; a mismatch is InvalidSignature at its offset, with the byte consumed; the end of the
stream is InvalidSignature at |S|. That sig_k counts the bytes matched follows 10_state.md R22, where the
pseudocode of R100 sets it to the index of the byte read (log entry 16, DEDUCED). -/
def Obligations.SignatureByteIsCompared : Prop :=
  ∀ (s : State) (k : Nat) (want : Byte), s.eng.sigK = k →
    [0x89#8, 0x50#8, 0x4E#8, 0x47#8, 0x0D#8, 0x0A#8, 0x1A#8, 0x0A#8][k]? = some want →
    (∀ rest, s.ports.stream = want :: rest → k < 7 →
      exec .signature s = .next { s with
        eng := { s.eng with pos := s.eng.pos + 1, sigK := k + 1 }
        ports := { s.ports with stream := rest } }) ∧
    (∀ rest, s.ports.stream = want :: rest → k = 7 →
      exec .signature s = .next { s with
        eng := { s.eng with
          phase := .len, pos := s.eng.pos + 1, sigK := 8, curStart := s.eng.pos + 1, curOff := 0
          zeroSeen := false, keyLen := 0#32, fldK := 0 }
        ports := { s.ports with stream := rest } }) ∧
    (∀ got rest, s.ports.stream = got :: rest → got ≠ want →
      exec .signature s = .next (State.raise .invalidSignature s.eng.pos 0#32 { s with
        eng := { s.eng with pos := s.eng.pos + 1 }
        ports := { s.ports with stream := rest } })) ∧
    (s.ports.stream = [] → s.ports.streamEnded = true →
      exec .signature s = .next (s.raise .invalidSignature s.eng.pos 0#32))

/-- The length and type fields (40_container_parser.md R103; 20_memory.md R61): eight steps from a chunk
boundary assemble both big-endian and stand at the type completion. That a step takes one byte, and that
the type completion is a step still to come, is the model's (log entry 14). -/
def Obligations.ChunkHeaderIsAssembledBigEndian : Prop :=
  ∀ (s : State) (len code : Word) (rest : List Byte),
    s.schedule = [] → s.eng.phase = .len → s.eng.fldK = 0 →
    s.ports.stream = be32Bytes len ++ be32Bytes code ++ rest →
    Runs 8 s { s with
      eng := { s.eng with
        phase := .type, fldK := 4, pos := s.eng.pos + 8, curLen := len, curType := code }
      ports := { s.ports with stream := rest } }

/-- A chunk whose type checks pass goes on to its payload, or with a length of 0 to its CRC
(40_container_parser.md R103, R104, R108). Nothing else changes. -/
def Obligations.AdmittedChunkGoesOn : Prop :=
  ∀ s : State, s.eng.phase = .type → s.eng.chunkCount.toNat + 1 ≤ s.params.maxChunks.toNat →
    (s.eng.chunkCount = 0#32 → s.eng.curLen = 13#32 →
      exec .ihdr s = .next { s with eng := { s.eng with phase := .payload } }) ∧
    (s.eng.chunkCount ≠ 0#32 →
      s.eng.idatBytes.toNat + s.eng.curLen.toNat ≤ s.params.maxIdatBytes.toNat →
      exec .idat s = .next (
        if s.eng.curLen = 0#32 then { s with eng := { s.eng with phase := .crc, fldK := 0 } }
        else { s with eng := { s.eng with phase := .payload } })) ∧
    (s.eng.chunkCount ≠ 0#32 → s.eng.curLen ≠ 0#32 →
      s.eng.textBytes.toNat + s.eng.curLen.toNat + 1 ≤ s.params.maxTextBytes.toNat →
      exec .text s = .next { s with eng := { s.eng with phase := .payload } }) ∧
    (s.eng.chunkCount ≠ 0#32 → s.eng.curLen = 0#32 →
      exec .iend s = .next { s with eng := { s.eng with phase := .crc, fldK := 0 } })

/-- The type-completion errors in their order (40_container_parser.md R104, R105, R108, R113, R117), each
at the chunk's own offset and index. -/
def Obligations.TypeChecksRaiseInOrder : Prop :=
  ∀ s : State, s.eng.phase = .type →
    (s.eng.chunkCount = 0#32 → ∀ i ∈ [Instr.idat, .text, .iend],
      exec i s = .next (s.raise .sequenceError s.eng.curStart s.eng.chunkCount)) ∧
    (s.eng.chunkCount ≠ 0#32 →
      exec .ihdr s = .next (s.raise .sequenceError s.eng.curStart s.eng.chunkCount)) ∧
    (s.eng.chunkCount = 0#32 → s.eng.curLen ≠ 13#32 →
      exec .ihdr s = .next (s.raise .malformedChunk s.eng.curStart s.eng.chunkCount)) ∧
    (s.eng.chunkCount ≠ 0#32 → s.eng.curLen ≠ 0#32 →
      exec .iend s = .next (s.raise .malformedChunk s.eng.curStart s.eng.chunkCount)) ∧
    (s.params.maxChunks.toNat < s.eng.chunkCount.toNat + 1 →
      (s.eng.chunkCount = 0#32 → s.eng.curLen = 13#32 →
        exec .ihdr s = .next (s.raise .capacityExceeded s.eng.curStart s.eng.chunkCount)) ∧
      (s.eng.chunkCount ≠ 0#32 →
        exec .idat s = .next (s.raise .capacityExceeded s.eng.curStart s.eng.chunkCount) ∧
        exec .text s = .next (s.raise .capacityExceeded s.eng.curStart s.eng.chunkCount)) ∧
      (s.eng.chunkCount ≠ 0#32 → s.eng.curLen = 0#32 →
        exec .iend s = .next (s.raise .capacityExceeded s.eng.curStart s.eng.chunkCount))) ∧
    (s.eng.chunkCount ≠ 0#32 →
      s.params.maxIdatBytes.toNat < s.eng.idatBytes.toNat + s.eng.curLen.toNat →
      exec .idat s = .next (s.raise .capacityExceeded s.eng.curStart s.eng.chunkCount)) ∧
    (s.eng.chunkCount ≠ 0#32 →
      s.params.maxTextBytes.toNat < s.eng.textBytes.toNat + s.eng.curLen.toNat + 1 →
      exec .text s = .next (s.raise .capacityExceeded s.eng.curStart s.eng.chunkCount))

/-- UNKNOWN_CHUNK (40_container_parser.md R115): UnsupportedChunkType at the chunk's offset and index,
in every state, whatever its length and the chunks before it. -/
def Obligations.UnknownChunkIsFatal : Prop :=
  ∀ (code : Word) (s : State), exec (.unknownChunk code) s =
    .next (s.raise .unsupportedChunkType s.eng.curStart s.eng.chunkCount)

/-- IHDR payload bytes (40_container_parser.md R105, R106): every byte but the last is collected; the last
one writes the header registers, or raises MalformedChunk for a zero dimension. Width and height are
read most significant byte first (30_encoding.md R84). -/
def Obligations.IhdrPayloadFillsTheHeader : Prop :=
  ∀ (s : State) (b : Byte) (rest : List Byte),
    s.eng.phase = .payload → s.eng.curLen = 13#32 → s.ports.stream = b :: rest →
    (∀ h : s.eng.curOff < 12,
      exec .ihdr s = .next { s with
        eng := { s.eng with
          pos := s.eng.pos + 1, curOff := s.eng.curOff + 1
          hdrBuf := s.eng.hdrBuf.set s.eng.curOff b (by omega) }
        ports := { s.ports with stream := rest } }) ∧
    (s.eng.curOff = 12 → ∀ (w h : Word),
      w = s.eng.hdrBuf[0] ++ s.eng.hdrBuf[1] ++ s.eng.hdrBuf[2] ++ s.eng.hdrBuf[3] →
      h = s.eng.hdrBuf[4] ++ s.eng.hdrBuf[5] ++ s.eng.hdrBuf[6] ++ s.eng.hdrBuf[7] →
      (w ≠ 0#32 → h ≠ 0#32 →
        exec .ihdr s = .next { s with
          eng := { s.eng with
            pos := s.eng.pos + 1, curOff := 13, hdrBuf := s.eng.hdrBuf.set 12 b
            hdrValid := true, phase := .crc, fldK := 0 }
          regs := { s.regs with
            hdrWidth := w, hdrHeight := h
            hdrFmt := s.eng.hdrBuf[11] ++ s.eng.hdrBuf[10] ++ s.eng.hdrBuf[9] ++ s.eng.hdrBuf[8]
            hdrIlace := 0#24 ++ b }
          ports := { s.ports with stream := rest } }) ∧
      (w = 0#32 ∨ h = 0#32 →
        exec .ihdr s = .next (State.raise .malformedChunk s.eng.curStart 0#32 { s with
          eng := { s.eng with
            pos := s.eng.pos + 1, curOff := 13, hdrBuf := s.eng.hdrBuf.set 12 b }
          ports := { s.ports with stream := rest } })))

/-- IDAT payload bytes (40_container_parser.md R109): the byte goes to IDAT space behind the bytes already
there, and after the last one the CRC follows. -/
def Obligations.IdatPayloadIsAppended : Prop :=
  ∀ (s : State) (b : Byte) (rest : List Byte),
    s.eng.phase = .payload → s.ports.stream = b :: rest →
    ∃ t, exec .idat s = .next t ∧
      (∀ a, Memory.read? t.spaces.idat a =
        if a = s.eng.idatBytes.toNat + s.eng.curOff then some b
        else Memory.read? s.spaces.idat a) ∧
      t = { s with
        spaces := { s.spaces with idat := t.spaces.idat }
        eng := { s.eng with
          pos := s.eng.pos + 1, curOff := s.eng.curOff + 1
          phase := if s.eng.curOff + 1 < s.eng.curLen.toNat then .payload else .crc
          fldK := if s.eng.curOff + 1 < s.eng.curLen.toNat then s.eng.fldK else 0 }
        ports := { s.ports with stream := rest } }

/-- tEXt payload bytes (40_container_parser.md R110): the byte goes to TEXT space; the first 0x00 fixes
the keyword length; after the last byte the CRC follows if a 0x00 was seen, and otherwise the chunk is
malformed. -/
def Obligations.TextPayloadIsStoredAndSplit : Prop :=
  ∀ (s : State) (b : Byte) (rest : List Byte),
    s.eng.phase = .payload → s.ports.stream = b :: rest →
    ∃ (t : State) (m : List Host.Cell),
      (∀ a, Memory.read? m a =
        if a = s.eng.textBytes.toNat + s.eng.curOff then some b
        else Memory.read? s.spaces.text a) ∧
      t = { s with
        spaces := { s.spaces with text := m }
        eng := { s.eng with
          pos := s.eng.pos + 1, curOff := s.eng.curOff + 1
          zeroSeen := s.eng.zeroSeen || decide (b = 0#8)
          keyLen := if b = 0#8 ∧ s.eng.zeroSeen = false then BitVec.ofNat 32 s.eng.curOff
            else s.eng.keyLen }
        ports := { s.ports with stream := rest } } ∧
      (s.eng.curOff + 1 < s.eng.curLen.toNat → exec .text s = .next t) ∧
      (s.eng.curLen.toNat ≤ s.eng.curOff + 1 → t.eng.zeroSeen = true →
        exec .text s = .next { t with eng := { t.eng with phase := .crc, fldK := 0 } }) ∧
      (s.eng.curLen.toNat ≤ s.eng.curOff + 1 → t.eng.zeroSeen = false →
        exec .text s = .next (t.raise .malformedChunk s.eng.curStart s.eng.chunkCount))

/-- A tEXt chunk of length 0 is malformed at its type completion (40_container_parser.md R110). -/
def Obligations.EmptyTextIsMalformed : Prop :=
  ∀ s : State, s.eng.phase = .type → s.eng.zeroSeen = false → s.eng.curLen = 0#32 →
    s.eng.chunkCount ≠ 0#32 → s.eng.chunkCount.toNat + 1 ≤ s.params.maxChunks.toNat →
    s.eng.textBytes.toNat + 1 ≤ s.params.maxTextBytes.toNat →
    exec .text s = .next (s.raise .malformedChunk s.eng.curStart s.eng.chunkCount)

/-- The bytes of the CRC field before the fourth (40_container_parser.md R111): collected, whatever the
chunk. That they stand in cur_crc until the fourth has come is the model's choice (log entry 24). -/
def Obligations.CrcBytesAreCollected : Prop :=
  ∀ (s : State) (b : Byte) (rest : List Byte),
    s.eng.phase = .crc → s.eng.fldK < 3 → s.ports.stream = b :: rest →
    ∀ i ∈ [Instr.ihdr, .idat, .text, .iend],
      exec i s = .next { s with
        eng := { s.eng with
          pos := s.eng.pos + 1, fldK := s.eng.fldK + 1
          curCrc := s.eng.curCrc.extractLsb' 0 24 ++ b }
        ports := { s.ports with stream := rest } }

/-- Chunk completion of IHDR, IDAT and IEND (40_container_parser.md R111, R114): the fourth CRC byte
records {LEN, TYPE, CRC, AUX} and counts the chunk; an IDAT's length is added to IDAT_BYTES and its AUX
is where its payload begins; after IEND the parse ends, after the others the next chunk begins. That the
three bytes before stand in cur_crc is the model's choice (log entry 24). -/
def Obligations.ChunkCompletionIsRecorded : Prop :=
  ∀ (s : State) (b : Byte) (rest : List Byte),
    s.eng.phase = .crc → s.eng.fldK = 3 → s.ports.stream = b :: rest →
    ∀ p ∈ [(Instr.ihdr, 0#32, 0#32), (Instr.idat, s.eng.idatBytes, s.eng.curLen),
        (Instr.iend, 0#32, 0#32)],
      ∃ t, exec p.1 s = .next t ∧
        (∀ k, Memory.read? t.spaces.chunk k =
          if k = s.eng.chunkCount.toNat then
            some ⟨s.eng.curLen, s.eng.curType, s.eng.curCrc.extractLsb' 0 24 ++ b, p.2.1⟩
          else Memory.read? s.spaces.chunk k) ∧
        t = { s with
          spaces := { s.spaces with chunk := t.spaces.chunk }
          eng := if p.1 = .iend then { s.eng with
              pos := s.eng.pos + 1, fldK := 4, curCrc := s.eng.curCrc.extractLsb' 0 24 ++ b
              chunkCount := s.eng.chunkCount + 1#32, phase := .check, stage := .method }
            else { s.eng with
              pos := s.eng.pos + 1, fldK := 0, curCrc := s.eng.curCrc.extractLsb' 0 24 ++ b
              chunkCount := s.eng.chunkCount + 1#32, idatBytes := s.eng.idatBytes + p.2.2
              phase := .len, curStart := s.eng.pos + 1, curOff := 0, zeroSeen := false
              keyLen := 0#32 }
          ports := { s.ports with stream := rest } }

/-- Chunk completion of tEXt (40_container_parser.md R111; 10_state.md R44): beside the record, the added
terminator, the TEXTDIR entry and the two counts. That the three CRC bytes before stand in cur_crc is the
model's choice (log entry 24). -/
def Obligations.TextCompletionIsRecorded : Prop :=
  ∀ (s : State) (b : Byte) (rest : List Byte),
    s.eng.phase = .crc → s.eng.fldK = 3 → s.ports.stream = b :: rest →
    ∃ t, exec .text s = .next t ∧
      (∀ k, Memory.read? t.spaces.chunk k =
        if k = s.eng.chunkCount.toNat then
          some ⟨s.eng.curLen, s.eng.curType, s.eng.curCrc.extractLsb' 0 24 ++ b, s.eng.textCount⟩
        else Memory.read? s.spaces.chunk k) ∧
      (∀ a, Memory.read? t.spaces.text a =
        if a = s.eng.textBytes.toNat + s.eng.curLen.toNat then some 0#8
        else Memory.read? s.spaces.text a) ∧
      (∀ m, Memory.read? t.spaces.textdir m =
        if m = s.eng.textCount.toNat then
          some ⟨s.eng.chunkCount, s.eng.textBytes, s.eng.keyLen,
            s.eng.curLen - s.eng.keyLen - 1#32⟩
        else Memory.read? s.spaces.textdir m) ∧
      t = { s with
        spaces := { s.spaces with
          chunk := t.spaces.chunk, text := t.spaces.text, textdir := t.spaces.textdir }
        eng := { s.eng with
          pos := s.eng.pos + 1, fldK := 0, curCrc := s.eng.curCrc.extractLsb' 0 24 ++ b
          chunkCount := s.eng.chunkCount + 1#32, textCount := s.eng.textCount + 1#32
          textBytes := s.eng.textBytes + s.eng.curLen + 1#32
          phase := .len, curStart := s.eng.pos + 1, curOff := 0, zeroSeen := false
          keyLen := 0#32 }
        ports := { s.ports with stream := rest } }

/-! ## Whole chunks -/

/-- A whole IHDR from its type completion (40_container_parser.md R105, R106, R111): 18 steps consume the
13 payload bytes and the CRC, write the header registers and record the chunk. The number of steps, with
the type completion as one of its own, is the model's (log entry 14). -/
def Obligations.IhdrChunkRuns : Prop :=
  ∀ (s : State) (w h crc : Word) (bd ct cm fm im : Byte) (rest : List Byte),
    s.schedule = [] → s.eng.phase = .type → s.eng.fldK = 4 → s.eng.curType = 0x49484452#32 →
    s.eng.curLen = 13#32 → s.eng.curOff = 0 → s.eng.chunkCount = 0#32 →
    1 ≤ s.params.maxChunks.toNat → w ≠ 0#32 → h ≠ 0#32 →
    s.ports.stream =
      be32Bytes w ++ be32Bytes h ++ [bd, ct, cm, fm, im] ++ be32Bytes crc ++ rest →
    ∃ t, Runs 18 s t ∧
      t.eng.phase = .len ∧ t.eng.fldK = 0 ∧ t.eng.curOff = 0 ∧ t.eng.zeroSeen = false ∧
      t.eng.pos = s.eng.pos + 17 ∧ t.eng.curStart = s.eng.pos + 17 ∧
      t.eng.hdrValid = true ∧ t.eng.chunkCount = 1#32 ∧
      t.eng.idatBytes = s.eng.idatBytes ∧ t.eng.textCount = s.eng.textCount ∧
      t.eng.textBytes = s.eng.textBytes ∧
      t.regs = { s.regs with
        hdrWidth := w, hdrHeight := h, hdrFmt := fm ++ cm ++ ct ++ bd, hdrIlace := 0#24 ++ im } ∧
      (∀ k, Memory.read? t.spaces.chunk k =
        if k = 0 then some ⟨13#32, 0x49484452#32, crc, 0#32⟩
        else Memory.read? s.spaces.chunk k) ∧
      t.spaces = { s.spaces with chunk := t.spaces.chunk } ∧
      t.ports = { s.ports with stream := rest } ∧ t.params = s.params ∧ t.schedule = []

/-- A whole IDAT from its type completion (40_container_parser.md R109, R111; 10_state.md R43): the payload
stands verbatim in IDAT space behind what was there, the record points to it, and no other byte of any
space changes. The number of steps is the model's (log entry 14). -/
def Obligations.IdatChunkRuns : Prop :=
  ∀ (s : State) (p : List Byte) (crc : Word) (rest : List Byte),
    s.schedule = [] → s.eng.phase = .type → s.eng.fldK = 4 → s.eng.curType = 0x49444154#32 →
    p.length = s.eng.curLen.toNat → s.eng.curOff = 0 → s.eng.chunkCount ≠ 0#32 →
    s.eng.chunkCount.toNat + 1 ≤ s.params.maxChunks.toNat →
    s.eng.idatBytes.toNat + p.length ≤ s.params.maxIdatBytes.toNat →
    s.ports.stream = p ++ be32Bytes crc ++ rest →
    ∃ t, Runs (p.length + 5) s t ∧
      t.eng.phase = .len ∧ t.eng.fldK = 0 ∧ t.eng.curOff = 0 ∧ t.eng.zeroSeen = false ∧
      t.eng.pos = s.eng.pos + p.length + 4 ∧ t.eng.curStart = s.eng.pos + p.length + 4 ∧
      t.eng.hdrValid = s.eng.hdrValid ∧
      t.eng.chunkCount.toNat = s.eng.chunkCount.toNat + 1 ∧
      t.eng.idatBytes.toNat = s.eng.idatBytes.toNat + p.length ∧
      t.eng.textCount = s.eng.textCount ∧ t.eng.textBytes = s.eng.textBytes ∧
      t.regs = s.regs ∧
      (∀ a, Memory.read? t.spaces.idat a =
        if s.eng.idatBytes.toNat ≤ a ∧ a < s.eng.idatBytes.toNat + p.length then
          p[a - s.eng.idatBytes.toNat]?
        else Memory.read? s.spaces.idat a) ∧
      (∀ k, Memory.read? t.spaces.chunk k =
        if k = s.eng.chunkCount.toNat then
          some ⟨s.eng.curLen, 0x49444154#32, crc, s.eng.idatBytes⟩
        else Memory.read? s.spaces.chunk k) ∧
      t.spaces = { s.spaces with chunk := t.spaces.chunk, idat := t.spaces.idat } ∧
      t.ports = { s.ports with stream := rest } ∧ t.params = s.params ∧ t.schedule = []

/-- A whole tEXt from its type completion (40_container_parser.md R110, R111; 10_state.md R44): the payload
and the added terminator stand in TEXT space, and the directory entry splits them at the first 0x00.
The number of steps is the model's (log entry 14). -/
def Obligations.TextChunkRuns : Prop :=
  ∀ (s : State) (p : List Byte) (k : Nat) (crc : Word) (rest : List Byte),
    s.schedule = [] → s.eng.phase = .type → s.eng.fldK = 4 → s.eng.curType = 0x74455874#32 →
    p.length = s.eng.curLen.toNat → s.eng.curOff = 0 → s.eng.zeroSeen = false →
    s.eng.chunkCount ≠ 0#32 → s.eng.textCount.toNat ≤ s.eng.chunkCount.toNat →
    s.eng.chunkCount.toNat + 1 ≤ s.params.maxChunks.toNat →
    s.eng.textBytes.toNat + p.length + 1 ≤ s.params.maxTextBytes.toNat →
    p[k]? = some 0#8 → (∀ n < k, p[n]? ≠ some 0#8) →
    s.ports.stream = p ++ be32Bytes crc ++ rest →
    ∃ t, Runs (p.length + 5) s t ∧
      t.eng.phase = .len ∧ t.eng.fldK = 0 ∧ t.eng.curOff = 0 ∧ t.eng.zeroSeen = false ∧
      t.eng.pos = s.eng.pos + p.length + 4 ∧ t.eng.curStart = s.eng.pos + p.length + 4 ∧
      t.eng.hdrValid = s.eng.hdrValid ∧
      t.eng.chunkCount.toNat = s.eng.chunkCount.toNat + 1 ∧
      t.eng.textCount.toNat = s.eng.textCount.toNat + 1 ∧
      t.eng.textBytes.toNat = s.eng.textBytes.toNat + p.length + 1 ∧
      t.eng.idatBytes = s.eng.idatBytes ∧ t.regs = s.regs ∧
      (∀ a, Memory.read? t.spaces.text a =
        if s.eng.textBytes.toNat ≤ a ∧ a ≤ s.eng.textBytes.toNat + p.length then
          (p ++ [0#8])[a - s.eng.textBytes.toNat]?
        else Memory.read? s.spaces.text a) ∧
      (∀ m, Memory.read? t.spaces.textdir m =
        if m = s.eng.textCount.toNat then
          some ⟨s.eng.chunkCount, s.eng.textBytes, BitVec.ofNat 32 k,
            BitVec.ofNat 32 (p.length - k - 1)⟩
        else Memory.read? s.spaces.textdir m) ∧
      (∀ n, Memory.read? t.spaces.chunk n =
        if n = s.eng.chunkCount.toNat then
          some ⟨s.eng.curLen, 0x74455874#32, crc, s.eng.textCount⟩
        else Memory.read? s.spaces.chunk n) ∧
      t.spaces = { s.spaces with
        chunk := t.spaces.chunk, text := t.spaces.text, textdir := t.spaces.textdir } ∧
      t.ports = { s.ports with stream := rest } ∧ t.params = s.params ∧ t.schedule = []

/-! ## Scanline Reconstructor -/

/-- METHOD_CHECK (41_scanline_reconstructor.md R130). -/
def Obligations.MethodsMustBeZero : Prop :=
  ∀ s : State,
    (s.regs.hdrFmt.extractLsb' 16 8 = 0#8 → s.regs.hdrFmt.extractLsb' 24 8 = 0#8 →
      exec .methodCheck s = .next { s with eng := { s.eng with stage := .size } }) ∧
    (s.regs.hdrFmt.extractLsb' 16 8 ≠ 0#8 ∨ s.regs.hdrFmt.extractLsb' 24 8 ≠ 0#8 →
      exec .methodCheck s = .next (s.raise .unsupportedMethod s.eng.pos 0#32))

/-- SIZE (41_scanline_reconstructor.md R131, R132): E exactly, and the capacity check. -/
def Obligations.SizeIsExactAndChecked : Prop :=
  ∀ (s : State) (e : Nat),
    e = s.regs.hdrWidth.toNat * s.regs.hdrHeight.toNat * 3 + s.regs.hdrHeight.toNat →
    (e ≤ s.params.maxReconBytes.toNat →
      exec .size s = .next { s with
        eng := { s.eng with expSize := e, stage := .request }
        regs := { s.regs with expSize := BitVec.ofNat 32 e } }) ∧
    (s.params.maxReconBytes.toNat < e →
      exec .size s = .next (State.raise .capacityExceeded s.eng.pos 0#32
        { s with eng := { s.eng with expSize := e } }))

/-- DECOMPRESS issues one request, the IDAT bytes 0..idat_bytes-1 and E (41_scanline_reconstructor.md
R133; 20_memory.md R73). -/
def Obligations.DecompressIssuesTheRequest : Prop :=
  ∀ (s : State) (src : List Byte), s.eng.decPending = false →
    src.length = s.eng.idatBytes.toNat →
    (∀ n (h : n < src.length), Memory.read? s.spaces.idat n = some src[n]) →
    exec .decompress s = .next { s with
      eng := { s.eng with phase := .decomp, decPending := true }
      ports := { s.ports with request := some ⟨src, s.eng.expSize⟩, answer := none } }

/-- The answer check (41_scanline_reconstructor.md R134): exactly E bytes go to DECOMP_BUF and the rows are
next; Err or any other length is DecompressionFailed; either way the request is over. -/
def Obligations.AnswerMustHaveTheExpectedSize : Prop :=
  ∀ (s : State) (r : Option (List Byte)), s.eng.decPending = true → s.ports.answer = some r →
    (∀ d, r = some d → d.length = s.eng.expSize →
      ∃ t, exec .decompress s = .next t ∧
        (∀ a, Memory.read? t.spaces.decompBuf a =
          if a < d.length then d[a]? else Memory.read? s.spaces.decompBuf a) ∧
        t = { s with
          spaces := { s.spaces with decompBuf := t.spaces.decompBuf }
          eng := { s.eng with phase := .filter, row := 0#32, col := 0#32, decPending := false }
          ports := { s.ports with request := none, answer := none } }) ∧
    ((r = none ∨ ∃ d, r = some d ∧ d.length ≠ s.eng.expSize) →
      exec .decompress s = .next (State.raise .decompressionFailed s.eng.pos 0#32 { s with
        eng := { s.eng with decPending := false }
        ports := { s.ports with request := none, answer := none } }))

/-- The decompressor's side (60_exceptions.md R183, R184): it answers the outstanding request with
DECOMPRESS(src, E); an answer with none outstanding is discarded. -/
def Obligations.LateAnswersAreDiscarded : Prop :=
  ∀ (s : State) (rest : List Event), s.schedule = .decompressorAnswers :: rest →
    (s.eng.decPending = false → step s = .next { s with schedule := rest }) ∧
    (∀ src e, s.eng.decPending = true → s.ports.request = some ⟨src, e⟩ →
      s.ports.answer = none →
      step s = .next { s with
        schedule := rest
        ports := { s.ports with answer := some (decompressAnswer s.params src e) } })

/-- One reconstruction step of each filter type (41_scanline_reconstructor.md R137 to R142): the byte
written is (x + pred) mod 256 with the predictor on exact integers, nothing else is written, and the
engine goes to the next byte, the next row, or PACK (R135). -/
def Obligations.FilterWritesOneByte : Prop :=
  ∀ (s : State) (i j : Nat) (x a b c : Byte), s.eng.row.toNat = i → s.eng.col.toNat = j →
    x = s.filtered i j → a = s.neighbourA i j → b = s.neighbourB i j → c = s.neighbourC i j →
    ∀ p ∈ [(Instr.filtNone, 0), (Instr.filtSub, a.toNat), (Instr.filtUp, b.toNat),
        (Instr.filtAvg, (a.toNat + b.toNat) / 2),
        (Instr.filtPaeth, (paethPredictor a b c).toNat)],
      ∃ t, exec p.1 s = .next t ∧
        (∀ n, Memory.read? t.spaces.recon n =
          if n = i * (3 * s.regs.hdrWidth.toNat) + j then
            some (BitVec.ofNat 8 (x.toNat + p.2))
          else Memory.read? s.spaces.recon n) ∧
        t = { s with
          spaces := { s.spaces with recon := t.spaces.recon }
          eng :=
            if j + 1 < 3 * s.regs.hdrWidth.toNat then { s.eng with col := s.eng.col + 1#32 }
            else if i + 1 < s.regs.hdrHeight.toNat then
              { s.eng with row := s.eng.row + 1#32, col := 0#32 }
            else { s.eng with phase := .pack, packIdx := 0 } }

/-- PaethPredictor (41_scanline_reconstructor.md R143) on exact integers: the result is the neighbour
nearest to p = a + b - c, ties preferring a, then b, then c. -/
def Obligations.PaethPicksTheNearestNeighbour : Prop :=
  ∀ (a b c r : Byte), r = paethPredictor a b c →
    let p : Int := (a.toNat : Int) + b.toNat - c.toNat
    (r = a ∨ r = b ∨ r = c) ∧
    |p - r.toNat| ≤ |p - a.toNat| ∧ |p - r.toNat| ≤ |p - b.toNat| ∧
    |p - r.toNat| ≤ |p - c.toNat| ∧
    (|p - a.toNat| ≤ |p - b.toNat| → |p - a.toNat| ≤ |p - c.toNat| → r = a) ∧
    (|p - b.toNat| < |p - a.toNat| → |p - b.toNat| ≤ |p - c.toNat| → r = b)

/-- The identities of R146: with the neighbours it reads zero, every filter writes x itself. -/
def Obligations.ZeroNeighboursLeaveTheByte : Prop :=
  ∀ (s : State) (i j : Nat), s.eng.row.toNat = i → s.eng.col.toNat = j →
    ∀ f ∈ [(Instr.filtNone, true), (Instr.filtSub, decide (s.neighbourA i j = 0#8)),
        (Instr.filtUp, decide (s.neighbourB i j = 0#8)),
        (Instr.filtAvg, decide (s.neighbourA i j = 0#8 ∧ s.neighbourB i j = 0#8)),
        (Instr.filtPaeth, decide (s.neighbourA i j = 0#8 ∧ s.neighbourB i j = 0#8 ∧
          s.neighbourC i j = 0#8))],
      f.2 = true → ∃ t, exec f.1 s = .next t ∧
        Memory.read? t.spaces.recon (i * (3 * s.regs.hdrWidth.toNat) + j) = some (s.filtered i j)

/-- FILT_INVALID (41_scanline_reconstructor.md R144): UnknownFilterType with the row as its index, in
every state and for every byte. -/
def Obligations.InvalidFilterIsFatal : Prop :=
  ∀ (ft : Byte) (s : State), exec (.filtInvalid ft) s =
    .next (s.raise .unknownFilterType s.eng.pos s.eng.row)

/-- One pixel (41_scanline_reconstructor.md R147; 10_state.md R45): {0xFF, b, g, r} of the three bytes at
column n mod W, row n / W, and no other element of any space changes. -/
def Obligations.PackWritesOnePixel : Prop :=
  ∀ (s : State) (n x y : Nat) (r g b : Byte),
    s.eng.packIdx = n → n < s.regs.hdrWidth.toNat * s.regs.hdrHeight.toNat →
    x = n % s.regs.hdrWidth.toNat → y = n / s.regs.hdrWidth.toNat →
    r = s.reconByte y (3 * x) → g = s.reconByte y (3 * x + 1) → b = s.reconByte y (3 * x + 2) →
    ∃ t, exec .pack s = .next t ∧
      (∀ m, Memory.read? t.spaces.pixel m =
        if m = n then some (0xFF#8 ++ b ++ g ++ r) else Memory.read? s.spaces.pixel m) ∧
      t = { s with
        spaces := { s.spaces with pixel := t.spaces.pixel }
        eng := { s.eng with packIdx := n + 1 } }

/-- DONE entry (41_scanline_reconstructor.md R148). -/
def Obligations.PackEndsInDone : Prop :=
  ∀ s : State, s.regs.hdrWidth.toNat * s.regs.hdrHeight.toNat ≤ s.eng.packIdx →
    exec .pack s = .next { s with
      eng := { s.eng with phase := .done }
      regs := { s.regs with
        pixelCount := s.regs.hdrWidth * s.regs.hdrHeight
        chunkCount := s.eng.chunkCount
        idatBytes := s.eng.idatBytes
        textCount := s.eng.textCount
        textBytes := s.eng.textBytes
        streamPos := BitVec.ofNat 32 (min s.eng.pos 0xFFFFFFFF)
        status := 0x00000002#32 } }

/-- The whole row loop (41_scanline_reconstructor.md R135 to R143): from FILTER entry, with every row's
filter type 0..4, H*3*W steps reconstruct every byte from its neighbours in raster order.
The number of steps is the model's (log entry 14). -/
def Obligations.RowLoopReconstructsTheImage : Prop :=
  ∀ (s : State) (w h : Nat) (d : List Byte),
    s.schedule = [] → s.eng.phase = .filter → s.eng.row = 0#32 → s.eng.col = 0#32 →
    w = s.regs.hdrWidth.toNat → h = s.regs.hdrHeight.toNat → 0 < w → 0 < h →
    d.length = w * h * 3 + h → d.length < 2 ^ 32 →
    (∀ n (hn : n < d.length), Memory.read? s.spaces.decompBuf n = some d[n]) →
    (∀ i < h, ∃ ft, d[i * (3 * w + 1)]? = some ft ∧ ft.toNat ≤ 4) →
    ∃ (t : State) (img : Nat → Nat → Byte), Runs (h * (3 * w)) s t ∧
      t.eng.phase = .pack ∧ t.eng.packIdx = 0 ∧
      (∀ i j, i < h → j < 3 * w →
        Memory.read? t.spaces.recon (i * (3 * w) + j) = some (img i j) ∧
        ∃ ft x, d[i * (3 * w + 1)]? = some ft ∧ d[i * (3 * w + 1) + 1 + j]? = some x ∧
          (img i j).toNat = (x.toNat + predictorOf ft
            (if 3 ≤ j then img i (j - 3) else 0#8)
            (if 0 < i then img (i - 1) j else 0#8)
            (if 3 ≤ j ∧ 0 < i then img (i - 1) (j - 3) else 0#8)) % 256) ∧
      t.spaces = { s.spaces with recon := t.spaces.recon } ∧
      t.regs = s.regs ∧ t.ports = s.ports ∧ t.params = s.params ∧ t.schedule = [] ∧
      t.eng = { s.eng with
        phase := .pack, packIdx := 0, row := t.eng.row, col := t.eng.col }

/-- An invalid filter byte ends the decode when its row is reached (41_scanline_reconstructor.md R135,
R144): the lowest such row is the error's index, and no PIXEL word is written.
The number of steps is the model's (log entry 14). -/
def Obligations.LowestBadRowIsReported : Prop :=
  ∀ (s : State) (w h r : Nat) (d : List Byte),
    s.schedule = [] → s.eng.phase = .filter → s.eng.row = 0#32 → s.eng.col = 0#32 →
    w = s.regs.hdrWidth.toNat → h = s.regs.hdrHeight.toNat → 0 < w → r < h →
    d.length = w * h * 3 + h → d.length < 2 ^ 32 →
    (∀ n (hn : n < d.length), Memory.read? s.spaces.decompBuf n = some d[n]) →
    (∀ i < r, ∃ ft, d[i * (3 * w + 1)]? = some ft ∧ ft.toNat ≤ 4) →
    (∃ ft, d[r * (3 * w + 1)]? = some ft ∧ 4 < ft.toNat) →
    ∃ t : State, Runs (r * (3 * w) + 1) s t ∧
      t.eng.phase = .error ∧
      t.eng.err = ⟨.unknownFilterType, s.eng.pos, BitVec.ofNat 32 r⟩ ∧
      t.regs.status = 0x00000604#32 ∧ t.regs.errIndex = BitVec.ofNat 32 r ∧
      t.spaces.pixel = s.spaces.pixel

/-- The whole PACK phase (41_scanline_reconstructor.md R147, R148): W*H pixels and DONE entry. The
number of steps and the pixel index are the model's (log entries 5 and 14). -/
def Obligations.PackPhasePacksEveryPixel : Prop :=
  ∀ (s : State) (w h : Nat) (img : Nat → Nat → Byte),
    s.schedule = [] → s.eng.phase = .pack → s.eng.packIdx = 0 →
    w = s.regs.hdrWidth.toNat → h = s.regs.hdrHeight.toNat →
    (∀ i j, i < h → j < 3 * w → Memory.read? s.spaces.recon (i * (3 * w) + j) = some (img i j)) →
    ∃ t : State, Runs (w * h + 1) s t ∧
      t.eng.phase = .done ∧ t.regs.status = 0x00000002#32 ∧
      t.regs.pixelCount = s.regs.hdrWidth * s.regs.hdrHeight ∧
      t.regs.streamPos = BitVec.ofNat 32 (min s.eng.pos 0xFFFFFFFF) ∧
      (∀ x y, x < w → y < h → Memory.read? t.spaces.pixel (y * w + x) =
        some (0xFF#8 ++ img y (3 * x + 2) ++ img y (3 * x + 1) ++ img y (3 * x))) ∧
      t.spaces = { s.spaces with pixel := t.spaces.pixel } ∧
      t.params = s.params ∧ t.schedule = []

/-- The scanlines of an image with filter type 0 in every row (41_scanline_reconstructor.md R151): each
row's 0x00, then r, g, b of each pixel in order. -/
def filterZeroRows (w h : Nat) (px : Nat → Nat → Byte × Byte × Byte) : List Byte :=
  (List.range h).flatMap fun y =>
    0#8 :: (List.range w).flatMap fun x => [(px x y).1, (px x y).2.1, (px x y).2.2]

/-- The stream of an image: signature, IHDR (30_encoding.md R96), any number of IDAT chunks, IEND. -/
def imageStream (w h : Word) (bd ct im : Byte) (crc0 crc1 : Word)
    (idats : List (List Byte × Word)) : List Byte :=
  sigBytes 0x89504E470D0A1A0A#64 ++
  chunkBytes 13#32 0x49484452#32 (be32Bytes w ++ be32Bytes h ++ [bd, ct, 0#8, 0#8, im]) crc0 ++
  idats.flatMap (fun c => chunkBytes (BitVec.ofNat 32 c.1.length) 0x49444154#32 c.1 c.2) ++
  chunkBytes 0#32 0x49454E44#32 [] crc1

/-- Round trip (41_scanline_reconstructor.md R151): for such a stream, with any CRCs and any split into
IDAT chunks, and a decompressor that returns the rows it was given, the decode ends in DONE and the host
reads every pixel of the source back, opaque. The stream is wholly at the port; the decompressor answers
once, right after the request; after how many steps that is, is the model's (log entry 14). -/
def Obligations.RoundTripReturnsTheImage : Prop :=
  ∀ (s : State) (w h : Word) (bd ct im : Byte) (crc0 crc1 : Word)
    (idats : List (List Byte × Word)) (rest : List Byte)
    (px : Nat → Nat → Byte × Byte × Byte) (n : Nat),
    s.eng = { Engine.reset with phase := .sig } →
    w ≠ 0#32 → h ≠ 0#32 →
    w.toNat * h.toNat * 3 + h.toNat ≤ s.params.maxReconBytes.toNat →
    idats.length + 2 ≤ s.params.maxChunks.toNat →
    (idats.flatMap Prod.fst).length ≤ s.params.maxIdatBytes.toNat →
    s.ports.stream = imageStream w h bd ct im crc0 crc1 idats ++ rest →
    decompressAnswer s.params (idats.flatMap Prod.fst) (w.toNat * h.toNat * 3 + h.toNat) =
      some (filterZeroRows w.toNat h.toNat px) →
    n = (imageStream w h bd ct im crc0 crc1 idats).length + (idats.length + 2) + 3 →
    s.schedule = List.replicate n .engine ++ [.decompressorAnswers] →
    ∃ (t : State) (m : Nat), Runs m s t ∧
      t.eng.phase = .done ∧ t.regs.status = 0x00000002#32 ∧ t.ports.stream = rest ∧
      t.regs.pixelCount.toNat = w.toNat * h.toNat ∧
      t.eng.pos = (imageStream w h bd ct im crc0 crc1 idats).length ∧
      ∀ x y, x < w.toNat → y < h.toNat →
        t.hostValue (.pixel (y * w.toNat + x)) =
          some (0xFF#8 ++ (px x y).2.2 ++ (px x y).2.1 ++ (px x y).1)
end

