-- ==== Sys2Proof/Laws/Decode.lean ====
section
/-! SUPPORT. What the decode maps answer on the codes of the tables, and the byte order of the stream
fields. -/

namespace Sys2Proof

theorem wellFormed_unknownChunk {code : Word} :
    (Instr.unknownChunk code).WellFormed ↔ code ∉ knownCodes := by
  simp [Instr.WellFormed, Instr.wellFormed]

theorem wellFormed_filtInvalid {ft : Byte} :
    (Instr.filtInvalid ft).WellFormed ↔ 4 < ft.toNat := by
  simp [Instr.WellFormed, Instr.wellFormed]

@[simp] theorem decodeTypeCode_ihdr : decodeTypeCode codeIHDR = .ihdr := by decide
@[simp] theorem decodeTypeCode_idat : decodeTypeCode codeIDAT = .idat := by decide
@[simp] theorem decodeTypeCode_text : decodeTypeCode codeTEXt = .text := by decide
@[simp] theorem decodeTypeCode_iend : decodeTypeCode codeIEND = .iend := by decide

/-- An unrecognised code decodes to UNKNOWN_CHUNK (R91). -/
theorem decodeTypeCode_unknown {w : Word} (h : w ∉ knownCodes) :
    decodeTypeCode w = .unknownChunk w := by
  simp only [knownCodes, List.mem_cons, List.not_mem_nil, or_false, not_or] at h
  simp [decodeTypeCode, h]

/-- The chunk decode by cases: one of the four codes, or an unrecognised one (R91). -/
theorem decodeTypeCode_cases (w : Word) :
    (w = codeIHDR ∧ decodeTypeCode w = .ihdr) ∨ (w = codeIDAT ∧ decodeTypeCode w = .idat) ∨
    (w = codeTEXt ∧ decodeTypeCode w = .text) ∨ (w = codeIEND ∧ decodeTypeCode w = .iend) ∨
    (w ∉ knownCodes ∧ decodeTypeCode w = .unknownChunk w) := by
  by_cases h1 : w = codeIHDR
  · exact .inl ⟨h1, by rw [h1]; decide⟩
  by_cases h2 : w = codeIDAT
  · exact .inr (.inl ⟨h2, by rw [h2]; decide⟩)
  by_cases h3 : w = codeTEXt
  · exact .inr (.inr (.inl ⟨h3, by rw [h3]; decide⟩))
  by_cases h4 : w = codeIEND
  · exact .inr (.inr (.inr (.inl ⟨h4, by rw [h4]; decide⟩)))
  have h : w ∉ knownCodes := by simp [knownCodes, h1, h2, h3, h4]
  exact .inr (.inr (.inr (.inr ⟨h, decodeTypeCode_unknown h⟩)))

theorem codeIDAT_ne_codeIHDR : codeIDAT ≠ codeIHDR := by decide
theorem codeTEXt_ne_codeIHDR : codeTEXt ≠ codeIHDR := by decide
theorem codeIEND_ne_codeIHDR : codeIEND ≠ codeIHDR := by decide
theorem codeTEXt_ne_codeIDAT : codeTEXt ≠ codeIDAT := by decide
theorem codeIDAT_ne_codeTEXt : codeIDAT ≠ codeTEXt := by decide
theorem codeIEND_ne_codeIDAT : codeIEND ≠ codeIDAT := by decide
theorem codeIEND_ne_codeTEXt : codeIEND ≠ codeTEXt := by decide

/-- The filter decode by cases (R89): a byte 0..4 with its filter, or a larger one. -/
theorem decodeFilterByte_cases (b : Byte) :
    (b = 0#8 ∧ decodeFilterByte b = .filtNone) ∨ (b = 1#8 ∧ decodeFilterByte b = .filtSub) ∨
    (b = 2#8 ∧ decodeFilterByte b = .filtUp) ∨ (b = 3#8 ∧ decodeFilterByte b = .filtAvg) ∨
    (b = 4#8 ∧ decodeFilterByte b = .filtPaeth) ∨
    (4 < b.toNat ∧ decodeFilterByte b = .filtInvalid b) := by
  unfold decodeFilterByte
  by_cases h0 : b = 0#8
  · simp [h0]
  by_cases h1 : b = 1#8
  · simp [h1]
  by_cases h2 : b = 2#8
  · simp [h2]
  by_cases h3 : b = 3#8
  · simp [h3]
  by_cases h4 : b = 4#8
  · simp [h4]
  refine .inr (.inr (.inr (.inr (.inr ⟨?_, by simp [h0, h1, h2, h3, h4]⟩))))
  bv_omega

/-- A byte above 4 is no filter type (R89). -/
theorem decodeFilterByte_invalid {b : Byte} (h : 4 < b.toNat) :
    decodeFilterByte b = .filtInvalid b := by
  have hne : ∀ k : Byte, k.toNat ≤ 4 → b ≠ k := by rintro k hk rfl; omega
  unfold decodeFilterByte
  rw [if_neg (hne 0#8 (by decide)), if_neg (hne 1#8 (by decide)), if_neg (hne 2#8 (by decide)),
    if_neg (hne 3#8 (by decide)), if_neg (hne 4#8 (by decide))]

/-- A CTRL word by its two command bits (R94). -/
theorem decodeCtrl_of_bits {w : Word} {b1 b0 : Bool} (h1 : w.getLsbD 1 = b1)
    (h0 : w.getLsbD 0 = b0) :
    decodeCtrl w = if b1 then .ok (.cmdSoftReset b0 (w.extractLsb' 2 30))
      else if b0 then .ok (.cmdStart (w.extractLsb' 2 30)) else .error .noCommand := by
  unfold decodeCtrl
  rw [h1, h0]

theorem extract_append_two (r : BitVec 30) (t : BitVec 2) :
    (r ++ t).extractLsb' 2 30 = r := by
  apply BitVec.eq_of_getLsbD_eq
  intro i hi
  have h2 : ¬ 2 + i < 2 := by omega
  rw [BitVec.getLsbD_extractLsb', BitVec.getLsbD_append]
  simp [hi, h2]

theorem decodeCtrl_start (r : BitVec 30) : decodeCtrl (r ++ 0b01#2) = .ok (.cmdStart r) := by
  rw [decodeCtrl_of_bits (b1 := false) (b0 := true) (by rw [BitVec.getLsbD_append]; rfl)
    (by rw [BitVec.getLsbD_append]; rfl), extract_append_two]
  rfl

theorem decodeCtrl_softReset (b : Bool) (r : BitVec 30) :
    decodeCtrl (r ++ (1#1 ++ BitVec.ofBool b)) = .ok (.cmdSoftReset b r) := by
  rw [decodeCtrl_of_bits (b1 := true) (b0 := b) (by rw [BitVec.getLsbD_append]; cases b <;> rfl)
    (by rw [BitVec.getLsbD_append]; cases b <;> rfl), extract_append_two]
  rfl

/-- A word is its bits 31:2 over its bits 1:0 (R94). -/
theorem ctrl_split (w : Word) :
    w = w.extractLsb' 2 30 ++ (BitVec.ofBool (w.getLsbD 1) ++ BitVec.ofBool (w.getLsbD 0)) := by
  apply BitVec.eq_of_getLsbD_eq
  intro i hi
  simp only [BitVec.getLsbD_append, BitVec.getLsbD_extractLsb', BitVec.getLsbD_ofBool]
  by_cases h0 : i = 0
  · subst h0; simp
  by_cases h1 : i = 1
  · subst h1; simp
  have h2 : ¬ i < 1 + 1 := by omega
  have h3 : i - (1 + 1) < 30 := by omega
  have h4 : 2 + (i - (1 + 1)) = i := by omega
  simp [h2, h3, h4]

end Sys2Proof
end

