-- ==== Sys2Proof/Laws/Memory.lean ====
section
/-! SUPPORT. The laws of a space's contents: read after write, the canonical form, and what a run of
consecutive writes leaves. -/

namespace Sys2Proof.Machine

variable {α : Type}

theorem Memory.wf_nil : Memory.wf ([] : Memory α) := List.Pairwise.nil

/-- The reset state's spaces are in canonical form. -/
theorem Spaces.reset_wf : Memory.wf Spaces.reset.chunk ∧ Memory.wf Spaces.reset.idat ∧
    Memory.wf Spaces.reset.text ∧ Memory.wf Spaces.reset.textdir ∧
    Memory.wf Spaces.reset.pixel ∧ Memory.wf Spaces.reset.decompBuf ∧
    Memory.wf Spaces.reset.recon :=
  ⟨.nil, .nil, .nil, .nil, .nil, .nil, .nil⟩

@[simp] theorem Memory.read?_nil (a : Nat) : Memory.read? ([] : Memory α) a = none := rfl

theorem Memory.read?_cons (k : Nat) (v : α) (m : Memory α) (a : Nat) :
    Memory.read? ((k, v) :: m) a = if a = k then some v else Memory.read? m a := rfl

/-- A read after a write: the value at the written index, every other element as before. -/
theorem Memory.read?_write (m : Memory α) (a b : Nat) (v : α) :
    Memory.read? (Memory.write m a v) b = if b = a then some v else Memory.read? m b := by
  induction m with
  | nil => rfl
  | cons x m ih =>
    obtain ⟨k, w⟩ := x
    unfold Memory.write
    split
    · simp only [Memory.read?_cons]
    · split
      · subst_vars
        simp only [Memory.read?_cons]
        split <;> rfl
      · simp only [Memory.read?_cons, ih]
        by_cases hb : b = k
        · subst hb
          have : b ≠ a := by omega
          simp [this]
        · simp [hb]

@[simp] theorem Memory.read?_write_same (m : Memory α) (a : Nat) (v : α) :
    Memory.read? (Memory.write m a v) a = some v := by
  simp [Memory.read?_write]

theorem Memory.read?_write_other (m : Memory α) {a b : Nat} (v : α) (h : b ≠ a) :
    Memory.read? (Memory.write m a v) b = Memory.read? m b := by
  simp [Memory.read?_write, h]

/-- Every element of a written space is the new one or an old one. -/
theorem Memory.mem_write {m : Memory α} {a : Nat} {v : α} {x : Nat × α}
    (h : x ∈ Memory.write m a v) : x = (a, v) ∨ x ∈ m := by
  induction m with
  | nil => exact .inl (by simpa [Memory.write] using h)
  | cons y m ih =>
    obtain ⟨k, w⟩ := y
    unfold Memory.write at h
    split at h
    · simpa using h
    · split at h
      · rcases List.mem_cons.1 h with rfl | h
        · exact .inl rfl
        · exact .inr (List.mem_cons_of_mem _ h)
      · rcases List.mem_cons.1 h with rfl | h
        · exact .inr List.mem_cons_self
        · exact (ih h).imp_right (List.mem_cons_of_mem _)

/-- A write keeps the canonical form. -/
theorem Memory.wf_write {m : Memory α} (h : Memory.wf m) (a : Nat) (v : α) :
    Memory.wf (Memory.write m a v) := by
  induction m with
  | nil => exact List.pairwise_singleton _ _
  | cons y m ih =>
    obtain ⟨k, w⟩ := y
    have hm : Memory.wf m := h.of_cons
    have hk : ∀ x ∈ m, k < x.1 := fun x hx => (List.pairwise_cons.1 h).1 x hx
    unfold Memory.write
    split
    · rename_i hlt
      refine List.pairwise_cons.2 ⟨fun x hx => ?_, h⟩
      rcases List.mem_cons.1 hx with rfl | hx
      · exact hlt
      · exact Nat.lt_trans hlt (hk x hx)
    · split
      · subst_vars
        exact List.pairwise_cons.2 ⟨hk, hm⟩
      · refine List.pairwise_cons.2 ⟨fun x hx => ?_, ih hm⟩
        rcases Memory.mem_write hx with rfl | hx
        · show k < a
          omega
        · exact hk x hx

@[simp] theorem Memory.writeList_nil (m : Memory α) (a : Nat) : Memory.writeList m a [] = m := rfl

theorem Memory.writeList_cons (m : Memory α) (a : Nat) (v : α) (vs : List α) :
    Memory.writeList m a (v :: vs) = Memory.writeList (Memory.write m a v) (a + 1) vs := rfl

/-- What a run of consecutive writes leaves at an index. -/
theorem Memory.read?_writeList (m : Memory α) (a : Nat) (vs : List α) (b : Nat) :
    Memory.read? (Memory.writeList m a vs) b =
      if a ≤ b ∧ b < a + vs.length then vs[b - a]? else Memory.read? m b := by
  induction vs generalizing m a with
  | nil =>
    have : ¬ (a ≤ b ∧ b < a + ([] : List α).length) := by simp
    rw [if_neg this]; rfl
  | cons v vs ih =>
    rw [Memory.writeList_cons, ih, Memory.read?_write]
    by_cases h1 : b = a
    · subst h1
      simp
    · by_cases h2 : a + 1 ≤ b ∧ b < a + 1 + vs.length
      · have h3 : a ≤ b ∧ b < a + (v :: vs).length := by simp; omega
        rw [if_pos h2, if_pos h3]
        have : b - a = (b - (a + 1)) + 1 := by omega
        rw [this, List.getElem?_cons_succ]
      · have h3 : ¬ (a ≤ b ∧ b < a + (v :: vs).length) := by simp; omega
        rw [if_neg h2, if_neg h3, if_neg h1]

/-- A run of writes keeps the canonical form. -/
theorem Memory.wf_writeList {m : Memory α} (h : Memory.wf m) (a : Nat) (vs : List α) :
    Memory.wf (Memory.writeList m a vs) := by
  induction vs generalizing m a with
  | nil => exact h
  | cons v vs ih => exact ih (Memory.wf_write h a v) (a + 1)

/-- Every element after a run of writes is a new one, at its own index, or an old one. -/
theorem Memory.mem_writeList {m : Memory α} {a : Nat} {vs : List α} {x : Nat × α}
    (h : x ∈ Memory.writeList m a vs) : (a ≤ x.1 ∧ x.1 < a + vs.length) ∨ x ∈ m := by
  induction vs generalizing m a with
  | nil => exact .inr h
  | cons v vs ih =>
    rcases ih (m := Memory.write m a v) (a := a + 1) h with ⟨h1, h2⟩ | h
    · exact .inl ⟨by omega, by simp; omega⟩
    · rcases Memory.mem_write h with rfl | h
      · exact .inl ⟨Nat.le_refl _, by simp⟩
      · exact .inr h

/-- Reading `n` bytes of a space whose elements from `a` on are the bytes of `l`. -/
theorem State.readBytes_eq (s : State) (b : ByteSpace) (a : Nat) (l : List Byte)
    (h : ∀ i (hi : i < l.length), Memory.read? (s.spaces.bytes b) (a + i) = some l[i]) :
    s.readBytes b a l.length = l := by
  induction l generalizing a with
  | nil => rfl
  | cons v l ih =>
    show s.readByteAt b a :: s.readBytes b (a + 1) l.length = v :: l
    have h0 := h 0 (by simp)
    rw [ih (a + 1)]
    · simp only [Nat.add_zero, List.getElem_cons_zero] at h0
      rw [State.readByteAt, h0]; rfl
    · intro i hi
      have := h (i + 1) (by simpa using hi)
      simpa [Nat.add_assoc, Nat.add_comm 1 i] using this

end Sys2Proof.Machine
end

