-- ==== Sys2Proof/Laws/State.lean ====
section
/-! SUPPORT. What each plain update of the state leaves in each part of it: one lemma per part, true by
rfl, so that no proof unfolds an update. An engine or register field of an updated state follows from
the lemma of its record. -/

namespace Sys2Proof.Machine

variable (s : State)

@[simp] theorem State.raise_params (k : ErrKind) (o : Nat) (i : Word) :
    (State.raise k o i s).params = s.params := rfl
@[simp] theorem State.raise_eng (k : ErrKind) (o : Nat) (i : Word) :
    (State.raise k o i s).eng = { s.eng with err := ⟨k, o, i⟩, phase := .error } := rfl
@[simp] theorem State.raise_regs (k : ErrKind) (o : Nat) (i : Word) :
    (State.raise k o i s).regs = { s.regs with
      errOffset := sat32 o
      errIndex := i
      streamPos := sat32 s.eng.pos
      status := statusError k } := rfl
@[simp] theorem State.raise_spaces (k : ErrKind) (o : Nat) (i : Word) :
    (State.raise k o i s).spaces = s.spaces := rfl
@[simp] theorem State.raise_ports (k : ErrKind) (o : Nat) (i : Word) :
    (State.raise k o i s).ports = s.ports := rfl
@[simp] theorem State.raise_schedule (k : ErrKind) (o : Nat) (i : Word) :
    (State.raise k o i s).schedule = s.schedule := rfl
@[simp] theorem State.raise_draws (k : ErrKind) (o : Nat) (i : Word) :
    (State.raise k o i s).draws = s.draws := rfl
@[simp] theorem State.raise_epoch (k : ErrKind) (o : Nat) (i : Word) :
    (State.raise k o i s).epoch = s.epoch := rfl
@[simp] theorem State.raise_readData (k : ErrKind) (o : Nat) (i : Word) :
    (State.raise k o i s).readData = s.readData := rfl

@[simp] theorem State.wait_params : (s.wait).params = s.params := rfl
@[simp] theorem State.wait_eng : (s.wait).eng = s.eng := rfl
@[simp] theorem State.wait_regs : (s.wait).regs = s.regs := rfl
@[simp] theorem State.wait_spaces : (s.wait).spaces = s.spaces := rfl
@[simp] theorem State.wait_ports : (s.wait).ports = s.ports := rfl
@[simp] theorem State.wait_schedule : (s.wait).schedule = s.schedule := rfl
@[simp] theorem State.wait_draws : (s.wait).draws = s.draws := rfl
@[simp] theorem State.wait_epoch : (s.wait).epoch = s.epoch := rfl
@[simp] theorem State.wait_readData : (s.wait).readData = s.readData := rfl

@[simp] theorem State.start_params : (s.start).params = s.params := rfl
@[simp] theorem State.start_eng : (s.start).eng = { Engine.reset with phase := .sig } := rfl
@[simp] theorem State.start_regs : (s.start).regs = { s.regs with
      errOffset := 0#32
      errIndex := 0#32
      streamPos := 0#32
      status := statusBusy } := rfl
@[simp] theorem State.start_spaces : (s.start).spaces = s.spaces := rfl
@[simp] theorem State.start_ports : (s.start).ports = Ports.reset := rfl
@[simp] theorem State.start_schedule : (s.start).schedule = s.schedule := rfl
@[simp] theorem State.start_draws : (s.start).draws = s.draws := rfl
@[simp] theorem State.start_epoch : (s.start).epoch = s.epoch := rfl
@[simp] theorem State.start_readData : (s.start).readData = s.readData := rfl

@[simp] theorem State.resetBlock_params : (s.resetBlock).params = s.params := rfl
@[simp] theorem State.resetBlock_eng : (s.resetBlock).eng = Engine.reset := rfl
@[simp] theorem State.resetBlock_regs : (s.resetBlock).regs = Regs.reset := rfl
@[simp] theorem State.resetBlock_spaces : (s.resetBlock).spaces = Spaces.reset := rfl
@[simp] theorem State.resetBlock_ports : (s.resetBlock).ports = Ports.reset := rfl
@[simp] theorem State.resetBlock_schedule : (s.resetBlock).schedule = s.schedule := rfl
@[simp] theorem State.resetBlock_draws : (s.resetBlock).draws = s.draws := rfl
@[simp] theorem State.resetBlock_epoch : (s.resetBlock).epoch = s.epoch + 1 := rfl
@[simp] theorem State.resetBlock_readData : (s.resetBlock).readData = s.readData := rfl

@[simp] theorem State.setPhase_params (p : Phase) : (State.setPhase p s).params = s.params := rfl
@[simp] theorem State.setPhase_eng (p : Phase) :
    (State.setPhase p s).eng = { s.eng with phase := p } := rfl
@[simp] theorem State.setPhase_regs (p : Phase) : (State.setPhase p s).regs = s.regs := rfl
@[simp] theorem State.setPhase_spaces (p : Phase) : (State.setPhase p s).spaces = s.spaces := rfl
@[simp] theorem State.setPhase_ports (p : Phase) : (State.setPhase p s).ports = s.ports := rfl
@[simp] theorem State.setPhase_schedule (p : Phase) :
    (State.setPhase p s).schedule = s.schedule := rfl
@[simp] theorem State.setPhase_draws (p : Phase) : (State.setPhase p s).draws = s.draws := rfl
@[simp] theorem State.setPhase_epoch (p : Phase) : (State.setPhase p s).epoch = s.epoch := rfl
@[simp] theorem State.setPhase_readData (p : Phase) :
    (State.setPhase p s).readData = s.readData := rfl

@[simp] theorem State.chunkBoundary_params : (s.chunkBoundary).params = s.params := rfl
@[simp] theorem State.chunkBoundary_eng : (s.chunkBoundary).eng = { s.eng with
      phase := .len
      curStart := s.eng.pos
      curOff := 0
      zeroSeen := false
      keyLen := 0#32
      fldK := 0 } := rfl
@[simp] theorem State.chunkBoundary_regs : (s.chunkBoundary).regs = s.regs := rfl
@[simp] theorem State.chunkBoundary_spaces : (s.chunkBoundary).spaces = s.spaces := rfl
@[simp] theorem State.chunkBoundary_ports : (s.chunkBoundary).ports = s.ports := rfl
@[simp] theorem State.chunkBoundary_schedule : (s.chunkBoundary).schedule = s.schedule := rfl
@[simp] theorem State.chunkBoundary_draws : (s.chunkBoundary).draws = s.draws := rfl
@[simp] theorem State.chunkBoundary_epoch : (s.chunkBoundary).epoch = s.epoch := rfl
@[simp] theorem State.chunkBoundary_readData : (s.chunkBoundary).readData = s.readData := rfl

@[simp] theorem State.enterCrc_params : (s.enterCrc).params = s.params := rfl
@[simp] theorem State.enterCrc_eng :
    (s.enterCrc).eng = { s.eng with phase := .crc, fldK := 0 } := rfl
@[simp] theorem State.enterCrc_regs : (s.enterCrc).regs = s.regs := rfl
@[simp] theorem State.enterCrc_spaces : (s.enterCrc).spaces = s.spaces := rfl
@[simp] theorem State.enterCrc_ports : (s.enterCrc).ports = s.ports := rfl
@[simp] theorem State.enterCrc_schedule : (s.enterCrc).schedule = s.schedule := rfl
@[simp] theorem State.enterCrc_draws : (s.enterCrc).draws = s.draws := rfl
@[simp] theorem State.enterCrc_epoch : (s.enterCrc).epoch = s.epoch := rfl
@[simp] theorem State.enterCrc_readData : (s.enterCrc).readData = s.readData := rfl

@[simp] theorem State.countChunk_params : (s.countChunk).params = s.params := rfl
@[simp] theorem State.countChunk_eng :
    (s.countChunk).eng = { s.eng with chunkCount := s.eng.chunkCount + 1#32 } := rfl
@[simp] theorem State.countChunk_regs : (s.countChunk).regs = s.regs := rfl
@[simp] theorem State.countChunk_spaces : (s.countChunk).spaces = s.spaces := rfl
@[simp] theorem State.countChunk_ports : (s.countChunk).ports = s.ports := rfl
@[simp] theorem State.countChunk_schedule : (s.countChunk).schedule = s.schedule := rfl
@[simp] theorem State.countChunk_draws : (s.countChunk).draws = s.draws := rfl
@[simp] theorem State.countChunk_epoch : (s.countChunk).epoch = s.epoch := rfl
@[simp] theorem State.countChunk_readData : (s.countChunk).readData = s.readData := rfl

@[simp] theorem State.commitIdat_params : (s.commitIdat).params = s.params := rfl
@[simp] theorem State.commitIdat_eng :
    (s.commitIdat).eng = { s.eng with idatBytes := s.eng.idatBytes + s.eng.curLen } := rfl
@[simp] theorem State.commitIdat_regs : (s.commitIdat).regs = s.regs := rfl
@[simp] theorem State.commitIdat_spaces : (s.commitIdat).spaces = s.spaces := rfl
@[simp] theorem State.commitIdat_ports : (s.commitIdat).ports = s.ports := rfl
@[simp] theorem State.commitIdat_schedule : (s.commitIdat).schedule = s.schedule := rfl
@[simp] theorem State.commitIdat_draws : (s.commitIdat).draws = s.draws := rfl
@[simp] theorem State.commitIdat_epoch : (s.commitIdat).epoch = s.epoch := rfl
@[simp] theorem State.commitIdat_readData : (s.commitIdat).readData = s.readData := rfl

@[simp] theorem State.commitText_params : (s.commitText).params = s.params := rfl
@[simp] theorem State.commitText_eng : (s.commitText).eng = { s.eng with
      textCount := s.eng.textCount + 1#32
      textBytes := s.eng.textBytes + s.eng.curLen + 1#32 } := rfl
@[simp] theorem State.commitText_regs : (s.commitText).regs = s.regs := rfl
@[simp] theorem State.commitText_spaces : (s.commitText).spaces = { s.spaces with
      text := Memory.write s.spaces.text
        (s.eng.textBytes.toNat + s.eng.curLen.toNat) 0#8
      textdir := Memory.write s.spaces.textdir s.eng.textCount.toNat s.textEntry } := rfl
@[simp] theorem State.commitText_ports : (s.commitText).ports = s.ports := rfl
@[simp] theorem State.commitText_schedule : (s.commitText).schedule = s.schedule := rfl
@[simp] theorem State.commitText_draws : (s.commitText).draws = s.draws := rfl
@[simp] theorem State.commitText_epoch : (s.commitText).epoch = s.epoch := rfl
@[simp] theorem State.commitText_readData : (s.commitText).readData = s.readData := rfl

@[simp] theorem State.writeRecord_params (ty : Word) :
    (State.writeRecord ty s).params = s.params := rfl
@[simp] theorem State.writeRecord_eng (ty : Word) : (State.writeRecord ty s).eng = s.eng := rfl
@[simp] theorem State.writeRecord_regs (ty : Word) : (State.writeRecord ty s).regs = s.regs := rfl
@[simp] theorem State.writeRecord_spaces (ty : Word) :
    (State.writeRecord ty s).spaces = { s.spaces with
      chunk := Memory.write s.spaces.chunk s.eng.chunkCount.toNat (s.chunkRecord ty) } := rfl
@[simp] theorem State.writeRecord_ports (ty : Word) :
    (State.writeRecord ty s).ports = s.ports := rfl
@[simp] theorem State.writeRecord_schedule (ty : Word) :
    (State.writeRecord ty s).schedule = s.schedule := rfl
@[simp] theorem State.writeRecord_draws (ty : Word) :
    (State.writeRecord ty s).draws = s.draws := rfl
@[simp] theorem State.writeRecord_epoch (ty : Word) :
    (State.writeRecord ty s).epoch = s.epoch := rfl
@[simp] theorem State.writeRecord_readData (ty : Word) :
    (State.writeRecord ty s).readData = s.readData := rfl

@[simp] theorem State.storeHeaderByte_params (b : Byte) :
    (State.storeHeaderByte b s).params = s.params := rfl
@[simp] theorem State.storeHeaderByte_eng (b : Byte) :
    (State.storeHeaderByte b s).eng = { s.eng with
      hdrBuf := s.eng.hdrBuf.setIfInBounds s.eng.curOff b } := rfl
@[simp] theorem State.storeHeaderByte_regs (b : Byte) :
    (State.storeHeaderByte b s).regs = s.regs := rfl
@[simp] theorem State.storeHeaderByte_spaces (b : Byte) :
    (State.storeHeaderByte b s).spaces = s.spaces := rfl
@[simp] theorem State.storeHeaderByte_ports (b : Byte) :
    (State.storeHeaderByte b s).ports = s.ports := rfl
@[simp] theorem State.storeHeaderByte_schedule (b : Byte) :
    (State.storeHeaderByte b s).schedule = s.schedule := rfl
@[simp] theorem State.storeHeaderByte_draws (b : Byte) :
    (State.storeHeaderByte b s).draws = s.draws := rfl
@[simp] theorem State.storeHeaderByte_epoch (b : Byte) :
    (State.storeHeaderByte b s).epoch = s.epoch := rfl
@[simp] theorem State.storeHeaderByte_readData (b : Byte) :
    (State.storeHeaderByte b s).readData = s.readData := rfl

@[simp] theorem State.storeIdatByte_params (b : Byte) :
    (State.storeIdatByte b s).params = s.params := rfl
@[simp] theorem State.storeIdatByte_eng (b : Byte) : (State.storeIdatByte b s).eng = s.eng := rfl
@[simp] theorem State.storeIdatByte_regs (b : Byte) :
    (State.storeIdatByte b s).regs = s.regs := rfl
@[simp] theorem State.storeIdatByte_spaces (b : Byte) :
    (State.storeIdatByte b s).spaces = { s.spaces with
      idat := Memory.write s.spaces.idat (s.eng.idatBytes.toNat + s.eng.curOff) b } := rfl
@[simp] theorem State.storeIdatByte_ports (b : Byte) :
    (State.storeIdatByte b s).ports = s.ports := rfl
@[simp] theorem State.storeIdatByte_schedule (b : Byte) :
    (State.storeIdatByte b s).schedule = s.schedule := rfl
@[simp] theorem State.storeIdatByte_draws (b : Byte) :
    (State.storeIdatByte b s).draws = s.draws := rfl
@[simp] theorem State.storeIdatByte_epoch (b : Byte) :
    (State.storeIdatByte b s).epoch = s.epoch := rfl
@[simp] theorem State.storeIdatByte_readData (b : Byte) :
    (State.storeIdatByte b s).readData = s.readData := rfl

@[simp] theorem State.storeTextByte_params (b : Byte) :
    (State.storeTextByte b s).params = s.params := rfl
@[simp] theorem State.storeTextByte_eng (b : Byte) : (State.storeTextByte b s).eng = { s.eng with
      zeroSeen := s.eng.zeroSeen || b == 0#8
      keyLen := if b = 0#8 ∧ s.eng.zeroSeen = false then BitVec.ofNat 32 s.eng.curOff
        else s.eng.keyLen } := rfl
@[simp] theorem State.storeTextByte_regs (b : Byte) :
    (State.storeTextByte b s).regs = s.regs := rfl
@[simp] theorem State.storeTextByte_spaces (b : Byte) :
    (State.storeTextByte b s).spaces = { s.spaces with
      text := Memory.write s.spaces.text (s.eng.textBytes.toNat + s.eng.curOff) b } := rfl
@[simp] theorem State.storeTextByte_ports (b : Byte) :
    (State.storeTextByte b s).ports = s.ports := rfl
@[simp] theorem State.storeTextByte_schedule (b : Byte) :
    (State.storeTextByte b s).schedule = s.schedule := rfl
@[simp] theorem State.storeTextByte_draws (b : Byte) :
    (State.storeTextByte b s).draws = s.draws := rfl
@[simp] theorem State.storeTextByte_epoch (b : Byte) :
    (State.storeTextByte b s).epoch = s.epoch := rfl
@[simp] theorem State.storeTextByte_readData (b : Byte) :
    (State.storeTextByte b s).readData = s.readData := rfl

@[simp] theorem State.storeNothing_params (b : Byte) :
    (State.storeNothing b s).params = s.params := rfl
@[simp] theorem State.storeNothing_eng (b : Byte) : (State.storeNothing b s).eng = s.eng := rfl
@[simp] theorem State.storeNothing_regs (b : Byte) : (State.storeNothing b s).regs = s.regs := rfl
@[simp] theorem State.storeNothing_spaces (b : Byte) :
    (State.storeNothing b s).spaces = s.spaces := rfl
@[simp] theorem State.storeNothing_ports (b : Byte) :
    (State.storeNothing b s).ports = s.ports := rfl
@[simp] theorem State.storeNothing_schedule (b : Byte) :
    (State.storeNothing b s).schedule = s.schedule := rfl
@[simp] theorem State.storeNothing_draws (b : Byte) :
    (State.storeNothing b s).draws = s.draws := rfl
@[simp] theorem State.storeNothing_epoch (b : Byte) :
    (State.storeNothing b s).epoch = s.epoch := rfl
@[simp] theorem State.storeNothing_readData (b : Byte) :
    (State.storeNothing b s).readData = s.readData := rfl

@[simp] theorem State.setExpectedSize_params : (s.setExpectedSize).params = s.params := rfl
@[simp] theorem State.setExpectedSize_eng :
    (s.setExpectedSize).eng = { s.eng with expSize := s.expectedSize } := rfl
@[simp] theorem State.setExpectedSize_regs : (s.setExpectedSize).regs = s.regs := rfl
@[simp] theorem State.setExpectedSize_spaces : (s.setExpectedSize).spaces = s.spaces := rfl
@[simp] theorem State.setExpectedSize_ports : (s.setExpectedSize).ports = s.ports := rfl
@[simp] theorem State.setExpectedSize_schedule : (s.setExpectedSize).schedule = s.schedule := rfl
@[simp] theorem State.setExpectedSize_draws : (s.setExpectedSize).draws = s.draws := rfl
@[simp] theorem State.setExpectedSize_epoch : (s.setExpectedSize).epoch = s.epoch := rfl
@[simp] theorem State.setExpectedSize_readData : (s.setExpectedSize).readData = s.readData := rfl

@[simp] theorem State.issueRequest_params : (s.issueRequest).params = s.params := rfl
@[simp] theorem State.issueRequest_eng :
    (s.issueRequest).eng = { s.eng with phase := .decomp, decPending := true } := rfl
@[simp] theorem State.issueRequest_regs : (s.issueRequest).regs = s.regs := rfl
@[simp] theorem State.issueRequest_spaces : (s.issueRequest).spaces = s.spaces := rfl
@[simp] theorem State.issueRequest_ports : (s.issueRequest).ports = { s.ports with
      request := some ⟨s.readBytes .idat 0 s.eng.idatBytes.toNat, s.eng.expSize⟩
      answer := none } := rfl
@[simp] theorem State.issueRequest_schedule : (s.issueRequest).schedule = s.schedule := rfl
@[simp] theorem State.issueRequest_draws : (s.issueRequest).draws = s.draws := rfl
@[simp] theorem State.issueRequest_epoch : (s.issueRequest).epoch = s.epoch := rfl
@[simp] theorem State.issueRequest_readData : (s.issueRequest).readData = s.readData := rfl

@[simp] theorem State.takeAnswer_params : (s.takeAnswer).params = s.params := rfl
@[simp] theorem State.takeAnswer_eng :
    (s.takeAnswer).eng = { s.eng with decPending := false } := rfl
@[simp] theorem State.takeAnswer_regs : (s.takeAnswer).regs = s.regs := rfl
@[simp] theorem State.takeAnswer_spaces : (s.takeAnswer).spaces = s.spaces := rfl
@[simp] theorem State.takeAnswer_ports :
    (s.takeAnswer).ports = { s.ports with request := none, answer := none } := rfl
@[simp] theorem State.takeAnswer_schedule : (s.takeAnswer).schedule = s.schedule := rfl
@[simp] theorem State.takeAnswer_draws : (s.takeAnswer).draws = s.draws := rfl
@[simp] theorem State.takeAnswer_epoch : (s.takeAnswer).epoch = s.epoch := rfl
@[simp] theorem State.takeAnswer_readData : (s.takeAnswer).readData = s.readData := rfl

@[simp] theorem State.enterFilter_params (d : List Byte) :
    (State.enterFilter d s).params = s.params := rfl
@[simp] theorem State.enterFilter_eng (d : List Byte) :
    (State.enterFilter d s).eng = { s.eng with phase := .filter, row := 0#32, col := 0#32 } := rfl
@[simp] theorem State.enterFilter_regs (d : List Byte) :
    (State.enterFilter d s).regs = s.regs := rfl
@[simp] theorem State.enterFilter_spaces (d : List Byte) :
    (State.enterFilter d s).spaces = { s.spaces with
      decompBuf := Memory.writeList s.spaces.decompBuf 0 d } := rfl
@[simp] theorem State.enterFilter_ports (d : List Byte) :
    (State.enterFilter d s).ports = s.ports := rfl
@[simp] theorem State.enterFilter_schedule (d : List Byte) :
    (State.enterFilter d s).schedule = s.schedule := rfl
@[simp] theorem State.enterFilter_draws (d : List Byte) :
    (State.enterFilter d s).draws = s.draws := rfl
@[simp] theorem State.enterFilter_epoch (d : List Byte) :
    (State.enterFilter d s).epoch = s.epoch := rfl
@[simp] theorem State.enterFilter_readData (d : List Byte) :
    (State.enterFilter d s).readData = s.readData := rfl

@[simp] theorem State.writeRecon_params (v : Byte) :
    (State.writeRecon v s).params = s.params := rfl
@[simp] theorem State.writeRecon_eng (v : Byte) : (State.writeRecon v s).eng = s.eng := rfl
@[simp] theorem State.writeRecon_regs (v : Byte) : (State.writeRecon v s).regs = s.regs := rfl
@[simp] theorem State.writeRecon_spaces (v : Byte) :
    (State.writeRecon v s).spaces = { s.spaces with
      recon := Memory.write s.spaces.recon (s.reconAt s.eng.row.toNat s.eng.col.toNat)
        (s.filtered s.eng.row.toNat s.eng.col.toNat + v) } := rfl
@[simp] theorem State.writeRecon_ports (v : Byte) : (State.writeRecon v s).ports = s.ports := rfl
@[simp] theorem State.writeRecon_schedule (v : Byte) :
    (State.writeRecon v s).schedule = s.schedule := rfl
@[simp] theorem State.writeRecon_draws (v : Byte) : (State.writeRecon v s).draws = s.draws := rfl
@[simp] theorem State.writeRecon_epoch (v : Byte) : (State.writeRecon v s).epoch = s.epoch := rfl
@[simp] theorem State.writeRecon_readData (v : Byte) :
    (State.writeRecon v s).readData = s.readData := rfl

@[simp] theorem State.packPixel_params : (s.packPixel).params = s.params := rfl
@[simp] theorem State.packPixel_eng :
    (s.packPixel).eng = { s.eng with packIdx := s.eng.packIdx + 1 } := rfl
@[simp] theorem State.packPixel_regs : (s.packPixel).regs = s.regs := rfl
@[simp] theorem State.packPixel_spaces : (s.packPixel).spaces = { s.spaces with
      pixel := Memory.write s.spaces.pixel s.eng.packIdx
        (s.packedPixel (s.eng.packIdx % s.width) (s.eng.packIdx / s.width)) } := rfl
@[simp] theorem State.packPixel_ports : (s.packPixel).ports = s.ports := rfl
@[simp] theorem State.packPixel_schedule : (s.packPixel).schedule = s.schedule := rfl
@[simp] theorem State.packPixel_draws : (s.packPixel).draws = s.draws := rfl
@[simp] theorem State.packPixel_epoch : (s.packPixel).epoch = s.epoch := rfl
@[simp] theorem State.packPixel_readData : (s.packPixel).readData = s.readData := rfl

@[simp] theorem State.enterDone_params : (s.enterDone).params = s.params := rfl
@[simp] theorem State.enterDone_eng : (s.enterDone).eng = { s.eng with phase := .done } := rfl
@[simp] theorem State.enterDone_regs : (s.enterDone).regs = { s.regs with
      pixelCount := BitVec.ofNat 32 (s.width * s.height)
      chunkCount := s.eng.chunkCount
      idatBytes := s.eng.idatBytes
      textCount := s.eng.textCount
      textBytes := s.eng.textBytes
      streamPos := sat32 s.eng.pos
      status := statusDone } := rfl
@[simp] theorem State.enterDone_spaces : (s.enterDone).spaces = s.spaces := rfl
@[simp] theorem State.enterDone_ports : (s.enterDone).ports = s.ports := rfl
@[simp] theorem State.enterDone_schedule : (s.enterDone).schedule = s.schedule := rfl
@[simp] theorem State.enterDone_draws : (s.enterDone).draws = s.draws := rfl
@[simp] theorem State.enterDone_epoch : (s.enterDone).epoch = s.epoch := rfl
@[simp] theorem State.enterDone_readData : (s.enterDone).readData = s.readData := rfl

@[simp] theorem State.consume_params (l : List Byte) :
    (State.consume l s).params = s.params := rfl
@[simp] theorem State.consume_eng (l : List Byte) :
    (State.consume l s).eng = { s.eng with pos := s.eng.pos + 1 } := rfl
@[simp] theorem State.consume_regs (l : List Byte) : (State.consume l s).regs = s.regs := rfl
@[simp] theorem State.consume_spaces (l : List Byte) :
    (State.consume l s).spaces = s.spaces := rfl
@[simp] theorem State.consume_ports (l : List Byte) :
    (State.consume l s).ports = { s.ports with stream := l } := rfl
@[simp] theorem State.consume_schedule (l : List Byte) :
    (State.consume l s).schedule = s.schedule := rfl
@[simp] theorem State.consume_draws (l : List Byte) : (State.consume l s).draws = s.draws := rfl
@[simp] theorem State.consume_epoch (l : List Byte) : (State.consume l s).epoch = s.epoch := rfl
@[simp] theorem State.consume_readData (l : List Byte) :
    (State.consume l s).readData = s.readData := rfl

@[simp] theorem State.takeTurn_params : (s.takeTurn).params = s.params := rfl
@[simp] theorem State.takeTurn_eng : (s.takeTurn).eng = s.eng := rfl
@[simp] theorem State.takeTurn_regs : (s.takeTurn).regs = s.regs := rfl
@[simp] theorem State.takeTurn_spaces : (s.takeTurn).spaces = s.spaces := rfl
@[simp] theorem State.takeTurn_ports : (s.takeTurn).ports = s.ports := rfl
@[simp] theorem State.takeTurn_schedule : (s.takeTurn).schedule = s.schedule.tail := rfl
@[simp] theorem State.takeTurn_draws : (s.takeTurn).draws = s.draws := rfl
@[simp] theorem State.takeTurn_epoch : (s.takeTurn).epoch = s.epoch := rfl
@[simp] theorem State.takeTurn_readData : (s.takeTurn).readData = s.readData := rfl

@[simp] theorem State.endStream_params : (s.endStream).params = s.params := rfl
@[simp] theorem State.endStream_eng : (s.endStream).eng = s.eng := rfl
@[simp] theorem State.endStream_regs : (s.endStream).regs = s.regs := rfl
@[simp] theorem State.endStream_spaces : (s.endStream).spaces = s.spaces := rfl
@[simp] theorem State.endStream_ports :
    (s.endStream).ports = { s.ports with streamEnded := true } := rfl
@[simp] theorem State.endStream_schedule : (s.endStream).schedule = s.schedule := rfl
@[simp] theorem State.endStream_draws : (s.endStream).draws = s.draws := rfl
@[simp] theorem State.endStream_epoch : (s.endStream).epoch = s.epoch := rfl
@[simp] theorem State.endStream_readData : (s.endStream).readData = s.readData := rfl

/-! Updates that split on a condition: the parts no branch changes. -/

@[simp] theorem State.presentByte_params (b : Byte) : (State.presentByte b s).params = s.params := by
  unfold State.presentByte; split <;> rfl
@[simp] theorem State.presentByte_eng (b : Byte) : (State.presentByte b s).eng = s.eng := by
  unfold State.presentByte; split <;> rfl
@[simp] theorem State.presentByte_regs (b : Byte) : (State.presentByte b s).regs = s.regs := by
  unfold State.presentByte; split <;> rfl
@[simp] theorem State.presentByte_spaces (b : Byte) : (State.presentByte b s).spaces = s.spaces := by
  unfold State.presentByte; split <;> rfl
@[simp] theorem State.presentByte_schedule (b : Byte) : (State.presentByte b s).schedule = s.schedule := by
  unfold State.presentByte; split <;> rfl
@[simp] theorem State.presentByte_draws (b : Byte) : (State.presentByte b s).draws = s.draws := by
  unfold State.presentByte; split <;> rfl
@[simp] theorem State.presentByte_epoch (b : Byte) : (State.presentByte b s).epoch = s.epoch := by
  unfold State.presentByte; split <;> rfl
@[simp] theorem State.presentByte_readData (b : Byte) : (State.presentByte b s).readData = s.readData := by
  unfold State.presentByte; split <;> rfl

@[simp] theorem State.decompressorAnswers_params : (s.decompressorAnswers).params = s.params := by
  unfold State.decompressorAnswers; split <;> rfl
@[simp] theorem State.decompressorAnswers_eng : (s.decompressorAnswers).eng = s.eng := by
  unfold State.decompressorAnswers; split <;> rfl
@[simp] theorem State.decompressorAnswers_regs : (s.decompressorAnswers).regs = s.regs := by
  unfold State.decompressorAnswers; split <;> rfl
@[simp] theorem State.decompressorAnswers_spaces : (s.decompressorAnswers).spaces = s.spaces := by
  unfold State.decompressorAnswers; split <;> rfl
@[simp] theorem State.decompressorAnswers_schedule : (s.decompressorAnswers).schedule = s.schedule := by
  unfold State.decompressorAnswers; split <;> rfl
@[simp] theorem State.decompressorAnswers_draws : (s.decompressorAnswers).draws = s.draws := by
  unfold State.decompressorAnswers; split <;> rfl
@[simp] theorem State.decompressorAnswers_epoch : (s.decompressorAnswers).epoch = s.epoch := by
  unfold State.decompressorAnswers; split <;> rfl
@[simp] theorem State.decompressorAnswers_readData : (s.decompressorAnswers).readData = s.readData := by
  unfold State.decompressorAnswers; split <;> rfl

@[simp] theorem State.advance_params : (s.advance).params = s.params := by
  unfold State.advance
  repeat' split
  all_goals rfl
@[simp] theorem State.advance_regs : (s.advance).regs = s.regs := by
  unfold State.advance
  repeat' split
  all_goals rfl
@[simp] theorem State.advance_spaces : (s.advance).spaces = s.spaces := by
  unfold State.advance
  repeat' split
  all_goals rfl
@[simp] theorem State.advance_ports : (s.advance).ports = s.ports := by
  unfold State.advance
  repeat' split
  all_goals rfl
@[simp] theorem State.advance_schedule : (s.advance).schedule = s.schedule := by
  unfold State.advance
  repeat' split
  all_goals rfl
@[simp] theorem State.advance_draws : (s.advance).draws = s.draws := by
  unfold State.advance
  repeat' split
  all_goals rfl
@[simp] theorem State.advance_epoch : (s.advance).epoch = s.epoch := by
  unfold State.advance
  repeat' split
  all_goals rfl
@[simp] theorem State.advance_readData : (s.advance).readData = s.readData := by
  unfold State.advance
  repeat' split
  all_goals rfl

@[simp] theorem State.afterChunk_params (ty : Word) : (State.afterChunk ty s).params = s.params := by
  unfold State.afterChunk; split <;> rfl
@[simp] theorem State.afterChunk_regs (ty : Word) : (State.afterChunk ty s).regs = s.regs := by
  unfold State.afterChunk; split <;> rfl
@[simp] theorem State.afterChunk_spaces (ty : Word) : (State.afterChunk ty s).spaces = s.spaces := by
  unfold State.afterChunk; split <;> rfl
@[simp] theorem State.afterChunk_ports (ty : Word) : (State.afterChunk ty s).ports = s.ports := by
  unfold State.afterChunk; split <;> rfl
@[simp] theorem State.afterChunk_schedule (ty : Word) : (State.afterChunk ty s).schedule = s.schedule := by
  unfold State.afterChunk; split <;> rfl
@[simp] theorem State.afterChunk_draws (ty : Word) : (State.afterChunk ty s).draws = s.draws := by
  unfold State.afterChunk; split <;> rfl
@[simp] theorem State.afterChunk_epoch (ty : Word) : (State.afterChunk ty s).epoch = s.epoch := by
  unfold State.afterChunk; split <;> rfl
@[simp] theorem State.afterChunk_readData (ty : Word) : (State.afterChunk ty s).readData = s.readData := by
  unfold State.afterChunk; split <;> rfl

@[simp] theorem State.commitType_params (ty : Word) : (State.commitType ty s).params = s.params := by
  unfold State.commitType
  repeat' split
  all_goals rfl
@[simp] theorem State.commitType_regs (ty : Word) : (State.commitType ty s).regs = s.regs := by
  unfold State.commitType
  repeat' split
  all_goals rfl
@[simp] theorem State.commitType_ports (ty : Word) : (State.commitType ty s).ports = s.ports := by
  unfold State.commitType
  repeat' split
  all_goals rfl
@[simp] theorem State.commitType_schedule (ty : Word) : (State.commitType ty s).schedule = s.schedule := by
  unfold State.commitType
  repeat' split
  all_goals rfl
@[simp] theorem State.commitType_draws (ty : Word) : (State.commitType ty s).draws = s.draws := by
  unfold State.commitType
  repeat' split
  all_goals rfl
@[simp] theorem State.commitType_epoch (ty : Word) : (State.commitType ty s).epoch = s.epoch := by
  unfold State.commitType
  repeat' split
  all_goals rfl
@[simp] theorem State.commitType_readData (ty : Word) : (State.commitType ty s).readData = s.readData := by
  unfold State.commitType
  repeat' split
  all_goals rfl

@[simp] theorem State.deliver_params (a : HostAddr) (v : Option Word) :
    (State.deliver a v s).params = s.params := by
  unfold State.deliver; split <;> rfl
@[simp] theorem State.deliver_eng (a : HostAddr) (v : Option Word) :
    (State.deliver a v s).eng = s.eng := by
  unfold State.deliver; split <;> rfl
@[simp] theorem State.deliver_regs (a : HostAddr) (v : Option Word) :
    (State.deliver a v s).regs = s.regs := by
  unfold State.deliver; split <;> rfl
@[simp] theorem State.deliver_spaces (a : HostAddr) (v : Option Word) :
    (State.deliver a v s).spaces = s.spaces := by
  unfold State.deliver; split <;> rfl
@[simp] theorem State.deliver_ports (a : HostAddr) (v : Option Word) :
    (State.deliver a v s).ports = s.ports := by
  unfold State.deliver; split <;> rfl
@[simp] theorem State.deliver_schedule (a : HostAddr) (v : Option Word) :
    (State.deliver a v s).schedule = s.schedule := by
  unfold State.deliver; split <;> rfl
@[simp] theorem State.deliver_epoch (a : HostAddr) (v : Option Word) :
    (State.deliver a v s).epoch = s.epoch := by
  unfold State.deliver; split <;> rfl

end Sys2Proof.Machine
end

