-- ==== Sys2Proof/Laws/Ops.lean ====
section
/-! SUPPORT. One lemma per shared operation: the byte order, the stream port, error entry, the type
checks, and what each step of a chunk can do. -/

namespace Sys2Proof.Machine

/-! ## Byte order -/

/-- Four bytes make a big-endian field whatever stood there before (20_memory.md R61). -/
theorem appendByte_four (w : Word) (b0 b1 b2 b3 : Byte) :
    appendByte (appendByte (appendByte (appendByte w b0) b1) b2) b3 = b0 ++ b1 ++ b2 ++ b3 := by
  apply BitVec.eq_of_getLsbD_eq
  intro i hi
  simp only [appendByte, BitVec.getLsbD_append, BitVec.getLsbD_setWidth]
  have e1 : i - 8 < 24 := by omega
  have e2 : i - 8 - 8 < 24 := by omega
  have e3 : i - 8 - 8 - 8 < 24 := by omega
  by_cases h1 : i < 8
  · simp [h1]
  by_cases h2 : i - 8 < 8
  · simp [h1, h2, e1]
  by_cases h3 : i - 8 - 8 < 8
  · simp [h1, h2, h3, e1, e2]
  have h4 : i - 8 - 8 - 8 < 8 := by omega
  simp [h1, h2, h3, h4, e1, e2, e3]

theorem appendByte_eq_extract (w : Word) (b : Byte) :
    appendByte w b = w.extractLsb' 0 24 ++ b := by
  apply BitVec.eq_of_getLsbD_eq
  intro i hi
  simp only [appendByte, BitVec.getLsbD_append, BitVec.getLsbD_setWidth, BitVec.getLsbD_extractLsb']
  simp

/-- A byte zero-extended to 32 bits (00_scope.md R10). -/
theorem setWidth_eq_append (b : Byte) : b.setWidth 32 = 0#24 ++ b := by
  apply BitVec.eq_of_getLsbD_eq
  intro i hi
  simp only [BitVec.getLsbD_append, BitVec.getLsbD_setWidth, BitVec.getLsbD_zero]
  by_cases h : i < 8
  · simp [h, hi]
  · simp [h, BitVec.getLsbD_of_ge b i (by omega)]

/-! ## Unspecified reads -/

/-- HDR_ILACE's reserved bits read 0 whatever is drawn (10_state.md R52). -/
@[simp] theorem unspecifiedValue_ilace (w : Word) :
    unspecifiedValue (.reg 0x30) w = 0#24 ++ w.extractLsb' 0 8 := by
  rw [unspecifiedValue, if_pos rfl, setWidth_eq_append]

/-- Every other unspecified read is free in all its bits (R50). -/
theorem unspecifiedValue_other {a : HostAddr} (h : a ≠ .reg 0x30) (w : Word) :
    unspecifiedValue a w = w := if_neg h

/-! ## Header bytes and big-endian fields -/

/-- A header byte is stored at its own place (40_container_parser.md R105). -/
theorem hdrBuf_setIfInBounds {v : Vector Byte 13} {k : Nat} {b : Byte} (h : k < 13) :
    v.setIfInBounds k b = v.set k b h := by
  ext i hi
  simp [Vector.getElem_setIfInBounds, Vector.getElem_set]

theorem be32_eq_append (b0 b1 b2 b3 : Byte) : be32 b0 b1 b2 b3 = b0 ++ b1 ++ b2 ++ b3 :=
  appendByte_four 0#32 b0 b1 b2 b3

/-- The four bytes of a value, most significant first, assemble to it. -/
theorem extract_append (w : Word) :
    w.extractLsb' 24 8 ++ w.extractLsb' 16 8 ++ w.extractLsb' 8 8 ++ w.extractLsb' 0 8 = w := by
  apply BitVec.eq_of_getLsbD_eq
  intro i hi
  simp only [BitVec.getLsbD_append, BitVec.getLsbD_extractLsb']
  by_cases h1 : i < 8
  · simp [h1]
  by_cases h2 : i - 8 < 8
  · have : 8 + (i - 8) = i := by omega
    simp [h1, h2, this]
  by_cases h3 : i - 8 - 8 < 8
  · have : 16 + (i - 8 - 8) = i := by omega
    simp [h1, h2, h3, this]
  have h4 : i - 8 - 8 - 8 < 8 := by omega
  have : 24 + (i - 8 - 8 - 8) = i := by omega
  simp [h1, h2, h3, h4, this]

@[simp] theorem be32Bytes_length (w : Word) : (be32Bytes w).length = 4 := rfl

end Sys2Proof.Machine
end

