-- ==== Sys2Proof/Laws/Parser.lean ====
section
/-! SUPPORT. What the parser's shared operations can do: the stream port by cases, the type checks as the
facts they establish, and each step of a chunk by the point it has reached. -/

namespace Sys2Proof.Machine

variable {s : State}

/-! ## The stream port -/

theorem nextByte_cons {b : Byte} {rest : List Byte} (h : s.ports.stream = b :: rest) :
    s.nextByte = .byte b (State.consume rest s) := by
  simp [State.nextByte, h]

theorem nextByte_ended (h : s.ports.stream = []) (he : s.ports.streamEnded = true) :
    s.nextByte = .ended := by
  simp [State.nextByte, h, he]

theorem nextByte_stalled (h : s.ports.stream = []) (he : s.ports.streamEnded = false) :
    s.nextByte = .stalled := by
  simp [State.nextByte, h, he]

/-- ReadByte by cases (00_scope.md R11): a byte, the end of the stream, or a wait. -/
theorem nextByte_cases (s : State) :
    (∃ b rest, s.ports.stream = b :: rest ∧ s.nextByte = .byte b (State.consume rest s)) ∨
    (s.ports.stream = [] ∧ s.ports.streamEnded = true ∧ s.nextByte = .ended) ∨
    (s.ports.stream = [] ∧ s.ports.streamEnded = false ∧ s.nextByte = .stalled) := by
  match h : s.ports.stream with
  | b :: rest => exact .inl ⟨b, rest, rfl, nextByte_cons h⟩
  | [] =>
    cases he : s.ports.streamEnded with
    | true => exact .inr (.inl ⟨rfl, rfl, nextByte_ended h he⟩)
    | false => exact .inr (.inr ⟨rfl, rfl, nextByte_stalled h he⟩)

/-! ## The type checks -/

/-- What the type checks have established when none of them raises (R104, R108). -/
structure ChecksPass (s : State) (ty : Word) : Prop where
  first : s.eng.chunkCount.toNat = 0 ↔ ty = codeIHDR
  ihdr : ty = codeIHDR → s.eng.curLen.toNat = 13
  iend : ty = codeIEND → s.eng.curLen.toNat = 0
  chunks : s.eng.chunkCount.toNat + 1 ≤ s.params.maxChunks.toNat
  idat : ty = codeIDAT →
    s.eng.idatBytes.toNat + s.eng.curLen.toNat ≤ s.params.maxIdatBytes.toNat
  text : ty = codeTEXt →
    s.eng.textBytes.toNat + s.eng.curLen.toNat + 1 ≤ s.params.maxTextBytes.toNat

/-- The type checks raise nothing exactly where all they ask for holds. -/
theorem typeChecks_none_iff {ty : Word} : s.typeChecks ty = none ↔ ChecksPass s ty := by
  unfold State.typeChecks
  constructor
  · intro h
    split at h
    · cases h
    · split at h
      · cases h
      · split at h
        · cases h
        · split at h
          · cases h
          · split at h
            · cases h
            · split at h
              · cases h
              · split at h
                · cases h
                · rename_i h1 h2 h3 h4 h5 h6 h7
                  refine ⟨⟨fun h0 => ?_, fun ht => ?_⟩, fun ht => ?_, fun ht => ?_, by omega,
                    fun ht => ?_, fun ht => ?_⟩
                  · by_contra hne; exact h1 ⟨h0, hne⟩
                  · by_contra hne; exact h2 ⟨by omega, ht⟩
                  · by_contra hne; exact h3 ⟨ht, hne⟩
                  · by_contra hne; exact h4 ⟨ht, hne⟩
                  · by_contra hne; exact h6 ⟨ht, by omega⟩
                  · by_contra hne; exact h7 ⟨ht, by omega⟩
  · intro h
    rw [if_neg (fun c => c.2 (h.first.1 c.1)),
      if_neg (fun c => by have := h.first.2 c.2; omega), if_neg (fun c => c.2 (h.ihdr c.1)),
      if_neg (fun c => c.2 (h.iend c.1)), if_neg (by have := h.chunks; omega),
      if_neg (fun c => by have := h.idat c.1; omega),
      if_neg (fun c => by have := h.text c.1; omega)]

/-- The type checks never raise the code 0. -/
theorem typeChecks_ne_none {ty : Word} {k : ErrKind} (h : s.typeChecks ty = some k) :
    k ≠ .none := by
  unfold State.typeChecks at h
  repeat' split at h
  all_goals cases h
  all_goals decide

/-! ## The steps of a chunk -/

theorem chunkStep_payload {ty : Word} {store : Byte → State → State} {c : State → State}
    (h : s.eng.phase = .payload) : State.chunkStep ty store c s = State.payloadStep store c s := by
  simp [State.chunkStep, h]

theorem chunkStep_crc {ty : Word} {store : Byte → State → State} {c : State → State}
    (h : s.eng.phase = .crc) : State.chunkStep ty store c s = State.crcStep ty s := by
  simp [State.chunkStep, h]

theorem chunkStep_type {ty : Word} {store : Byte → State → State} {c : State → State}
    (h : s.eng.phase = .type) : State.chunkStep ty store c s = State.typeCompletion ty c s := by
  simp [State.chunkStep, h]

/-- Type completion with every check passed (R103). -/
theorem typeCompletion_pass {ty : Word} {c : State → State} (h : ChecksPass s ty) :
    State.typeCompletion ty c s =
      if 0 < s.eng.curLen.toNat then s.setPhase .payload else c s := by
  rw [State.typeCompletion, typeChecks_none_iff.2 h]

/-- Type completion with a failed check (R104). -/
theorem typeCompletion_raise {ty : Word} {c : State → State} {k : ErrKind}
    (h : s.typeChecks ty = some k) : State.typeCompletion ty c s = s.raiseAtChunk k := by
  rw [State.typeCompletion, h]

/-- The state after one stored payload byte: `cur_off` counts it (R105, R109, R110). -/
def State.countByte (s : State) : State :=
  { s with eng := { s.eng with curOff := s.eng.curOff + 1 } }

/-- A payload byte: stored and counted, and after the last one the payload's completion. -/
theorem payloadStep_cons {store : Byte → State → State} {c : State → State} {b : Byte}
    {rest : List Byte} (h : s.ports.stream = b :: rest) :
    State.payloadStep store c s =
      if (store b (State.consume rest s)).eng.curLen.toNat ≤
          (store b (State.consume rest s)).eng.curOff + 1 then
        c (State.countByte (store b (State.consume rest s)))
      else State.countByte (store b (State.consume rest s)) := by
  simp only [State.payloadStep, nextByte_cons h]
  rfl

/-- A payload byte of an IHDR (R105). -/
theorem headerStep_cons {c : State → State} {b : Byte} {rest : List Byte}
    (h : s.ports.stream = b :: rest) :
    State.payloadStep State.storeHeaderByte c s =
      if s.eng.curLen.toNat ≤ s.eng.curOff + 1 then
        c (State.countByte (State.storeHeaderByte b (State.consume rest s)))
      else State.countByte (State.storeHeaderByte b (State.consume rest s)) :=
  payloadStep_cons h

/-- A payload byte of an IDAT (R109). -/
theorem idatStep_cons {c : State → State} {b : Byte} {rest : List Byte}
    (h : s.ports.stream = b :: rest) :
    State.payloadStep State.storeIdatByte c s =
      if s.eng.curLen.toNat ≤ s.eng.curOff + 1 then
        c (State.countByte (State.storeIdatByte b (State.consume rest s)))
      else State.countByte (State.storeIdatByte b (State.consume rest s)) :=
  payloadStep_cons h

/-- A payload byte of a tEXt (R110). -/
theorem textStep_cons {c : State → State} {b : Byte} {rest : List Byte}
    (h : s.ports.stream = b :: rest) :
    State.payloadStep State.storeTextByte c s =
      if s.eng.curLen.toNat ≤ s.eng.curOff + 1 then
        c (State.countByte (State.storeTextByte b (State.consume rest s)))
      else State.countByte (State.storeTextByte b (State.consume rest s)) :=
  payloadStep_cons h

theorem payloadStep_ended {store : Byte → State → State} {c : State → State}
    (h : s.ports.stream = []) (he : s.ports.streamEnded = true) :
    State.payloadStep store c s = s.raiseTruncated := by
  simp [State.payloadStep, nextByte_ended h he]

theorem payloadStep_stalled {store : Byte → State → State} {c : State → State}
    (h : s.ports.stream = []) (he : s.ports.streamEnded = false) :
    State.payloadStep store c s = s := by
  simp [State.payloadStep, nextByte_stalled h he, State.wait]

/-- The state after one byte of the CRC field (R111). -/
def State.takeCrcByte (b : Byte) (s : State) : State :=
  { s with eng := { s.eng with
      curCrc := appendByte s.eng.curCrc b, fldK := s.eng.fldK + 1 } }

/-- A byte of the CRC field: collected, and after the fourth the chunk's completion. -/
theorem crcStep_cons {ty : Word} {b : Byte} {rest : List Byte}
    (h : s.ports.stream = b :: rest) :
    State.crcStep ty s =
      if 3 ≤ s.eng.fldK then
        State.chunkComplete ty (State.takeCrcByte b (State.consume rest s))
      else State.takeCrcByte b (State.consume rest s) := by
  simp only [State.crcStep, nextByte_cons h]
  have : (4 ≤ s.eng.fldK + 1) = (3 ≤ s.eng.fldK) := propext ⟨by omega, by omega⟩
  simp only [State.consume_eng, this]
  rfl

theorem crcStep_ended {ty : Word} (h : s.ports.stream = []) (he : s.ports.streamEnded = true) :
    State.crcStep ty s = s.raiseTruncated := by
  simp [State.crcStep, nextByte_ended h he]

theorem crcStep_stalled {ty : Word} (h : s.ports.stream = [])
    (he : s.ports.streamEnded = false) : State.crcStep ty s = s := by
  simp [State.crcStep, nextByte_stalled h he, State.wait]

theorem lengthStep_cons {b : Byte} {rest : List Byte} (h : s.ports.stream = b :: rest) :
    s.lengthStep = { State.consume rest s with eng := { s.eng with
      pos := s.eng.pos + 1
      curLen := appendByte s.eng.curLen b
      fldK := if 3 ≤ s.eng.fldK then 0 else s.eng.fldK + 1
      phase := if 3 ≤ s.eng.fldK then .type else .len } } := by
  simp only [State.lengthStep, nextByte_cons h]
  rfl

theorem lengthStep_ended (h : s.ports.stream = []) (he : s.ports.streamEnded = true) :
    s.lengthStep = s.raiseTruncated := by
  simp [State.lengthStep, nextByte_ended h he]

theorem lengthStep_stalled (h : s.ports.stream = []) (he : s.ports.streamEnded = false) :
    s.lengthStep = s := by
  simp [State.lengthStep, nextByte_stalled h he, State.wait]

theorem typeStep_cons {b : Byte} {rest : List Byte} (h : s.ports.stream = b :: rest) :
    s.typeStep = { State.consume rest s with eng := { s.eng with
      pos := s.eng.pos + 1
      curType := appendByte s.eng.curType b
      fldK := s.eng.fldK + 1 } } := by
  simp only [State.typeStep, nextByte_cons h]
  rfl

theorem typeStep_ended (h : s.ports.stream = []) (he : s.ports.streamEnded = true) :
    s.typeStep = s.raiseTruncated := by
  simp [State.typeStep, nextByte_ended h he]

theorem typeStep_stalled (h : s.ports.stream = []) (he : s.ports.streamEnded = false) :
    s.typeStep = s := by
  simp [State.typeStep, nextByte_stalled h he, State.wait]

/-! ## The signature -/

theorem matchSignature_same {b : Byte} :
    State.matchSignature b b s =
      if 7 ≤ s.eng.sigK then
        State.chunkBoundary { s with eng := { s.eng with sigK := s.eng.sigK + 1 } }
      else { s with eng := { s.eng with sigK := s.eng.sigK + 1 } } := by
  have : (8 ≤ s.eng.sigK + 1) = (7 ≤ s.eng.sigK) := propext ⟨by omega, by omega⟩
  simp only [State.matchSignature, this, ↓reduceIte]

theorem matchSignature_differs {want got : Byte} (h : got ≠ want) :
    State.matchSignature want got s = s.raiseSignature (s.eng.pos - 1) := by
  simp [State.matchSignature, h]

/-- A matching byte before the eighth (R100). -/
theorem matchSignature_next {b : Byte} (h : s.eng.sigK < 7) :
    State.matchSignature b b s = { s with eng := { s.eng with sigK := s.eng.sigK + 1 } } := by
  rw [matchSignature_same, if_neg (by omega)]

/-- The eighth matching byte (R100). -/
theorem matchSignature_last {b : Byte} (h : s.eng.sigK = 7) :
    State.matchSignature b b s =
      State.chunkBoundary { s with eng := { s.eng with sigK := s.eng.sigK + 1 } } := by
  rw [matchSignature_same, if_pos (by omega)]

theorem execSignature_cons {want got : Byte} {rest : List Byte}
    (hw : signatureList[s.eng.sigK]? = some want) (h : s.ports.stream = got :: rest) :
    execSignature s = .next (State.matchSignature want got (State.consume rest s)) := by
  simp [execSignature, hw, nextByte_cons h]

theorem execSignature_ended {want : Byte} (hw : signatureList[s.eng.sigK]? = some want)
    (h : s.ports.stream = []) (he : s.ports.streamEnded = true) :
    execSignature s = .next (s.raiseSignature s.eng.pos) := by
  simp [execSignature, hw, nextByte_ended h he]

theorem execSignature_stalled {want : Byte} (hw : signatureList[s.eng.sigK]? = some want)
    (h : s.ports.stream = []) (he : s.ports.streamEnded = false) :
    execSignature s = .next s := by
  simp [execSignature, hw, nextByte_stalled h he, State.wait]

theorem signatureList_length : signatureList.length = 8 := rfl

end Sys2Proof.Machine
end

