-- ==== Sys2Proof/Laws/Step.lean ====
section
/-! SUPPORT. What a step can be: the one inversion of step, what it does on the engine's turn, and the
composition of runs. -/

namespace Sys2Proof.Machine

/-! ## Runs -/

theorem Runs.zero (s : State) : Runs 0 s s := rfl

theorem runs_zero_iff {s t : State} : Runs 0 s t ↔ s = t := by
  constructor
  · intro h; cases h; rfl
  · rintro rfl; rfl

/-- One step more of a machine that runs, whatever the machine. -/
theorem core_run_succ_iff (M : Host.Core) (n : Nat) (s t : M.State) :
    M.run (n + 1) s = .next t ↔ ∃ u, M.step s = .next u ∧ M.run n u = .next t := by
  simp only [Host.Core.run]
  split <;> simp_all

theorem runs_succ_iff {n : Nat} {s t : State} :
    Runs (n + 1) s t ↔ ∃ u, step s = .next u ∧ Runs n u t :=
  core_run_succ_iff Sys2Proof.core n s t

theorem Runs.succ {n : Nat} {s u t : State} (h : step s = .next u) (h' : Runs n u t) :
    Runs (n + 1) s t := runs_succ_iff.2 ⟨u, h, h'⟩

/-- Two runs in a row are one run. -/
theorem Runs.trans {m n : Nat} {s u t : State} (h : Runs m s u) (h' : Runs n u t) :
    Runs (m + n) s t := by
  induction m generalizing s with
  | zero => rw [runs_zero_iff] at h; subst h; simpa using h'
  | succ m ih =>
    obtain ⟨v, hv, h⟩ := runs_succ_iff.1 h
    rw [Nat.add_right_comm]
    exact Runs.succ hv (ih h)

theorem Runs.single {s t : State} (h : step s = .next t) : Runs 1 s t := Runs.succ h (Runs.zero t)

/-! ## The engine's turn -/

theorem engineTurn_of_quiet {s : State} (h : s.schedule = []) : s.engineTurn := by
  simp [State.engineTurn, State.nextEvent, h]

theorem engineTurn_of_cons {s : State} {r : List Event} (h : s.schedule = .engine :: r) :
    s.engineTurn := by
  simp [State.engineTurn, State.nextEvent, h]

theorem takeTurn_of_quiet {s : State} (h : s.schedule = []) : s.takeTurn = s := by
  cases s; simp_all [State.takeTurn]

theorem fetch_of_engineTurn {s : State} (h : s.engineTurn) : s.fetch = s.engineInstr := by
  unfold State.engineTurn State.nextEvent at h
  unfold State.fetch
  match hs : s.schedule with
  | [] => rfl
  | e :: r =>
    rw [hs] at h
    simp only [List.headD_cons] at h
    subst h
    rfl

/-- On the engine's turn a step runs the engine's instruction, or does what the engine does without
one. -/
theorem step_of_engineTurn {s : State} (h : s.engineTurn) :
    step s = match s.engineInstr with
      | some i => exec i s.takeTurn
      | none => .next s.takeTurn.engineOther := by
  unfold step
  rw [fetch_of_engineTurn h]
  cases s.engineInstr with
  | some i => rfl
  | none =>
    show otherStep s.nextEvent s.takeTurn = _
    rw [show s.nextEvent = .engine from h]
    rfl

theorem step_engine_instr {s : State} {i : Instr} (h : s.engineTurn)
    (hi : s.engineInstr = some i) : step s = exec i s.takeTurn := by
  rw [step_of_engineTurn h, hi]

theorem step_engine_other {s : State} (h : s.engineTurn) (hi : s.engineInstr = none) :
    step s = .next s.takeTurn.engineOther := by
  rw [step_of_engineTurn h, hi]

/-- The engine's instruction does not depend on the schedule. -/
@[simp] theorem engineInstr_takeTurn (s : State) : s.takeTurn.engineInstr = s.engineInstr := rfl

theorem engineInstr_sig {s : State} (h : s.eng.phase = .sig) :
    s.engineInstr = some .signature := by
  simp [State.engineInstr, State.engineStage, h]

theorem engineInstr_len {s : State} (h : s.eng.phase = .len) : s.engineInstr = none := by
  simp [State.engineInstr, State.engineStage, State.engineCode, fetchCode, h]

theorem engineInstr_type_other {s : State} (h : s.eng.phase = .type) (hk : s.eng.fldK ≠ 4) :
    s.engineInstr = none := by
  simp [State.engineInstr, State.engineStage, State.engineCode, fetchCode, h, hk]

/-- From its type completion to its end a chunk runs the instruction its code decodes to. -/
theorem engineInstr_chunk {s : State}
    (h : (s.eng.phase = .type ∧ s.eng.fldK = 4) ∨ s.eng.phase = .payload ∨ s.eng.phase = .crc) :
    s.engineInstr = some (decodeTypeCode s.eng.curType) := by
  rcases h with ⟨h, hk⟩ | h | h
  · simp [State.engineInstr, State.engineStage, State.engineCode, fetchCode, decode, h, hk]
  · simp [State.engineInstr, State.engineStage, State.engineCode, fetchCode, decode, h]
  · simp [State.engineInstr, State.engineStage, State.engineCode, fetchCode, decode, h]

theorem engineInstr_filter {s : State} (h : s.eng.phase = .filter) :
    s.engineInstr = some (decodeFilterByte s.filterByte) := by
  simp [State.engineInstr, State.engineStage, State.engineCode, fetchCode, decode, h]

theorem engineInstr_method {s : State} (h : s.eng.phase = .check) (hs : s.eng.stage = .method) :
    s.engineInstr = some .methodCheck := by
  simp [State.engineInstr, State.engineStage, h, hs]

theorem engineInstr_size {s : State} (h : s.eng.phase = .check) (hs : s.eng.stage = .size) :
    s.engineInstr = some .size := by
  simp [State.engineInstr, State.engineStage, h, hs]

theorem engineInstr_decompress {s : State}
    (h : (s.eng.phase = .check ∧ s.eng.stage = .request) ∨ s.eng.phase = .decomp) :
    s.engineInstr = some .decompress := by
  rcases h with ⟨h, hs⟩ | h
  · simp [State.engineInstr, State.engineStage, h, hs]
  · simp [State.engineInstr, State.engineStage, h]

theorem engineInstr_pack {s : State} (h : s.eng.phase = .pack) : s.engineInstr = some .pack := by
  simp [State.engineInstr, State.engineStage, h]

theorem engineInstr_rest {s : State}
    (h : s.eng.phase = .idle ∨ s.eng.phase = .done ∨ s.eng.phase = .error) :
    s.engineInstr = none := by
  rcases h with h | h | h <;>
    simp [State.engineInstr, State.engineStage, State.engineCode, fetchCode, h]

/-! ## The events at the block's boundary -/

/-- A read does not depend on the schedule. -/
@[simp] theorem hostValue_takeTurn (s : State) (a : HostAddr) :
    s.takeTurn.hostValue a = s.hostValue a := by cases a <;> rfl

theorem takeTurn_of_cons {s : State} {e : Event} {r : List Event} (h : s.schedule = e :: r) :
    s.takeTurn = { s with schedule := r } := by simp [State.takeTurn, h]

theorem step_hostRead {s : State} {a : HostAddr} {n : Nat} {r : List Event}
    (h : s.schedule = .hostRead a n :: r) : step s = hostRead a n s.takeTurn := by
  simp [step, State.fetch, h, State.nextEvent, otherStep]

/-- A host write that carries no command is ignored or refused (42_host_commands.md R165). -/
theorem step_hostWrite_ignored {s : State} {a : HostAddr} {n : Nat} {v : Word} {r : List Event}
    (h : s.schedule = .hostWrite a n v :: r) (hc : fetchCode (ctrlCode a n v) = none) :
    step s = hostWriteIgnored a n s.takeTurn := by
  simp [step, State.fetch, h, State.nextEvent, otherStep, hc]

/-- A CTRL write that carries a command runs it (30_encoding.md R94). -/
theorem step_ctrl {s : State} {v : Word} {i : Instr} {r : List Event}
    (h : s.schedule = .hostWrite (.reg 0x00) 4 v :: r) (hd : decodeCtrl v = .ok i) :
    step s = exec i s.takeTurn := by
  simp [step, State.fetch, h, ctrlCode, fetchCode, decode, hd]

theorem step_streamByte {s : State} {b : Byte} {r : List Event}
    (h : s.schedule = .streamByte b :: r) : step s = .next (s.takeTurn.presentByte b) := by
  simp [step, State.fetch, h, State.nextEvent, otherStep]

theorem step_endOfStream {s : State} {r : List Event} (h : s.schedule = .endOfStream :: r) :
    step s = .next s.takeTurn.endStream := by
  simp [step, State.fetch, h, State.nextEvent, otherStep]

theorem step_decompressorAnswers {s : State} {r : List Event}
    (h : s.schedule = .decompressorAnswers :: r) :
    step s = .next s.takeTurn.decompressorAnswers := by
  simp [step, State.fetch, h, State.nextEvent, otherStep]

theorem step_powerOnReset {s : State} {r : List Event} (h : s.schedule = .powerOnReset :: r) :
    step s = .next s.takeTurn.resetBlock := by
  simp [step, State.fetch, h, State.nextEvent, otherStep]

/-! ## The inversion of step -/

/-- What runs on the engine's turn, by the phase: the instruction of each place, with the conditions under
which the engine stands there. -/
inductive EngineRuns (s : State) : Instr → Prop where
  | signature (h : s.eng.phase = .sig) : EngineRuns s .signature
  | chunk (h : (s.eng.phase = .type ∧ s.eng.fldK = 4) ∨ s.eng.phase = .payload ∨
      s.eng.phase = .crc) : EngineRuns s (decodeTypeCode s.eng.curType)
  | methodCheck (h : s.eng.phase = .check) (hs : s.eng.stage = .method) :
      EngineRuns s .methodCheck
  | size (h : s.eng.phase = .check) (hs : s.eng.stage = .size) : EngineRuns s .size
  | decompress (h : (s.eng.phase = .check ∧ s.eng.stage = .request) ∨ s.eng.phase = .decomp) :
      EngineRuns s .decompress
  | filter (h : s.eng.phase = .filter) : EngineRuns s (decodeFilterByte s.filterByte)
  | pack (h : s.eng.phase = .pack) : EngineRuns s .pack

theorem engineRuns_of_instr {s : State} {i : Instr} (h : s.engineInstr = some i) :
    EngineRuns s i := by
  cases hp : s.eng.phase with
  | idle => rw [engineInstr_rest (.inl hp)] at h; cases h
  | sig => rw [engineInstr_sig hp] at h; cases h; exact .signature hp
  | len => rw [engineInstr_len hp] at h; cases h
  | type =>
    by_cases hk : s.eng.fldK = 4
    · rw [engineInstr_chunk (.inl ⟨hp, hk⟩)] at h; cases h; exact .chunk (.inl ⟨hp, hk⟩)
    · rw [engineInstr_type_other hp hk] at h; cases h
  | payload =>
    rw [engineInstr_chunk (.inr (.inl hp))] at h; cases h; exact .chunk (.inr (.inl hp))
  | crc => rw [engineInstr_chunk (.inr (.inr hp))] at h; cases h; exact .chunk (.inr (.inr hp))
  | check =>
    cases hs : s.eng.stage with
    | method => rw [engineInstr_method hp hs] at h; cases h; exact .methodCheck hp hs
    | size => rw [engineInstr_size hp hs] at h; cases h; exact .size hp hs
    | request =>
      rw [engineInstr_decompress (.inl ⟨hp, hs⟩)] at h; cases h; exact .decompress (.inl ⟨hp, hs⟩)
  | decomp => rw [engineInstr_decompress (.inr hp)] at h; cases h; exact .decompress (.inr hp)
  | filter => rw [engineInstr_filter hp] at h; cases h; exact .filter hp
  | pack => rw [engineInstr_pack hp] at h; cases h; exact .pack hp
  | done => rw [engineInstr_rest (.inr (.inl hp))] at h; cases h
  | error => rw [engineInstr_rest (.inr (.inr hp))] at h; cases h

/-- Where the engine takes a turn without an instruction. -/
theorem engineOther_cases {s : State} (h : s.engineInstr = none) :
    (s.eng.phase = .len ∧ s.engineOther = s.lengthStep) ∨
    (s.eng.phase = .type ∧ s.eng.fldK ≠ 4 ∧ s.engineOther = s.typeStep) ∨
    ((s.eng.phase = .idle ∨ s.eng.phase = .done ∨ s.eng.phase = .error) ∧ s.engineOther = s) := by
  cases hp : s.eng.phase with
  | len => exact .inl ⟨rfl, by simp [State.engineOther, hp]⟩
  | type =>
    by_cases hk : s.eng.fldK = 4
    · rw [engineInstr_chunk (.inl ⟨hp, hk⟩)] at h; cases h
    · exact .inr (.inl ⟨rfl, hk, by simp [State.engineOther, hp]⟩)
  | idle => exact .inr (.inr ⟨.inl rfl, by simp [State.engineOther, State.wait, hp]⟩)
  | done => exact .inr (.inr ⟨.inr (.inl rfl), by simp [State.engineOther, State.wait, hp]⟩)
  | error => exact .inr (.inr ⟨.inr (.inr rfl), by simp [State.engineOther, State.wait, hp]⟩)
  | sig => rw [engineInstr_sig hp] at h; cases h
  | payload => rw [engineInstr_chunk (.inr (.inl hp))] at h; cases h
  | crc => rw [engineInstr_chunk (.inr (.inr hp))] at h; cases h
  | check =>
    cases hs : s.eng.stage with
    | method => rw [engineInstr_method hp hs] at h; cases h
    | size => rw [engineInstr_size hp hs] at h; cases h
    | request => rw [engineInstr_decompress (.inl ⟨hp, hs⟩)] at h; cases h
  | decomp => rw [engineInstr_decompress (.inr hp)] at h; cases h
  | filter => rw [engineInstr_filter hp] at h; cases h
  | pack => rw [engineInstr_pack hp] at h; cases h

/-- What a step that gives a next state has done, `u` being the state with the event taken: the engine has
run an instruction or framed a chunk, the host has written a command, or an event has only changed a
port, the read data or everything (a reset), or nothing. -/
inductive Stepped (u t : State) : Prop where
  | instr (i : Instr) (h : EngineRuns u i) (e : exec i u = .next t)
  | lengthByte (h : u.eng.phase = .len) (e : t = u.lengthStep)
  | typeByte (h : u.eng.phase = .type) (hk : u.eng.fldK ≠ 4) (e : t = u.typeStep)
  | start (h : u.regs.busy = false) (e : t = u.start)
  | reset (e : t = u.resetBlock)
  | read (a : HostAddr) (v : Option Word) (e : t = u.deliver a v)
  | streamByte (b : Byte) (e : t = u.presentByte b)
  | endOfStream (e : t = u.endStream)
  | answered (e : t = u.decompressorAnswers)
  | nothing (e : t = u)

theorem fetchCode_ctrl {a : HostAddr} {n : Nat} {v : Word} {i : Instr}
    (h : fetchCode (ctrlCode a n v) = some i) :
    a = .reg 0x00 ∧ n = 4 ∧ decodeCtrl v = .ok i := by
  unfold ctrlCode at h
  split at h
  · rename_i ha
    refine ⟨ha.1, ha.2, ?_⟩
    simp only [fetchCode, decode] at h
    split at h
    · rename_i hd; cases h; exact hd
    · cases h
  · cases h

theorem decodeCtrl_cases {v : Word} {i : Instr} (h : decodeCtrl v = .ok i) :
    (∃ r, i = .cmdStart r) ∨ (∃ b r, i = .cmdSoftReset b r) := by
  unfold decodeCtrl at h
  split at h
  · cases h; exact .inr ⟨_, _, rfl⟩
  · split at h
    · cases h; exact .inl ⟨_, rfl⟩
    · cases h

/-- The one inversion of step. -/
theorem step_cases {s t : State} (h : step s = .next t) : Stepped s.takeTurn t := by
  by_cases hE : s.engineTurn
  · cases hi : s.engineInstr with
    | some i =>
      rw [step_engine_instr hE hi] at h
      exact .instr i (engineRuns_of_instr (by simpa using hi)) h
    | none =>
      rw [step_engine_other hE hi] at h
      cases h
      rcases engineOther_cases (s := s.takeTurn) (by simpa using hi) with
        ⟨hp, e⟩ | ⟨hp, hk, e⟩ | ⟨-, e⟩
      · exact .lengthByte hp e
      · exact .typeByte hp hk e
      · exact .nothing e
  · match hs : s.schedule with
    | [] => exact absurd (engineTurn_of_quiet hs) hE
    | .engine :: r => exact absurd (engineTurn_of_cons hs) hE
    | .hostWrite a n v :: r =>
      have hf : s.fetch = fetchCode (ctrlCode a n v) := by simp [State.fetch, hs]
      have hn : s.nextEvent = .hostWrite a n v := by simp [State.nextEvent, hs]
      unfold step at h
      rw [hf, hn] at h
      cases hc : fetchCode (ctrlCode a n v) with
      | some i =>
        rw [hc] at h
        rcases decodeCtrl_cases (fetchCode_ctrl hc).2.2 with ⟨q, rfl⟩ | ⟨b, q, rfl⟩
        · simp only [exec, execCmdStart] at h
          split at h
          · cases h; exact .nothing rfl
          · rename_i hb
            cases h; exact .start (by simpa using hb) rfl
        · cases h; exact .reset rfl
      | none =>
        rw [hc] at h
        simp only [otherStep, hostWriteIgnored] at h
        split at h
        · cases h
        · cases h; exact .nothing rfl
    | .hostRead a n :: r =>
      have hf : s.fetch = none := by simp [State.fetch, hs]
      have hn : s.nextEvent = .hostRead a n := by simp [State.nextEvent, hs]
      unfold step at h
      rw [hf, hn] at h
      simp only [otherStep, hostRead] at h
      split at h
      · cases h
      · cases h; exact .read _ _ rfl
    | .streamByte b :: r =>
      have hf : s.fetch = none := by simp [State.fetch, hs]
      have hn : s.nextEvent = .streamByte b := by simp [State.nextEvent, hs]
      unfold step at h
      rw [hf, hn] at h
      cases h; exact .streamByte b rfl
    | .endOfStream :: r =>
      have hf : s.fetch = none := by simp [State.fetch, hs]
      have hn : s.nextEvent = .endOfStream := by simp [State.nextEvent, hs]
      unfold step at h
      rw [hf, hn] at h
      cases h; exact .endOfStream rfl
    | .decompressorAnswers :: r =>
      have hf : s.fetch = none := by simp [State.fetch, hs]
      have hn : s.nextEvent = .decompressorAnswers := by simp [State.nextEvent, hs]
      unfold step at h
      rw [hf, hn] at h
      cases h; exact .answered rfl
    | .powerOnReset :: r =>
      have hf : s.fetch = none := by simp [State.fetch, hs]
      have hn : s.nextEvent = .powerOnReset := by simp [State.nextEvent, hs]
      unfold step at h
      rw [hf, hn] at h
      cases h; exact .reset rfl

end Sys2Proof.Machine
end

