-- ==== Sys2Proof/Laws/Moves.lean ====
section
/-! SUPPORT. Every move of the engine, said once: from where it is made, under which conditions, and what
it leaves, in the terms of the shared operations. -/

namespace Sys2Proof.Machine

/-- One payload byte put where the chunk in hand puts it (R105, R109, R110). -/
def State.storeByte (b : Byte) (s : State) : State :=
  if s.eng.curType = codeIHDR then State.storeHeaderByte b s
  else if s.eng.curType = codeIDAT then State.storeIdatByte b s
  else if s.eng.curType = codeTEXt then State.storeTextByte b s
  else s

/-- One signature byte matched (R100). -/
def State.countSig (s : State) : State :=
  { s with eng := { s.eng with sigK := s.eng.sigK + 1 } }

/-- The header registers of a completed IHDR payload (R106). -/
def State.setHeader (s : State) : State :=
  { s with
    eng := { s.eng with hdrValid := true }
    regs := { s.regs with
      hdrWidth := s.eng.ihdrWidth
      hdrHeight := s.eng.ihdrHeight
      hdrFmt := s.eng.ihdrFmt
      hdrIlace := s.eng.ihdrIlace } }

/-- The state after a payload byte has been taken, stored and counted. -/
def State.takePayloadByte (b : Byte) (rest : List Byte) (s : State) : State :=
  State.countByte (State.storeByte b (State.consume rest s))

/-! ## What a stored payload byte leaves -/

section
variable (s : State) (b : Byte) (rest : List Byte)

@[simp] theorem State.storeByte_params : (State.storeByte b s).params = s.params := by
  unfold State.storeByte; repeat' split
  all_goals rfl
@[simp] theorem State.storeByte_regs : (State.storeByte b s).regs = s.regs := by
  unfold State.storeByte; repeat' split
  all_goals rfl
@[simp] theorem State.storeByte_ports : (State.storeByte b s).ports = s.ports := by
  unfold State.storeByte; repeat' split
  all_goals rfl
@[simp] theorem State.storeByte_schedule : (State.storeByte b s).schedule = s.schedule := by
  unfold State.storeByte; repeat' split
  all_goals rfl
@[simp] theorem State.storeByte_draws : (State.storeByte b s).draws = s.draws := by
  unfold State.storeByte; repeat' split
  all_goals rfl
@[simp] theorem State.storeByte_epoch : (State.storeByte b s).epoch = s.epoch := by
  unfold State.storeByte; repeat' split
  all_goals rfl
@[simp] theorem State.storeByte_readData : (State.storeByte b s).readData = s.readData := by
  unfold State.storeByte; repeat' split
  all_goals rfl
@[simp] theorem State.storeByte_phase : (State.storeByte b s).eng.phase = s.eng.phase := by
  unfold State.storeByte; repeat' split
  all_goals rfl
@[simp] theorem State.storeByte_pos : (State.storeByte b s).eng.pos = s.eng.pos := by
  unfold State.storeByte; repeat' split
  all_goals rfl
@[simp] theorem State.storeByte_sigK : (State.storeByte b s).eng.sigK = s.eng.sigK := by
  unfold State.storeByte; repeat' split
  all_goals rfl
@[simp] theorem State.storeByte_fldK : (State.storeByte b s).eng.fldK = s.eng.fldK := by
  unfold State.storeByte; repeat' split
  all_goals rfl
@[simp] theorem State.storeByte_curStart : (State.storeByte b s).eng.curStart = s.eng.curStart := by
  unfold State.storeByte; repeat' split
  all_goals rfl
@[simp] theorem State.storeByte_curLen : (State.storeByte b s).eng.curLen = s.eng.curLen := by
  unfold State.storeByte; repeat' split
  all_goals rfl
@[simp] theorem State.storeByte_curType : (State.storeByte b s).eng.curType = s.eng.curType := by
  unfold State.storeByte; repeat' split
  all_goals rfl
@[simp] theorem State.storeByte_curCrc : (State.storeByte b s).eng.curCrc = s.eng.curCrc := by
  unfold State.storeByte; repeat' split
  all_goals rfl
@[simp] theorem State.storeByte_curOff : (State.storeByte b s).eng.curOff = s.eng.curOff := by
  unfold State.storeByte; repeat' split
  all_goals rfl
@[simp] theorem State.storeByte_chunkCount : (State.storeByte b s).eng.chunkCount = s.eng.chunkCount := by
  unfold State.storeByte; repeat' split
  all_goals rfl
@[simp] theorem State.storeByte_idatBytes : (State.storeByte b s).eng.idatBytes = s.eng.idatBytes := by
  unfold State.storeByte; repeat' split
  all_goals rfl
@[simp] theorem State.storeByte_textCount : (State.storeByte b s).eng.textCount = s.eng.textCount := by
  unfold State.storeByte; repeat' split
  all_goals rfl
@[simp] theorem State.storeByte_textBytes : (State.storeByte b s).eng.textBytes = s.eng.textBytes := by
  unfold State.storeByte; repeat' split
  all_goals rfl
@[simp] theorem State.storeByte_hdrValid : (State.storeByte b s).eng.hdrValid = s.eng.hdrValid := by
  unfold State.storeByte; repeat' split
  all_goals rfl
@[simp] theorem State.storeByte_expSize : (State.storeByte b s).eng.expSize = s.eng.expSize := by
  unfold State.storeByte; repeat' split
  all_goals rfl
@[simp] theorem State.storeByte_row : (State.storeByte b s).eng.row = s.eng.row := by
  unfold State.storeByte; repeat' split
  all_goals rfl
@[simp] theorem State.storeByte_col : (State.storeByte b s).eng.col = s.eng.col := by
  unfold State.storeByte; repeat' split
  all_goals rfl
@[simp] theorem State.storeByte_decPending : (State.storeByte b s).eng.decPending = s.eng.decPending := by
  unfold State.storeByte; repeat' split
  all_goals rfl
@[simp] theorem State.storeByte_err : (State.storeByte b s).eng.err = s.eng.err := by
  unfold State.storeByte; repeat' split
  all_goals rfl
@[simp] theorem State.storeByte_stage : (State.storeByte b s).eng.stage = s.eng.stage := by
  unfold State.storeByte; repeat' split
  all_goals rfl
@[simp] theorem State.storeByte_packIdx : (State.storeByte b s).eng.packIdx = s.eng.packIdx := by
  unfold State.storeByte; repeat' split
  all_goals rfl

@[simp] theorem State.takePayloadByte_params :
    (State.takePayloadByte b rest s).params = s.params := by simp [State.takePayloadByte, State.countByte]
@[simp] theorem State.takePayloadByte_regs :
    (State.takePayloadByte b rest s).regs = s.regs := by simp [State.takePayloadByte, State.countByte]
@[simp] theorem State.takePayloadByte_schedule :
    (State.takePayloadByte b rest s).schedule = s.schedule := by simp [State.takePayloadByte, State.countByte]
@[simp] theorem State.takePayloadByte_draws :
    (State.takePayloadByte b rest s).draws = s.draws := by simp [State.takePayloadByte, State.countByte]
@[simp] theorem State.takePayloadByte_epoch :
    (State.takePayloadByte b rest s).epoch = s.epoch := by simp [State.takePayloadByte, State.countByte]
@[simp] theorem State.takePayloadByte_readData :
    (State.takePayloadByte b rest s).readData = s.readData := by simp [State.takePayloadByte, State.countByte]
@[simp] theorem State.takePayloadByte_ports :
    (State.takePayloadByte b rest s).ports = { s.ports with stream := rest } := by
  simp [State.takePayloadByte, State.countByte]
@[simp] theorem State.takePayloadByte_phase :
    (State.takePayloadByte b rest s).eng.phase = s.eng.phase := by
  simp [State.takePayloadByte, State.countByte]
@[simp] theorem State.takePayloadByte_pos :
    (State.takePayloadByte b rest s).eng.pos = s.eng.pos + 1 := by
  simp [State.takePayloadByte, State.countByte]
@[simp] theorem State.takePayloadByte_sigK :
    (State.takePayloadByte b rest s).eng.sigK = s.eng.sigK := by
  simp [State.takePayloadByte, State.countByte]
@[simp] theorem State.takePayloadByte_fldK :
    (State.takePayloadByte b rest s).eng.fldK = s.eng.fldK := by
  simp [State.takePayloadByte, State.countByte]
@[simp] theorem State.takePayloadByte_curStart :
    (State.takePayloadByte b rest s).eng.curStart = s.eng.curStart := by
  simp [State.takePayloadByte, State.countByte]
@[simp] theorem State.takePayloadByte_curLen :
    (State.takePayloadByte b rest s).eng.curLen = s.eng.curLen := by
  simp [State.takePayloadByte, State.countByte]
@[simp] theorem State.takePayloadByte_curType :
    (State.takePayloadByte b rest s).eng.curType = s.eng.curType := by
  simp [State.takePayloadByte, State.countByte]
@[simp] theorem State.takePayloadByte_curCrc :
    (State.takePayloadByte b rest s).eng.curCrc = s.eng.curCrc := by
  simp [State.takePayloadByte, State.countByte]
@[simp] theorem State.takePayloadByte_curOff :
    (State.takePayloadByte b rest s).eng.curOff = s.eng.curOff + 1 := by
  simp [State.takePayloadByte, State.countByte]
@[simp] theorem State.takePayloadByte_chunkCount :
    (State.takePayloadByte b rest s).eng.chunkCount = s.eng.chunkCount := by
  simp [State.takePayloadByte, State.countByte]
@[simp] theorem State.takePayloadByte_idatBytes :
    (State.takePayloadByte b rest s).eng.idatBytes = s.eng.idatBytes := by
  simp [State.takePayloadByte, State.countByte]
@[simp] theorem State.takePayloadByte_textCount :
    (State.takePayloadByte b rest s).eng.textCount = s.eng.textCount := by
  simp [State.takePayloadByte, State.countByte]
@[simp] theorem State.takePayloadByte_textBytes :
    (State.takePayloadByte b rest s).eng.textBytes = s.eng.textBytes := by
  simp [State.takePayloadByte, State.countByte]
@[simp] theorem State.takePayloadByte_hdrValid :
    (State.takePayloadByte b rest s).eng.hdrValid = s.eng.hdrValid := by
  simp [State.takePayloadByte, State.countByte]
@[simp] theorem State.takePayloadByte_expSize :
    (State.takePayloadByte b rest s).eng.expSize = s.eng.expSize := by
  simp [State.takePayloadByte, State.countByte]
@[simp] theorem State.takePayloadByte_row :
    (State.takePayloadByte b rest s).eng.row = s.eng.row := by
  simp [State.takePayloadByte, State.countByte]
@[simp] theorem State.takePayloadByte_col :
    (State.takePayloadByte b rest s).eng.col = s.eng.col := by
  simp [State.takePayloadByte, State.countByte]
@[simp] theorem State.takePayloadByte_decPending :
    (State.takePayloadByte b rest s).eng.decPending = s.eng.decPending := by
  simp [State.takePayloadByte, State.countByte]
@[simp] theorem State.takePayloadByte_err :
    (State.takePayloadByte b rest s).eng.err = s.eng.err := by
  simp [State.takePayloadByte, State.countByte]
@[simp] theorem State.takePayloadByte_stage :
    (State.takePayloadByte b rest s).eng.stage = s.eng.stage := by
  simp [State.takePayloadByte, State.countByte]
@[simp] theorem State.takePayloadByte_packIdx :
    (State.takePayloadByte b rest s).eng.packIdx = s.eng.packIdx := by
  simp [State.takePayloadByte, State.countByte]

end

/-- The moves of the engine from `s`. -/
inductive Moved (s : State) : State → Prop where
  | wait : Moved s s
  | raise (k : ErrKind) (o : Nat) (i : Word) (hk : k ≠ .none) (hb : s.eng.phase.busy = true)
      (hd : s.eng.phase ≠ .decomp) : Moved s (s.raise k o i)
  | sigEnd (h : s.eng.phase = .sig) (hk : 8 ≤ s.eng.sigK) : Moved s s.chunkBoundary
  | sigByte (h : s.eng.phase = .sig) (hk : s.eng.sigK < 7) (b : Byte) (rest : List Byte)
      (hs : s.ports.stream = b :: rest) : Moved s (State.consume rest s).countSig
  | sigLast (h : s.eng.phase = .sig) (hk : s.eng.sigK = 7) (b : Byte) (rest : List Byte)
      (hs : s.ports.stream = b :: rest) : Moved s (State.consume rest s).countSig.chunkBoundary
  | sigRaise (h : s.eng.phase = .sig) (b : Byte) (rest : List Byte)
      (hs : s.ports.stream = b :: rest) (o : Nat) (i : Word) :
      Moved s (State.raise .invalidSignature o i (State.consume rest s))
  | lenByte (h : s.eng.phase = .len) (b : Byte) (rest : List Byte)
      (hs : s.ports.stream = b :: rest) :
      Moved s { State.consume rest s with eng := { s.eng with
        pos := s.eng.pos + 1
        curLen := appendByte s.eng.curLen b
        fldK := if 3 ≤ s.eng.fldK then 0 else s.eng.fldK + 1
        phase := if 3 ≤ s.eng.fldK then .type else .len } }
  | typeByte (h : s.eng.phase = .type) (hk : s.eng.fldK ≠ 4) (b : Byte) (rest : List Byte)
      (hs : s.ports.stream = b :: rest) :
      Moved s { State.consume rest s with eng := { s.eng with
        pos := s.eng.pos + 1
        curType := appendByte s.eng.curType b
        fldK := s.eng.fldK + 1 } }
  | payloadBegins (h : s.eng.phase = .type) (hk : s.eng.fldK = 4)
      (hty : s.eng.curType ∈ knownCodes) (hc : ChecksPass s s.eng.curType)
      (hl : 0 < s.eng.curLen.toNat) : Moved s (State.setPhase .payload s)
  | payloadEmpty (h : s.eng.phase = .type) (hk : s.eng.fldK = 4)
      (hty : s.eng.curType ∈ knownCodes) (hc : ChecksPass s s.eng.curType)
      (hl : s.eng.curLen.toNat = 0) (hz : s.eng.curType = codeTEXt → s.eng.zeroSeen = true) :
      Moved s s.enterCrc
  | payloadByte (h : s.eng.phase = .payload) (hty : s.eng.curType ∈ knownCodes) (b : Byte)
      (rest : List Byte) (hs : s.ports.stream = b :: rest)
      (hl : s.eng.curOff + 1 < s.eng.curLen.toNat) : Moved s (State.takePayloadByte b rest s)
  | payloadRaise (h : s.eng.phase = .payload) (hty : s.eng.curType ∈ knownCodes) (b : Byte)
      (rest : List Byte) (hs : s.ports.stream = b :: rest) (o : Nat) (i : Word) :
      Moved s (State.raise .malformedChunk o i (State.takePayloadByte b rest s))
  | payloadLast (h : s.eng.phase = .payload) (hty : s.eng.curType ∈ knownCodes)
      (hne : s.eng.curType ≠ codeIHDR) (b : Byte) (rest : List Byte)
      (hs : s.ports.stream = b :: rest) (hl : s.eng.curLen.toNat ≤ s.eng.curOff + 1) :
      Moved s (State.takePayloadByte b rest s).enterCrc
  | headerLast (h : s.eng.phase = .payload) (hty : s.eng.curType = codeIHDR) (b : Byte)
      (rest : List Byte) (hs : s.ports.stream = b :: rest)
      (hl : s.eng.curLen.toNat ≤ s.eng.curOff + 1)
      (hw : (State.takePayloadByte b rest s).eng.ihdrWidth ≠ 0#32)
      (hh : (State.takePayloadByte b rest s).eng.ihdrHeight ≠ 0#32) :
      Moved s (State.takePayloadByte b rest s).setHeader.enterCrc
  | crcByte (h : s.eng.phase = .crc) (hty : s.eng.curType ∈ knownCodes) (b : Byte)
      (rest : List Byte) (hs : s.ports.stream = b :: rest) (hk : s.eng.fldK < 3) :
      Moved s (State.takeCrcByte b (State.consume rest s))
  | crcLast (h : s.eng.phase = .crc) (hty : s.eng.curType ∈ knownCodes) (b : Byte)
      (rest : List Byte) (hs : s.ports.stream = b :: rest) (hk : 3 ≤ s.eng.fldK) :
      Moved s (State.chunkComplete s.eng.curType (State.takeCrcByte b (State.consume rest s)))
  | methodsZero (h : s.eng.phase = .check) (hs : s.eng.stage = .method)
      (hc : s.regs.compression = 0#8) (hf : s.regs.filterMethod = 0#8) :
      Moved s { s with eng := { s.eng with stage := .size } }
  | sizeRaise (h : s.eng.phase = .check) (hs : s.eng.stage = .size)
      (hl : s.params.maxReconBytes.toNat < s.expectedSize) :
      Moved s (State.raise .capacityExceeded s.eng.pos 0#32 s.setExpectedSize)
  | sizeFits (h : s.eng.phase = .check) (hs : s.eng.stage = .size)
      (hl : s.expectedSize ≤ s.params.maxReconBytes.toNat) :
      Moved s { s with
        eng := { s.eng with expSize := s.expectedSize, stage := .request }
        regs := { s.regs with expSize := BitVec.ofNat 32 s.expectedSize } }
  | request (h : (s.eng.phase = .check ∧ s.eng.stage = .request) ∨ s.eng.phase = .decomp)
      (hp : s.eng.decPending = false) : Moved s s.issueRequest
  | answerRaise (h : (s.eng.phase = .check ∧ s.eng.stage = .request) ∨ s.eng.phase = .decomp)
      (hp : s.eng.decPending = true) :
      Moved s (State.raise .decompressionFailed s.eng.pos 0#32 s.takeAnswer)
  | answer (h : (s.eng.phase = .check ∧ s.eng.stage = .request) ∨ s.eng.phase = .decomp)
      (hp : s.eng.decPending = true) (d : List Byte) (ha : s.ports.answer = some (some d))
      (hd : d.length = s.eng.expSize) : Moved s (State.enterFilter d s.takeAnswer)
  | recon (h : s.eng.phase = .filter) (p : Byte) : Moved s (State.reconstruct p s)
  | pixel (h : s.eng.phase = .pack) (hn : s.eng.packIdx < s.width * s.height) :
      Moved s s.packPixel
  | done (h : s.eng.phase = .pack) (hn : s.width * s.height ≤ s.eng.packIdx) :
      Moved s s.enterDone

theorem busy_of_phase {s : State} {p : Phase} (h : s.eng.phase = p) (hp : p.busy = true) :
    s.eng.phase.busy = true := by rw [h]; exact hp

/-- A byte of the length field. -/
theorem moved_lengthStep {s : State} (h : s.eng.phase = .len) : Moved s s.lengthStep := by
  rcases nextByte_cases s with ⟨b, rest, hs, -⟩ | ⟨hs, he, -⟩ | ⟨hs, he, -⟩
  · rw [lengthStep_cons hs]; exact .lenByte h b rest hs
  · rw [lengthStep_ended hs he]; exact .raise _ _ _ (by decide) (by rw [h]; rfl) (by simp [h])
  · rw [lengthStep_stalled hs he]; exact .wait

/-- A byte of the type field. -/
theorem moved_typeStep {s : State} (h : s.eng.phase = .type) (hk : s.eng.fldK ≠ 4) :
    Moved s s.typeStep := by
  rcases nextByte_cases s with ⟨b, rest, hs, -⟩ | ⟨hs, he, -⟩ | ⟨hs, he, -⟩
  · rw [typeStep_cons hs]; exact .typeByte h hk b rest hs
  · rw [typeStep_ended hs he]; exact .raise _ _ _ (by decide) (by rw [h]; rfl) (by simp [h])
  · rw [typeStep_stalled hs he]; exact .wait

theorem moved_signature {s t : State} (h : s.eng.phase = .sig)
    (e : exec .signature s = .next t) : Moved s t := by
  change execSignature s = .next t at e
  cases hw : signatureList[s.eng.sigK]? with
  | none =>
    have : 8 ≤ s.eng.sigK := by simpa [signatureList_length] using hw
    simp only [execSignature, hw] at e
    cases e; exact .sigEnd h this
  | some want =>
    have hlt : s.eng.sigK < 8 := by
      have := (List.getElem?_eq_some_iff.1 hw).1
      simpa [signatureList_length] using this
    rcases nextByte_cases s with ⟨b, rest, hs, -⟩ | ⟨hs, he, -⟩ | ⟨hs, he, -⟩
    · rw [execSignature_cons hw hs] at e
      cases e
      by_cases hb : b = want
      · subst hb
        rw [matchSignature_same]
        split
        · rename_i h7
          simp only [State.consume_eng] at h7
          exact .sigLast h (by omega) b rest hs
        · rename_i h7
          simp only [State.consume_eng] at h7
          exact .sigByte h (by omega) b rest hs
      · rw [matchSignature_differs hb]
        exact .sigRaise h b rest hs _ _
    · rw [execSignature_ended hw hs he] at e
      cases e; exact .raise _ _ _ (by decide) (by rw [h]; rfl) (by simp [h])
    · rw [execSignature_stalled hw hs he] at e
      cases e; exact .wait

/-- The chunk step of a recognised code, given what its own parts do. -/
theorem moved_chunkStep {s : State} {ty : Word} {store : Byte → State → State}
    {c : State → State} (hty : s.eng.curType = ty) (hk : ty ∈ knownCodes)
    (hp : (s.eng.phase = .type ∧ s.eng.fldK = 4) ∨ s.eng.phase = .payload ∨ s.eng.phase = .crc)
    (hstore : ∀ b rest, store b (State.consume rest s) = State.storeByte b (State.consume rest s))
    (hempty : s.eng.phase = .type → ChecksPass s ty → s.eng.curLen.toNat = 0 → Moved s (c s))
    (hlast : ∀ b rest, s.eng.phase = .payload → s.ports.stream = b :: rest →
      s.eng.curLen.toNat ≤ s.eng.curOff + 1 → Moved s (c (State.takePayloadByte b rest s))) :
    Moved s (State.chunkStep ty store c s) := by
  subst hty
  rcases hp with ⟨h, hf⟩ | h | h
  · rw [chunkStep_type h]
    unfold State.typeCompletion
    split
    · rename_i k hc
      exact .raise _ _ _ (typeChecks_ne_none hc) (by rw [h]; rfl) (by simp [h])
    · rename_i hc
      rw [typeChecks_none_iff] at hc
      split
      · rename_i hl; exact .payloadBegins h hf hk hc hl
      · exact hempty h hc (by omega)
  · rw [chunkStep_payload h]
    rcases nextByte_cases s with ⟨b, rest, hs, -⟩ | ⟨hs, he, -⟩ | ⟨hs, he, -⟩
    · rw [payloadStep_cons hs, hstore]
      have e1 : (State.storeByte b (State.consume rest s)).eng.curLen = s.eng.curLen := by
        unfold State.storeByte; repeat' split
        all_goals rfl
      have e2 : (State.storeByte b (State.consume rest s)).eng.curOff = s.eng.curOff := by
        unfold State.storeByte; repeat' split
        all_goals rfl
      rw [e1, e2]
      split
      · rename_i hl; exact hlast b rest h hs hl
      · rename_i hl; exact .payloadByte h hk b rest hs (by omega)
    · rw [payloadStep_ended hs he]
      exact .raise _ _ _ (by decide) (by rw [h]; rfl) (by simp [h])
    · rw [payloadStep_stalled hs he]; exact .wait
  · rw [chunkStep_crc h]
    rcases nextByte_cases s with ⟨b, rest, hs, -⟩ | ⟨hs, he, -⟩ | ⟨hs, he, -⟩
    · rw [crcStep_cons hs]
      split
      · rename_i h3; exact .crcLast h hk b rest hs h3
      · rename_i h3; exact .crcByte h hk b rest hs (by omega)
    · rw [crcStep_ended hs he]
      exact .raise _ _ _ (by decide) (by rw [h]; rfl) (by simp [h])
    · rw [crcStep_stalled hs he]; exact .wait

theorem moved_chunk {s t : State}
    (h : (s.eng.phase = .type ∧ s.eng.fldK = 4) ∨ s.eng.phase = .payload ∨ s.eng.phase = .crc)
    (e : exec (decodeTypeCode s.eng.curType) s = .next t) : Moved s t := by
  have hb : s.eng.phase.busy = true ∧ s.eng.phase ≠ .decomp := by
    rcases h with ⟨h, -⟩ | h | h <;> simp [h, Phase.busy]
  rcases decodeTypeCode_cases s.eng.curType with ⟨hty, d⟩ | ⟨hty, d⟩ | ⟨hty, d⟩ | ⟨hty, d⟩ | ⟨-, d⟩
  · rw [d] at e
    change Host.Outcome.next _ = _ at e
    cases e
    refine moved_chunkStep hty (by decide) h (fun b rest => ?_) (fun ht hc hl => ?_)
      (fun b rest hp hs hl => ?_)
    · simp [State.storeByte, hty]
    · have := hc.ihdr rfl; omega
    · unfold State.ihdrComplete
      split
      · exact .payloadRaise hp (by rw [hty]; decide) b rest hs _ _
      · rename_i hwh
        rw [not_or] at hwh
        exact .headerLast hp hty b rest hs hl hwh.1 hwh.2
  · rw [d] at e
    change Host.Outcome.next _ = _ at e
    cases e
    refine moved_chunkStep hty (by decide) h (fun b rest => ?_) (fun ht hc hl => ?_)
      (fun b rest hp hs hl => ?_)
    · simp [State.storeByte, hty, codeIDAT_ne_codeIHDR]
    · rcases h with ⟨-, hf⟩ | h | h
      · exact .payloadEmpty ht hf (by rw [hty]; decide) (by rw [hty]; exact hc) hl
          (by simp [hty, codeIDAT_ne_codeTEXt])
      · simp [h] at ht
      · simp [h] at ht
    · exact .payloadLast hp (by rw [hty]; decide) (by rw [hty]; decide) b rest hs hl
  · rw [d] at e
    change Host.Outcome.next _ = _ at e
    cases e
    refine moved_chunkStep hty (by decide) h (fun b rest => ?_) (fun ht hc hl => ?_)
      (fun b rest hp hs hl => ?_)
    · simp [State.storeByte, hty, codeTEXt_ne_codeIHDR, codeTEXt_ne_codeIDAT]
    · unfold State.textComplete
      split
      · rename_i hz
        rcases h with ⟨-, hf⟩ | h | h
        · exact .payloadEmpty ht hf (by rw [hty]; decide) (by rw [hty]; exact hc) hl
            (fun _ => hz)
        · simp [h] at ht
        · simp [h] at ht
      · exact .raise _ _ _ (by decide) hb.1 hb.2
    · unfold State.textComplete
      split
      · exact .payloadLast hp (by rw [hty]; decide) (by rw [hty]; decide) b rest hs hl
      · exact .payloadRaise hp (by rw [hty]; decide) b rest hs _ _
  · rw [d] at e
    change Host.Outcome.next _ = _ at e
    cases e
    refine moved_chunkStep hty (by decide) h (fun b rest => ?_) (fun ht hc hl => ?_)
      (fun b rest hp hs hl => ?_)
    · simp [State.storeByte, hty, codeIEND_ne_codeIHDR, codeIEND_ne_codeIDAT,
        codeIEND_ne_codeTEXt, State.storeNothing]
    · rcases h with ⟨-, hf⟩ | h | h
      · exact .payloadEmpty ht hf (by rw [hty]; decide) (by rw [hty]; exact hc) hl
          (by simp [hty, codeIEND_ne_codeTEXt])
      · simp [h] at ht
      · simp [h] at ht
    · exact .payloadLast hp (by rw [hty]; decide) (by rw [hty]; decide) b rest hs hl
  · rw [d] at e
    change Host.Outcome.next _ = _ at e
    cases e
    exact .raise _ _ _ (by decide) hb.1 hb.2

theorem moved_decompress {s t : State}
    (h : (s.eng.phase = .check ∧ s.eng.stage = .request) ∨ s.eng.phase = .decomp)
    (e : exec .decompress s = .next t) : Moved s t := by
  change execDecompress s = .next t at e
  unfold execDecompress at e
  split at e
  · rename_i hp
    split at e
    · cases e; exact .wait
    · rename_i r ha
      cases e
      cases r with
      | none => exact .answerRaise h hp
      | some d =>
        by_cases hd : d.length = s.eng.expSize
        · rw [show State.decompCheck (some d) s.takeAnswer = State.enterFilter d s.takeAnswer from
            if_pos hd]
          exact .answer h hp d ha hd
        · rw [show State.decompCheck (some d) s.takeAnswer =
            State.raiseAtEnd .decompressionFailed s.takeAnswer from if_neg hd]
          exact .answerRaise h hp
  · rename_i hp
    cases e; exact .request h (by simpa using hp)

theorem moved_filter {s t : State} (h : s.eng.phase = .filter)
    (e : exec (decodeFilterByte s.filterByte) s = .next t) : Moved s t := by
  rcases decodeFilterByte_cases s.filterByte with ⟨-, d⟩ | ⟨-, d⟩ | ⟨-, d⟩ | ⟨-, d⟩ | ⟨-, d⟩ | ⟨-, d⟩
  all_goals rw [d] at e; change Host.Outcome.next _ = _ at e; cases e
  · exact .recon h _
  · exact .recon h _
  · exact .recon h _
  · exact .recon h _
  · exact .recon h _
  · exact .raise _ _ _ (by decide) (by rw [h]; rfl) (by simp [h])

/-- What an instruction of the engine does is one of the engine's moves. -/
theorem moved_of_runs {s t : State} {i : Instr} (h : EngineRuns s i) (e : exec i s = .next t) :
    Moved s t := by
  cases h with
  | signature h => exact moved_signature h e
  | chunk h => exact moved_chunk h e
  | methodCheck h hs =>
    change execMethodCheck s = .next t at e
    unfold execMethodCheck at e
    split at e
    · cases e; exact .raise _ _ _ (by decide) (by rw [h]; rfl) (by simp [h])
    · rename_i hm
      rw [not_or, not_not, not_not] at hm
      cases e; exact .methodsZero h hs hm.1 hm.2
  | size h hs =>
    change execSize s = .next t at e
    unfold execSize at e
    split at e
    · rename_i hl; cases e; exact .sizeRaise h hs hl
    · rename_i hl; cases e; exact .sizeFits h hs (by omega)
  | decompress h => exact moved_decompress h e
  | filter h => exact moved_filter h e
  | pack h =>
    change execPack s = .next t at e
    unfold execPack at e
    split at e
    · rename_i hl; cases e; exact .pixel h hl
    · rename_i hl; cases e; exact .done h (by omega)

/-- What happens at the block's boundary. -/
inductive Outside (s : State) : State → Prop where
  | nothing : Outside s s
  | start (h : s.regs.busy = false) : Outside s s.start
  | reset : Outside s s.resetBlock
  | read (a : HostAddr) (v : Option Word) : Outside s (s.deliver a v)
  | streamByte (b : Byte) : Outside s (s.presentByte b)
  | endOfStream : Outside s s.endStream
  | answered : Outside s s.decompressorAnswers

/-- A step is a move of the engine or an event at the boundary. -/
theorem step_moved {s t : State} (h : step s = .next t) :
    Moved s.takeTurn t ∨ Outside s.takeTurn t := by
  cases step_cases h with
  | instr i h e => exact .inl (moved_of_runs h e)
  | lengthByte h e => rw [e]; exact .inl (moved_lengthStep h)
  | typeByte h hk e => rw [e]; exact .inl (moved_typeStep h hk)
  | start h e => rw [e]; exact .inr (.start h)
  | reset e => rw [e]; exact .inr .reset
  | read a v e => rw [e]; exact .inr (.read a v)
  | streamByte b e => rw [e]; exact .inr (.streamByte b)
  | endOfStream e => rw [e]; exact .inr .endOfStream
  | answered e => rw [e]; exact .inr .answered
  | nothing e => rw [e]; exact .inr .nothing

end Sys2Proof.Machine
end

