-- ==== Sys2Proof/Laws/Runs.lean ====
section
/-! SUPPORT. Runs of the engine alone (nothing else scheduled): one step of a chunk, the four bytes of a CRC
field, and the payload of an IDAT and of a tEXt, each by induction on the bytes at the stream port. -/

namespace Sys2Proof.Machine

/-! ## One step -/

/-- With nothing scheduled a step of a chunk runs the instruction of its type code. -/
theorem step_chunk {s : State} (hq : s.schedule = [])
    (h : (s.eng.phase = .type ∧ s.eng.fldK = 4) ∨ s.eng.phase = .payload ∨ s.eng.phase = .crc) :
    step s = exec (decodeTypeCode s.eng.curType) s := by
  rw [step_engine_instr (engineTurn_of_quiet hq) (engineInstr_chunk h), takeTurn_of_quiet hq]

/-- A recognised chunk's step in its CRC field. -/
theorem step_crc {s : State} (hq : s.schedule = []) (hp : s.eng.phase = .crc)
    (hty : s.eng.curType ∈ knownCodes) :
    step s = .next (State.crcStep s.eng.curType s) := by
  rw [step_chunk hq (.inr (.inr hp))]
  rcases decodeTypeCode_cases s.eng.curType with ⟨e, d⟩ | ⟨e, d⟩ | ⟨e, d⟩ | ⟨e, d⟩ | ⟨h, -⟩
  · rw [d, e]; exact congrArg _ (chunkStep_crc hp)
  · rw [d, e]; exact congrArg _ (chunkStep_crc hp)
  · rw [d, e]; exact congrArg _ (chunkStep_crc hp)
  · rw [d, e]; exact congrArg _ (chunkStep_crc hp)
  · exact absurd hty h

theorem step_idat_payload {s : State} (hq : s.schedule = []) (hp : s.eng.phase = .payload)
    (hty : s.eng.curType = codeIDAT) :
    step s = .next (State.payloadStep State.storeIdatByte State.enterCrc s) := by
  rw [step_chunk hq (.inr (.inl hp)), hty, decodeTypeCode_idat]
  exact congrArg _ (chunkStep_payload hp)

theorem step_text_payload {s : State} (hq : s.schedule = []) (hp : s.eng.phase = .payload)
    (hty : s.eng.curType = codeTEXt) :
    step s = .next (State.payloadStep State.storeTextByte State.textComplete s) := by
  rw [step_chunk hq (.inr (.inl hp)), hty, decodeTypeCode_text]
  exact congrArg _ (chunkStep_payload hp)

theorem step_ihdr_payload {s : State} (hq : s.schedule = []) (hp : s.eng.phase = .payload)
    (hty : s.eng.curType = codeIHDR) :
    step s = .next (State.payloadStep State.storeHeaderByte State.ihdrComplete s) := by
  rw [step_chunk hq (.inr (.inl hp)), hty, decodeTypeCode_ihdr]
  exact congrArg _ (chunkStep_payload hp)

/-! ## The CRC field -/

/-- One byte of the CRC field before the fourth. -/
theorem step_crc_byte {s : State} {b : Byte} {rest : List Byte} (hq : s.schedule = [])
    (hp : s.eng.phase = .crc) (hty : s.eng.curType ∈ knownCodes) (hk : s.eng.fldK < 3)
    (hs : s.ports.stream = b :: rest) :
    step s = .next { s with
      eng := { s.eng with
        pos := s.eng.pos + 1, curCrc := appendByte s.eng.curCrc b, fldK := s.eng.fldK + 1 }
      ports := { s.ports with stream := rest } } := by
  rw [step_crc hq hp hty, crcStep_cons hs, if_neg (by omega)]
  rfl

/-- The fourth byte of the CRC field. -/
theorem step_crc_last {s : State} {b : Byte} {rest : List Byte} (hq : s.schedule = [])
    (hp : s.eng.phase = .crc) (hty : s.eng.curType ∈ knownCodes) (hk : s.eng.fldK = 3)
    (hs : s.ports.stream = b :: rest) :
    step s = .next (State.chunkComplete s.eng.curType { s with
      eng := { s.eng with
        pos := s.eng.pos + 1, curCrc := appendByte s.eng.curCrc b, fldK := 4 }
      ports := { s.ports with stream := rest } }) := by
  rw [step_crc hq hp hty, crcStep_cons hs, if_pos (by omega)]
  have e : State.takeCrcByte b (State.consume rest s) = { s with
      eng := { s.eng with
        pos := s.eng.pos + 1, curCrc := appendByte s.eng.curCrc b, fldK := 4 }
      ports := { s.ports with stream := rest } } := by
    simp only [State.takeCrcByte, State.consume, hk]
  rw [e]

/-- The state in which a chunk completes, its CRC field just consumed. -/
def State.crcTaken (crc : Word) (rest : List Byte) (s : State) : State :=
  { s with
    eng := { s.eng with pos := s.eng.pos + 4, curCrc := crc, fldK := 4 }
    ports := { s.ports with stream := rest } }

/-- Four steps consume the CRC field and complete the chunk (R111). -/
theorem crc_runs {s : State} {crc : Word} {rest : List Byte} (hq : s.schedule = [])
    (hp : s.eng.phase = .crc) (hk : s.eng.fldK = 0) (hty : s.eng.curType ∈ knownCodes)
    (hs : s.ports.stream = be32Bytes crc ++ rest) :
    Runs 4 s (State.chunkComplete s.eng.curType (State.crcTaken crc rest s)) := by
  simp only [be32Bytes, List.cons_append, List.nil_append] at hs
  refine Runs.succ (step_crc_byte hq hp hty (by omega) hs) ?_
  refine Runs.succ (step_crc_byte hq hp hty (by show s.eng.fldK + 1 < 3; omega) rfl) ?_
  refine Runs.succ (step_crc_byte hq hp hty (by show s.eng.fldK + 1 + 1 < 3; omega) rfl) ?_
  refine Runs.succ (step_crc_last hq hp hty (by show s.eng.fldK + 1 + 1 + 1 = 3; omega) rfl) ?_
  rw [runs_zero_iff]
  simp only [State.crcTaken, appendByte_four, extract_append]

/-! ## Payloads -/

/-- An IDAT payload, from its byte number `cur_off` to its end: the bytes stand in IDAT space behind
those already there (R109). -/
theorem idat_payload_runs {s : State} {p rest : List Byte} (hq : s.schedule = [])
    (hp : s.eng.phase = .payload) (hty : s.eng.curType = codeIDAT) (hne : p ≠ [])
    (hl : s.eng.curOff + p.length = s.eng.curLen.toNat) (hs : s.ports.stream = p ++ rest) :
    Runs p.length s { s with
      spaces := { s.spaces with
        idat := Memory.writeList s.spaces.idat (s.eng.idatBytes.toNat + s.eng.curOff) p }
      eng := { s.eng with
        pos := s.eng.pos + p.length, curOff := s.eng.curOff + p.length, phase := .crc, fldK := 0 }
      ports := { s.ports with stream := rest } } := by
  induction p generalizing s with
  | nil => exact absurd rfl hne
  | cons b p ih =>
    rw [List.length_cons] at hl ⊢
    have h1 := step_idat_payload hq hp hty
    rw [idatStep_cons (rest := p ++ rest) (by simpa using hs)] at h1
    cases p with
    | nil =>
      rw [if_pos (by simp at hl; omega)] at h1
      exact Runs.succ h1 (Runs.zero _)
    | cons c p =>
      rw [if_neg (by simp at hl; omega)] at h1
      refine Runs.succ h1 ?_
      have := @ih (State.countByte (State.storeIdatByte b (State.consume (c :: p ++ rest) s)))
        hq hp hty (by simp)
        (by show s.eng.curOff + 1 + _ = s.eng.curLen.toNat; omega) rfl
      simp only [State.countByte, State.storeIdatByte, State.consume, Nat.add_assoc,
        Nat.add_comm 1 (List.length (c :: p))] at this ⊢
      exact this

/-- The header buffer after the bytes `p` from place `k` on (R105). -/
def hdrWrite (v : Vector Byte 13) (k : Nat) : List Byte → Vector Byte 13
  | [] => v
  | b :: p => hdrWrite (v.setIfInBounds k b) (k + 1) p

/-- The state after an IHDR payload, its completion still to come. -/
def State.headerTaken (p rest : List Byte) (s : State) : State :=
  { s with
    eng := { s.eng with
      pos := s.eng.pos + p.length, curOff := s.eng.curOff + p.length
      hdrBuf := hdrWrite s.eng.hdrBuf s.eng.curOff p }
    ports := { s.ports with stream := rest } }

/-- An IHDR payload, from its byte number `cur_off` to its end (R105). -/
theorem header_payload_runs {s : State} {p rest : List Byte} (hq : s.schedule = [])
    (hp : s.eng.phase = .payload) (hty : s.eng.curType = codeIHDR) (hne : p ≠ [])
    (hl : s.eng.curOff + p.length = s.eng.curLen.toNat) (hs : s.ports.stream = p ++ rest) :
    Runs p.length s (State.headerTaken p rest s).ihdrComplete := by
  induction p generalizing s with
  | nil => exact absurd rfl hne
  | cons b p ih =>
    rw [List.length_cons] at hl ⊢
    have h1 := step_ihdr_payload hq hp hty
    rw [headerStep_cons (rest := p ++ rest) (by simpa using hs)] at h1
    cases p with
    | nil =>
      rw [if_pos (by simp at hl; omega)] at h1
      exact Runs.succ h1 (Runs.zero _)
    | cons c p =>
      rw [if_neg (by simp at hl; omega)] at h1
      refine Runs.succ h1 ?_
      have := @ih (State.countByte (State.storeHeaderByte b (State.consume (c :: p ++ rest) s)))
        hq hp hty (by simp)
        (by show s.eng.curOff + 1 + _ = s.eng.curLen.toNat; omega) rfl
      have e : State.headerTaken (c :: p) rest
          (State.countByte (State.storeHeaderByte b (State.consume (c :: p ++ rest) s))) =
          State.headerTaken (b :: c :: p) rest s := by
        simp only [State.headerTaken, State.countByte, State.storeHeaderByte, State.consume,
          Nat.add_assoc, Nat.add_comm 1 (List.length (c :: p))]
        rfl
      rw [e] at this
      exact this

/-- A header byte after the bytes `p` from place `k` on (30_encoding.md R84). -/
theorem hdrWrite_get (v : Vector Byte 13) (k : Nat) (p : List Byte) (i : Nat) (hi : i < 13) :
    (hdrWrite v k p)[i] =
      if h : k ≤ i ∧ i < k + p.length then p[i - k]'(by omega) else v[i] := by
  induction p generalizing v k with
  | nil => simp [hdrWrite]
  | cons b p ih =>
    rw [hdrWrite, ih, Vector.getElem_setIfInBounds]
    by_cases h1 : k = i
    · subst h1
      simp
    · by_cases h2 : k + 1 ≤ i ∧ i < k + 1 + p.length
      · have h3 : k ≤ i ∧ i < k + (b :: p).length := by rw [List.length_cons]; omega
        have e : i - k = (i - (k + 1)) + 1 := by omega
        rw [dif_pos h2, dif_pos h3]
        simp [e]
      · have h3 : ¬ (k ≤ i ∧ i < k + (b :: p).length) := by rw [List.length_cons]; omega
        rw [dif_neg h2, dif_neg h3, if_neg h1]

/-- Where the first 0x00 of a payload is, counting from `k` on, if one has not been seen yet. -/
def firstZero (seen : Bool) (len : Word) (k : Nat) : List Byte → Bool × Word
  | [] => (seen, len)
  | b :: p =>
    firstZero (seen || b == 0#8)
      (if b = 0#8 ∧ seen = false then BitVec.ofNat 32 k else len) (k + 1) p

/-- Once seen, the first 0x00 stays. -/
theorem firstZero_seen (len : Word) (k : Nat) (p : List Byte) :
    firstZero true len k p = (true, len) := by
  induction p generalizing k with
  | nil => rfl
  | cons b p ih => simp [firstZero, ih]

/-- The first 0x00 of a payload that has one (R110). -/
theorem firstZero_found {p : List Byte} {n : Nat} (len : Word) (k : Nat)
    (hn : p[n]? = some 0#8) (hb : ∀ m < n, p[m]? ≠ some 0#8) :
    firstZero false len k p = (true, BitVec.ofNat 32 (k + n)) := by
  induction p generalizing n k len with
  | nil => simp at hn
  | cons b p ih =>
    cases n with
    | zero =>
      have : b = 0#8 := by simpa using hn
      subst this
      simp [firstZero, firstZero_seen]
    | succ n =>
      have hb0 : b ≠ 0#8 := by simpa using hb 0 (by omega)
      have := ih len (k + 1) (n := n) (by simpa using hn)
        (fun m hm => by simpa using hb (m + 1) (by omega))
      have hbeq : (b == 0#8) = false := by simpa using hb0
      have e : k + 1 + n = k + (n + 1) := by omega
      rw [firstZero, if_neg (fun h => hb0 h.1), hbeq, Bool.false_or, this, e]

/-- A payload with no 0x00 (R110). -/
theorem firstZero_none {p : List Byte} (len : Word) (k : Nat) (h : 0#8 ∉ p) :
    firstZero false len k p = (false, len) := by
  induction p generalizing k with
  | nil => rfl
  | cons b p ih =>
    rw [List.mem_cons, not_or] at h
    have hb : b ≠ 0#8 := fun e => h.1 e.symm
    have hbeq : (b == 0#8) = false := by simpa using hb
    rw [firstZero, if_neg (fun h => hb h.1), hbeq, Bool.false_or, ih (k + 1) h.2]

/-- The state after a tEXt payload, the completion's check still to come. -/
def State.textTaken (p rest : List Byte) (s : State) : State :=
  { s with
    spaces := { s.spaces with
      text := Memory.writeList s.spaces.text (s.eng.textBytes.toNat + s.eng.curOff) p }
    eng := { s.eng with
      pos := s.eng.pos + p.length, curOff := s.eng.curOff + p.length
      zeroSeen := (firstZero s.eng.zeroSeen s.eng.keyLen s.eng.curOff p).1
      keyLen := (firstZero s.eng.zeroSeen s.eng.keyLen s.eng.curOff p).2 }
    ports := { s.ports with stream := rest } }

/-- A tEXt payload, from its byte number `cur_off` to its end (R110). -/
theorem text_payload_runs {s : State} {p rest : List Byte} (hq : s.schedule = [])
    (hp : s.eng.phase = .payload) (hty : s.eng.curType = codeTEXt) (hne : p ≠ [])
    (hl : s.eng.curOff + p.length = s.eng.curLen.toNat) (hs : s.ports.stream = p ++ rest) :
    Runs p.length s (State.textTaken p rest s).textComplete := by
  induction p generalizing s with
  | nil => exact absurd rfl hne
  | cons b p ih =>
    rw [List.length_cons] at hl ⊢
    have h1 := step_text_payload hq hp hty
    rw [textStep_cons (rest := p ++ rest) (by simpa using hs)] at h1
    cases p with
    | nil =>
      rw [if_pos (by simp at hl; omega)] at h1
      exact Runs.succ h1 (Runs.zero _)
    | cons c p =>
      rw [if_neg (by simp at hl; omega)] at h1
      refine Runs.succ h1 ?_
      have := @ih (State.countByte (State.storeTextByte b (State.consume (c :: p ++ rest) s)))
        hq hp hty (by simp)
        (by show s.eng.curOff + 1 + _ = s.eng.curLen.toNat; omega) rfl
      have e : State.textTaken (c :: p) rest
          (State.countByte (State.storeTextByte b (State.consume (c :: p ++ rest) s))) =
          State.textTaken (b :: c :: p) rest s := by
        simp only [State.textTaken, State.countByte, State.storeTextByte, State.consume,
          Nat.add_assoc, Nat.add_comm 1 (List.length (c :: p))]
        rfl
      rw [e] at this
      exact this

/-! ## Rows and pixels -/

/-- With nothing scheduled a step of the row loop runs the row's filter. -/
theorem step_filter {s : State} (hq : s.schedule = []) (hp : s.eng.phase = .filter) :
    step s = exec (decodeFilterByte s.filterByte) s := by
  rw [step_engine_instr (engineTurn_of_quiet hq) (engineInstr_filter hp), takeTurn_of_quiet hq]

/-- The five filters are one step with the predictor of their type (R137 to R143). -/
theorem exec_filter {s : State} (h : s.filterByte.toNat ≤ 4) :
    exec (decodeFilterByte s.filterByte) s =
      .next (s.reconstruct (BitVec.ofNat 8 (predictorOf s.filterByte s.a s.b s.c))) := by
  rcases decodeFilterByte_cases s.filterByte with ⟨e, d⟩ | ⟨e, d⟩ | ⟨e, d⟩ | ⟨e, d⟩ | ⟨e, d⟩ | ⟨e, -⟩
  · rw [d, e]; rfl
  · rw [d, e]; show Host.Outcome.next (s.reconstruct s.a) = _; simp [predictorOf]
  · rw [d, e]; show Host.Outcome.next (s.reconstruct s.b) = _; simp [predictorOf]
  · rw [d, e]; show Host.Outcome.next (s.reconstruct _) = _; simp [predictorOf, averagePredictor]
  · rw [d, e]; show Host.Outcome.next (s.reconstruct _) = _; simp [predictorOf]
  · omega

/-- With nothing scheduled a step of the PACK phase runs PACK. -/
theorem step_pack {s : State} (hq : s.schedule = []) (hp : s.eng.phase = .pack) :
    step s = execPack s := by
  rw [step_engine_instr (engineTurn_of_quiet hq) (engineInstr_pack hp), takeTurn_of_quiet hq]
  rfl

end Sys2Proof.Machine
end

