-- ==== Sys2Proof/Laws/Outer.lean ====
section
/-! SUPPORT. What lies outside the block does not influence an instruction: exec neither reads nor writes
the schedule, the count of draws and the data of the last read. A run of the engine alone is the same
run when the engine's turns stand in the schedule. -/

namespace Sys2Proof.Machine

/-- The state with another outside: schedule, draws and last read data. -/
def State.withOutside (sch : List Event) (d : Nat) (r : Option Word) (s : State) : State :=
  { s with schedule := sch, draws := d, readData := r }

/-- A function applied to the next state of an outcome. -/
def mapNext (f : State → State) :
    Host.Outcome State Fault Refusal → Host.Outcome State Fault Refusal
  | .next s => .next (f s)
  | .fault x => .fault x
  | .refused x => .refused x

variable (sch : List Event) (d : Nat) (r : Option Word)

theorem withOutside_ite (c : Prop) [Decidable c] (a b : State) :
    State.withOutside sch d r (if c then a else b) =
      if c then State.withOutside sch d r a else State.withOutside sch d r b := by
  split <;> rfl

theorem mapNext_ite (f : State → State) (c : Prop) [Decidable c] (a b : State) :
    mapNext f (if c then .next a else .next b) = if c then .next (f a) else .next (f b) := by
  split <;> rfl

theorem chunkComplete_withOutside (ty : Word) (s : State) :
    State.chunkComplete ty (State.withOutside sch d r s) =
      State.withOutside sch d r (State.chunkComplete ty s) := by
  unfold State.chunkComplete State.afterChunk State.commitType
  rw [withOutside_ite]
  by_cases h1 : ty = codeIEND
  · rw [if_pos h1, if_pos h1]
    by_cases h2 : ty = codeIDAT
    · rw [if_pos h2, if_pos h2]; rfl
    · rw [if_neg h2, if_neg h2]
      by_cases h3 : ty = codeTEXt
      · rw [if_pos h3, if_pos h3]; rfl
      · rw [if_neg h3, if_neg h3]; rfl
  · rw [if_neg h1, if_neg h1]
    by_cases h2 : ty = codeIDAT
    · rw [if_pos h2, if_pos h2]; rfl
    · rw [if_neg h2, if_neg h2]
      by_cases h3 : ty = codeTEXt
      · rw [if_pos h3, if_pos h3]; rfl
      · rw [if_neg h3, if_neg h3]; rfl

theorem typeCompletion_withOutside {c : State → State}
    (h : ∀ s, c (State.withOutside sch d r s) = State.withOutside sch d r (c s)) (ty : Word)
    (s : State) : State.typeCompletion ty c (State.withOutside sch d r s) =
      State.withOutside sch d r (State.typeCompletion ty c s) := by
  have e : (State.withOutside sch d r s).typeChecks ty = s.typeChecks ty := rfl
  cases hc : s.typeChecks ty with
  | some k => rw [typeCompletion_raise (e.trans hc), typeCompletion_raise hc]; rfl
  | none =>
    rw [typeCompletion_pass (typeChecks_none_iff.1 (e.trans hc)),
      typeCompletion_pass (typeChecks_none_iff.1 hc), withOutside_ite, h]
    rfl

theorem chunkStep_withOutside {store : Byte → State → State} {c : State → State}
    (h1 : ∀ b s, store b (State.withOutside sch d r s) = State.withOutside sch d r (store b s))
    (h2 : ∀ s, c (State.withOutside sch d r s) = State.withOutside sch d r (c s)) (ty : Word)
    (s : State) : State.chunkStep ty store c (State.withOutside sch d r s) =
      State.withOutside sch d r (State.chunkStep ty store c s) := by
  have hpay : State.payloadStep store c (State.withOutside sch d r s) =
      State.withOutside sch d r (State.payloadStep store c s) := by
    rcases nextByte_cases s with ⟨b, rest, hs, -⟩ | ⟨hs, he, -⟩ | ⟨hs, he, -⟩
    · rw [payloadStep_cons (s := State.withOutside sch d r s) hs, payloadStep_cons hs,
        show State.consume rest (State.withOutside sch d r s) =
          State.withOutside sch d r (State.consume rest s) from rfl, h1, withOutside_ite, ← h2]
      rfl
    · rw [payloadStep_ended (s := State.withOutside sch d r s) hs he, payloadStep_ended hs he]
      rfl
    · rw [payloadStep_stalled (s := State.withOutside sch d r s) hs he, payloadStep_stalled hs he]
  have hcrc : State.crcStep ty (State.withOutside sch d r s) =
      State.withOutside sch d r (State.crcStep ty s) := by
    rcases nextByte_cases s with ⟨b, rest, hs, -⟩ | ⟨hs, he, -⟩ | ⟨hs, he, -⟩
    · rw [crcStep_cons (s := State.withOutside sch d r s) hs, crcStep_cons hs,
        show State.takeCrcByte b (State.consume rest (State.withOutside sch d r s)) =
          State.withOutside sch d r (State.takeCrcByte b (State.consume rest s)) from rfl,
        withOutside_ite, chunkComplete_withOutside]
      rfl
    · rw [crcStep_ended (s := State.withOutside sch d r s) hs he, crcStep_ended hs he]; rfl
    · rw [crcStep_stalled (s := State.withOutside sch d r s) hs he, crcStep_stalled hs he]
  have htc := typeCompletion_withOutside sch d r h2 ty s
  have hp : (State.withOutside sch d r s).eng.phase = s.eng.phase := rfl
  unfold State.chunkStep
  rw [hp]
  cases s.eng.phase
  case payload => exact hpay
  case crc => exact hcrc
  all_goals exact htc

theorem lengthStep_withOutside (s : State) : (State.withOutside sch d r s).lengthStep =
    State.withOutside sch d r s.lengthStep := by
  rcases nextByte_cases s with ⟨b, rest, hs, -⟩ | ⟨hs, he, -⟩ | ⟨hs, he, -⟩
  · rw [lengthStep_cons (s := State.withOutside sch d r s) hs, lengthStep_cons hs]; rfl
  · rw [lengthStep_ended (s := State.withOutside sch d r s) hs he, lengthStep_ended hs he]; rfl
  · rw [lengthStep_stalled (s := State.withOutside sch d r s) hs he, lengthStep_stalled hs he]

theorem typeStep_withOutside (s : State) : (State.withOutside sch d r s).typeStep =
    State.withOutside sch d r s.typeStep := by
  rcases nextByte_cases s with ⟨b, rest, hs, -⟩ | ⟨hs, he, -⟩ | ⟨hs, he, -⟩
  · rw [typeStep_cons (s := State.withOutside sch d r s) hs, typeStep_cons hs]; rfl
  · rw [typeStep_ended (s := State.withOutside sch d r s) hs he, typeStep_ended hs he]; rfl
  · rw [typeStep_stalled (s := State.withOutside sch d r s) hs he, typeStep_stalled hs he]

theorem readBytes_withOutside (s : State) (b : ByteSpace) (a n : Nat) :
    (State.withOutside sch d r s).readBytes b a n = s.readBytes b a n := by
  induction n generalizing a with
  | zero => rfl
  | succ n ih => exact congrArg (s.readByteAt b a :: ·) (ih (a + 1))

theorem reconstruct_withOutside (p : Byte) (s : State) :
    State.reconstruct p (State.withOutside sch d r s) =
      State.withOutside sch d r (State.reconstruct p s) := by
  unfold State.reconstruct State.advance
  rw [withOutside_ite, withOutside_ite]
  rfl

theorem execSignature_withOutside (s : State) :
    execSignature (State.withOutside sch d r s) =
      mapNext (State.withOutside sch d r) (execSignature s) := by
  cases hw : signatureList[s.eng.sigK]? with
  | none =>
    have e : ∀ u : State, signatureList[u.eng.sigK]? = none →
        execSignature u = .next u.chunkBoundary := fun u hu => by simp [execSignature, hu]
    rw [e _ hw, e (State.withOutside sch d r s) hw]
    rfl
  | some want =>
    rcases nextByte_cases s with ⟨b, rest, hs, -⟩ | ⟨hs, he, -⟩ | ⟨hs, he, -⟩
    · rw [execSignature_cons (s := State.withOutside sch d r s) hw hs, execSignature_cons hw hs]
      refine congrArg Host.Outcome.next ?_
      by_cases hb : b = want
      · subst hb
        rw [matchSignature_same, matchSignature_same, withOutside_ite]
        rfl
      · rw [matchSignature_differs hb, matchSignature_differs hb]
        rfl
    · rw [execSignature_ended (s := State.withOutside sch d r s) hw hs he,
        execSignature_ended hw hs he]
      rfl
    · rw [execSignature_stalled (s := State.withOutside sch d r s) hw hs he,
        execSignature_stalled hw hs he]
      rfl

theorem execDecompress_withOutside (s : State) :
    execDecompress (State.withOutside sch d r s) =
      mapNext (State.withOutside sch d r) (execDecompress s) := by
  have hd : (State.withOutside sch d r s).eng.decPending = s.eng.decPending := rfl
  have ha : (State.withOutside sch d r s).ports.answer = s.ports.answer := rfl
  unfold execDecompress
  rw [hd, ha]
  by_cases h : s.eng.decPending = true
  · rw [if_pos h, if_pos h]
    cases s.ports.answer with
    | none => rfl
    | some x =>
      refine congrArg Host.Outcome.next ?_
      cases x with
      | none => rfl
      | some l =>
        show (if _ then _ else _) = State.withOutside sch d r (if _ then _ else _)
        rw [withOutside_ite]
        rfl
  · rw [if_neg h, if_neg h]
    refine congrArg Host.Outcome.next ?_
    unfold State.issueRequest
    rw [readBytes_withOutside]
    rfl

/-- No instruction reads or writes what lies outside the block. -/
theorem exec_withOutside (i : Instr) (s : State) : exec i (State.withOutside sch d r s) =
    mapNext (State.withOutside sch d r) (exec i s) := by
  cases i with
  | signature => exact execSignature_withOutside sch d r s
  | ihdr =>
    refine congrArg Host.Outcome.next (chunkStep_withOutside sch d r (store := State.storeHeaderByte)
      (c := State.ihdrComplete) (fun _ _ => rfl) (fun s => ?_) codeIHDR s)
    unfold State.ihdrComplete
    rw [withOutside_ite]
    rfl
  | idat =>
    exact congrArg Host.Outcome.next (chunkStep_withOutside sch d r
      (store := State.storeIdatByte) (c := State.enterCrc) (fun _ _ => rfl) (fun _ => rfl)
      codeIDAT s)
  | text =>
    refine congrArg Host.Outcome.next (chunkStep_withOutside sch d r (store := State.storeTextByte)
      (c := State.textComplete) (fun _ _ => rfl) (fun s => ?_) codeTEXt s)
    unfold State.textComplete
    rw [withOutside_ite]
    rfl
  | iend =>
    exact congrArg Host.Outcome.next (chunkStep_withOutside sch d r
      (store := State.storeNothing) (c := State.enterCrc) (fun _ _ => rfl) (fun _ => rfl)
      codeIEND s)
  | unknownChunk code => rfl
  | methodCheck =>
    show execMethodCheck _ = mapNext _ (execMethodCheck s)
    unfold execMethodCheck
    rw [mapNext_ite]
    rfl
  | size =>
    show execSize _ = mapNext _ (execSize s)
    unfold execSize
    rw [mapNext_ite]
    rfl
  | decompress => exact execDecompress_withOutside sch d r s
  | filtNone => exact congrArg Host.Outcome.next (reconstruct_withOutside sch d r _ s)
  | filtSub => exact congrArg Host.Outcome.next (reconstruct_withOutside sch d r s.a s)
  | filtUp => exact congrArg Host.Outcome.next (reconstruct_withOutside sch d r s.b s)
  | filtAvg =>
    exact congrArg Host.Outcome.next
      (reconstruct_withOutside sch d r (averagePredictor s.a s.b) s)
  | filtPaeth =>
    exact congrArg Host.Outcome.next
      (reconstruct_withOutside sch d r (paethPredictor s.a s.b s.c) s)
  | filtInvalid ft => rfl
  | pack =>
    show execPack _ = mapNext _ (execPack s)
    unfold execPack
    rw [mapNext_ite]
    rfl
  | cmdStart reserved =>
    show execCmdStart reserved _ = mapNext _ (execCmdStart reserved s)
    unfold execCmdStart
    rw [mapNext_ite]
    rfl
  | cmdSoftReset start reserved => rfl

theorem engineOther_withOutside (s : State) : (State.withOutside sch d r s).engineOther =
    State.withOutside sch d r s.engineOther := by
  have hp : (State.withOutside sch d r s).eng.phase = s.eng.phase := rfl
  unfold State.engineOther
  rw [hp]
  cases s.eng.phase
  case len => exact lengthStep_withOutside sch d r s
  case type => exact typeStep_withOutside sch d r s
  all_goals rfl

/-- The engine's turn does not depend on what lies outside: a step on a scheduled turn of the engine is
the quiet step, and the schedule moves on. -/
theorem step_engine_withOutside {s t : State} (h : step (State.withOutside [] d r s) = .next t) :
    step (State.withOutside (.engine :: sch) d r s) = .next (State.withOutside sch d r t) := by
  have hq : (State.withOutside [] d r s).engineTurn := rfl
  have he : (State.withOutside (.engine :: sch) d r s).engineTurn := rfl
  rw [step_of_engineTurn hq] at h
  rw [step_of_engineTurn he]
  have hi : (State.withOutside (.engine :: sch) d r s).engineInstr =
    (State.withOutside [] d r s).engineInstr := rfl
  have hs : (State.withOutside (.engine :: sch) d r s).takeTurn =
    State.withOutside sch d r (State.withOutside [] d r s).takeTurn := rfl
  rw [hi, hs]
  cases hc : (State.withOutside [] d r s).engineInstr with
  | some i =>
    rw [hc] at h
    show exec i _ = _
    change exec i _ = _ at h
    rw [exec_withOutside, h]
    rfl
  | none =>
    rw [hc] at h
    show Host.Outcome.next _ = _
    rw [engineOther_withOutside]
    cases h
    rfl

/-- A quiet step leaves what lies outside as it was. -/
theorem step_quiet_outside {s t : State} (h : step (State.withOutside [] d r s) = .next t) :
    State.withOutside [] d r t = t := by
  have hq : (State.withOutside [] d r s).engineTurn := rfl
  have ht : (State.withOutside [] d r s).takeTurn = State.withOutside [] d r s := rfl
  rw [step_of_engineTurn hq, ht] at h
  cases hc : (State.withOutside [] d r s).engineInstr with
  | some i =>
    rw [hc] at h
    change exec i _ = _ at h
    rw [exec_withOutside] at h
    cases he : exec i s with
    | next u => rw [he] at h; cases h; rfl
    | fault x => rw [he] at h; cases h
    | refused x => rw [he] at h; cases h
  | none =>
    rw [hc] at h
    change Host.Outcome.next _ = _ at h
    rw [engineOther_withOutside] at h
    cases h
    rfl

/-- A quiet run, with the engine's turns in the schedule before `sch`. -/
theorem runs_engine_withOutside {n : Nat} {s t : State}
    (h : Runs n (State.withOutside [] d r s) t) :
    Runs n (State.withOutside (List.replicate n .engine ++ sch) d r s)
      (State.withOutside sch d r t) := by
  induction n generalizing s with
  | zero =>
    rw [runs_zero_iff] at h ⊢
    subst h
    rfl
  | succ n ih =>
    obtain ⟨u, hu, h⟩ := runs_succ_iff.1 h
    rw [List.replicate_succ, List.cons_append]
    refine Runs.succ (step_engine_withOutside _ d r hu) (ih ?_)
    rw [step_quiet_outside d r hu]
    exact h

end Sys2Proof.Machine
end

