-- ==== Sys2Proof/Laws/PerInstr.lean ====
section
/-! SUPPORT. The family of statements made once for each instruction: its code decodes back to it. -/

namespace Sys2Proof.Laws.RoundTrip

open Sys2Proof

/-- The code the encoder gives a well-formed instruction, where it has one, decodes to that instruction
(30_encoding.md R83, R89, R94). -/
def Statement (i : Instr) : Prop := i.WellFormed → ∀ c, encode i = some c → decode c = .ok i

/-- An instruction with no operand, whose one code is decoded by evaluation. -/
theorem of_code {i : Instr} {k : Code} (he : encode i = some k) (hd : decode k = .ok i) :
    Statement i := by
  intro _ c hc
  rw [he] at hc
  cases hc
  exact hd

/-- A stage has no code (opcode_table.json "no encoding"). -/
theorem of_no_code {i : Instr} (he : encode i = none) : Statement i := by
  intro _ c hc
  rw [he] at hc
  cases hc

theorem signature : Statement .signature := of_code rfl (by decide)
theorem ihdr : Statement .ihdr := of_code rfl (by decide)
theorem idat : Statement .idat := of_code rfl (by decide)
theorem text : Statement .text := of_code rfl (by decide)
theorem iend : Statement .iend := of_code rfl (by decide)

theorem unknownChunk (code : Word) : Statement (.unknownChunk code) := by
  intro hw c hc
  cases hc
  exact congrArg Except.ok (decodeTypeCode_unknown (wellFormed_unknownChunk.1 hw))

theorem methodCheck : Statement .methodCheck := of_no_code rfl
theorem size : Statement .size := of_no_code rfl
theorem decompress : Statement .decompress := of_no_code rfl
theorem filtNone : Statement .filtNone := of_code rfl (by decide)
theorem filtSub : Statement .filtSub := of_code rfl (by decide)
theorem filtUp : Statement .filtUp := of_code rfl (by decide)
theorem filtAvg : Statement .filtAvg := of_code rfl (by decide)
theorem filtPaeth : Statement .filtPaeth := of_code rfl (by decide)

theorem filtInvalid (ft : Byte) : Statement (.filtInvalid ft) := by
  intro hw c hc
  cases hc
  exact congrArg Except.ok (decodeFilterByte_invalid (wellFormed_filtInvalid.1 hw))

theorem pack : Statement .pack := of_no_code rfl
theorem cmdStart (reserved : BitVec 30) : Statement (.cmdStart reserved) :=
  of_code rfl (decodeCtrl_start reserved)
theorem cmdSoftReset (start : Bool) (reserved : BitVec 30) :
    Statement (.cmdSoftReset start reserved) :=
  of_code rfl (decodeCtrl_softReset start reserved)

end Sys2Proof.Laws.RoundTrip
end

