-- ==== Sys2Proof/Tests/Slice0.lean ====
section
/-! SUPPORT. Tests of the model on the values of spec/95_test_vectors.md and the tables of
30_encoding.md, one step each, and for every statement with hypotheses a state that meets them. -/

open Sys2Proof Sys2Proof.Machine

namespace Sys2Proof.Tests

/-! ## Helpers -/

/-- The state an outcome answers, the reset state where it answers none. -/
def after : Host.Outcome State Fault Refusal → State
  | .next t => t
  | .fault _ => State.reset
  | .refused _ => State.reset

/-- Whether an outcome answers a next state. -/
def goesOn : Host.Outcome State Fault Refusal → Bool
  | .next _ => true
  | .fault _ => false
  | .refused _ => false

/-- An outcome's refusal. -/
def refusalOf : Host.Outcome State Fault Refusal → Option Refusal
  | .refused r => some r
  | .next _ => none
  | .fault _ => none

theorem next_after {o : Host.Outcome State Fault Refusal} (h : goesOn o = true) :
    o = .next (after o) := by
  cases o <;> first | rfl | simp [goesOn] at h

/-- What an ERROR state shows: STATUS, ERR_OFFSET, ERR_INDEX, STREAM_POS (95_test_vectors.md,
Conventions). -/
def shown (s : State) : Word × Word × Word × Word :=
  (s.regs.status, s.regs.errOffset, s.regs.errIndex, s.regs.streamPos)

/-- A decode that has just been started, `stream` wholly at the port, and ended there. -/
def started (stream : List Byte) : State :=
  { State.reset.start with ports := { Ports.reset with stream := stream, streamEnded := true } }

/-- A chunk at its type completion: `len` and `code` assembled, `n` chunks before it, its first byte at
`start`. -/
def typed (start : Nat) (n len code : Word) (stream : List Byte) : State :=
  let s := started stream
  { s with
    eng := { s.eng with
      phase := .type, fldK := 4, pos := start + 8, curStart := start, chunkCount := n
      curLen := len, curType := code, hdrValid := true }
    regs := { s.regs with hdrWidth := 1#32, hdrHeight := 1#32 } }

/-- The same chunk with its whole payload consumed but the last byte. -/
def inPayload (start : Nat) (n len code : Word) (stream : List Byte) : State :=
  let s := typed start n len code stream
  { s with eng := { s.eng with
      phase := .payload, curOff := len.toNat - 1, pos := start + 8 + (len.toNat - 1) } }

/-- The same chunk with three bytes `crc` of its CRC consumed. -/
def inCrc (start : Nat) (n len code crc : Word) (stream : List Byte) : State :=
  let s := typed start n len code stream
  { s with eng := { s.eng with
      phase := .crc, fldK := 3, curCrc := crc, curOff := len.toNat, pos := start + 11 + len.toNat } }

/-- A parsed stream of 72 bytes (P1), at the CHECK phase, with this HDR_FMT and image size. -/
def checked (fmt w h : Word) : State :=
  let s := started []
  { s with
    eng := { s.eng with
      phase := .check, pos := 72, chunkCount := 3#32, idatBytes := 1#32, hdrValid := true }
    regs := { s.regs with hdrWidth := w, hdrHeight := h, hdrFmt := fmt }
    spaces := { s.spaces with idat := [(0, 0x78#8)] } }

/-- A 1x1 decode whose request is answered with `answer`. -/
def answered (answer : Option (List Byte)) : State :=
  let s := checked 0x208#32 1#32 1#32
  { s with
    eng := { s.eng with phase := .decomp, expSize := 4, decPending := true, stage := .request }
    ports := { s.ports with request := some ⟨[0x78#8], 4⟩, answer := some answer }
    regs := { s.regs with expSize := 4#32 } }

/-- A 2x2 image at row 1, byte 3, where `x` is the filtered byte, `ft` the row's filter type and a, b,
c the neighbours. -/
def filtering (ft x a b c : Byte) : State :=
  let s := checked 0x208#32 2#32 2#32
  { s with
    eng := { s.eng with phase := .filter, row := 1#32, col := 3#32, expSize := 14 }
    spaces := { s.spaces with
      decompBuf := [(7, ft), (11, x)], recon := [(0, c), (3, b), (6, a)] } }

/-- The byte a filter stores there. -/
def stored (i : Instr) (s : State) : Option Byte :=
  Memory.read? (after (exec i s)).spaces.recon 9

/-- A 1x1 image at its PACK phase with `n` pixels packed. -/
def packing (n : Nat) : State :=
  let s := checked 0x208#32 1#32 1#32
  { s with
    eng := { s.eng with phase := .pack, packIdx := n, expSize := 4 }
    spaces := { s.spaces with recon := [(0, 0x11#8), (1, 0x22#8), (2, 0x33#8)] } }

/-! ## WellFormed -/

/-- R91: IHDR's code is not UNKNOWN_CHUNK's. -/
theorem test_wf_unknown_refuses_ihdr : (Instr.unknownChunk 0x49484452#32).wellFormed = false := by
  decide

/-- R91: IEND's code is not UNKNOWN_CHUNK's. -/
theorem test_wf_unknown_refuses_iend : (Instr.unknownChunk 0x49454E44#32).wellFormed = false := by
  decide

/-- R89: 4 is Paeth, not INVALID. -/
theorem test_wf_invalid_refuses_four : (Instr.filtInvalid 4#8).wellFormed = false := by decide

/-- R89: 5 is INVALID. -/
theorem test_wf_invalid_admits_five : (Instr.filtInvalid 5#8).wellFormed = true := by decide

/-- R115: PLTE is unknown. -/
theorem test_wf_unknown_admits_plte : (Instr.unknownChunk 0x504C5445#32).wellFormed = true := by
  decide

/-! ## Decode: words written out from 30_encoding.md -/

/-- R81: 89 50 4E 47 0D 0A 1A 0A. -/
theorem test_decode_signature :
    decode (.sig (0x89#8 ++ 0x50#8 ++ 0x4E#8 ++ 0x47#8 ++ 0x0D#8 ++ 0x0A#8 ++ 0x1A#8 ++ 0x0A#8)) =
      .ok .signature := by rfl

/-- R81: with the last byte 0x0B it is no signature. -/
theorem test_decode_bad_signature :
    decode (.sig 0x89504E470D0A1A0B#64) = .error .badSignature := by rfl

/-- R83: I H D R = 49 48 44 52, 'I' in bits 31:24. -/
theorem test_decode_ihdr :
    decode (.tag (0b01001001#8 ++ 0b01001000#8 ++ 0b01000100#8 ++ 0b01010010#8)) = .ok .ihdr := by
  rfl

/-- R83: I D A T = 49 44 41 54. -/
theorem test_decode_idat :
    decode (.tag (0b01001001#8 ++ 0b01000100#8 ++ 0b01000001#8 ++ 0b01010100#8)) = .ok .idat := by
  rfl

/-- R83: t E X t = 74 45 58 74. -/
theorem test_decode_text :
    decode (.tag (0b01110100#8 ++ 0b01000101#8 ++ 0b01011000#8 ++ 0b01110100#8)) = .ok .text := by
  rfl

/-- R83: I E N D = 49 45 4E 44. -/
theorem test_decode_iend :
    decode (.tag (0b01001001#8 ++ 0b01000101#8 ++ 0b01001110#8 ++ 0b01000100#8)) = .ok .iend := by
  rfl

/-- V39: TEXT in capitals is unknown. -/
theorem test_decode_case_matters :
    decode (.tag 0x54455854#32) = .ok (.unknownChunk 0x54455854#32) := by rfl

/-- R89: 0..4 the five filters, 5 and 255 INVALID. -/
theorem test_decode_filter_bytes :
    decode (.filter 0b00000000#8) = .ok .filtNone ∧ decode (.filter 0b00000001#8) = .ok .filtSub ∧
    decode (.filter 0b00000010#8) = .ok .filtUp ∧ decode (.filter 0b00000011#8) = .ok .filtAvg ∧
    decode (.filter 0b00000100#8) = .ok .filtPaeth ∧
    decode (.filter 0b00000101#8) = .ok (.filtInvalid 5#8) ∧
    decode (.filter 0b11111111#8) = .ok (.filtInvalid 255#8) :=
  ⟨rfl, rfl, rfl, rfl, rfl, rfl, rfl⟩

/-- R94: START is bit 0, SOFT_RESET bit 1, and the reserved bits are kept and ignored. -/
theorem test_decode_ctrl :
    decode (.ctrl (0#30 ++ 0b01#2)) = .ok (.cmdStart 0#30) ∧
    decode (.ctrl (0#30 ++ 0b10#2)) = .ok (.cmdSoftReset false 0#30) ∧
    decode (.ctrl (0#30 ++ 0b11#2)) = .ok (.cmdSoftReset true 0#30) ∧
    decode (.ctrl (1#30 ++ 0b01#2)) = .ok (.cmdStart 1#30) ∧
    decode (.ctrl 0xFFFFFFFC#32) = .error .noCommand := ⟨rfl, rfl, rfl, rfl, rfl⟩

/-! ## The table's words at reset -/

/-- Each encodable row's word is fetched right after reset. -/
theorem test_fetch_after_reset :
    (State.reset.withFetchWord 64 0x89504E470D0A1A0A).fetch = some .signature ∧
    (State.reset.withFetchWord 32 0x49484452).fetch = some .ihdr ∧
    (State.reset.withFetchWord 32 0x49444154).fetch = some .idat ∧
    (State.reset.withFetchWord 32 0x74455874).fetch = some .text ∧
    (State.reset.withFetchWord 32 0x49454E44).fetch = some .iend ∧
    (State.reset.withFetchWord 32 0).fetch = some (.unknownChunk 0#32) ∧
    (State.reset.withFetchWord 8 0).fetch = some .filtNone ∧
    (State.reset.withFetchWord 8 1).fetch = some .filtSub ∧
    (State.reset.withFetchWord 8 2).fetch = some .filtUp ∧
    (State.reset.withFetchWord 8 3).fetch = some .filtAvg ∧
    (State.reset.withFetchWord 8 4).fetch = some .filtPaeth ∧
    (State.reset.withFetchWord 8 255).fetch = some (.filtInvalid 255#8) ∧
    (State.reset.withFetchWord 32 1).fetch = some (.cmdStart 0#30) ∧
    (State.reset.withFetchWord 32 2).fetch = some (.cmdSoftReset false 0#30) := by decide

/-- A step runs them. -/
theorem test_step_after_reset :
    (after (step (State.reset.withFetchWord 64 0x89504E470D0A1A0A))).eng.sigK = 1 ∧
    (after (step (State.reset.withFetchWord 32 0))).regs.status = 0x00000304#32 ∧
    (after (step (State.reset.withFetchWord 8 255))).regs.status = 0x00000604#32 ∧
    (after (step (State.reset.withFetchWord 8 1))).eng.phase = .pack ∧
    (after (step (State.reset.withFetchWord 32 1))).regs.status = 0x00000001#32 ∧
    (after (step (State.reset.withFetchWord 32 2))).regs.status = 0x00000000#32 := by decide

/-! ## SIGNATURE -/

/-- V1: the fourth byte is 0x48. -/
theorem test_signature_mismatch :
    shown (after (exec .signature { started [0x48#8] with
      eng := { (started []).eng with sigK := 3, pos := 3 } })) = (0x104#32, 3#32, 0#32, 4#32) := by
  decide

/-- V5: five bytes only. -/
theorem test_signature_truncated :
    shown (after (exec .signature { started [] with
      eng := { (started []).eng with sigK := 5, pos := 5 } })) = (0x104#32, 5#32, 0#32, 5#32) := by
  decide

/-! ## Chunks -/

/-- V10: an IHDR of length 0xFFFFFFFF. -/
theorem test_ihdr_length :
    shown (after (exec .ihdr (typed 8 0#32 0xFFFFFFFF#32 codeIHDR []))) =
      (0x204#32, 8#32, 0#32, 16#32) := by decide

/-- V30: 1x1, bit depth 16, colour type 6, interlace 1. -/
theorem test_ihdr_header :
    let s := inPayload 8 0#32 13#32 codeIHDR [1#8]
    let r := (after (exec .ihdr { s with eng := { s.eng with
      hdrBuf := #v[0#8, 0#8, 0#8, 1#8, 0#8, 0#8, 0#8, 1#8, 16#8, 6#8, 0#8, 0#8, 0#8] } })).regs
    r.hdrWidth = 1#32 ∧ r.hdrHeight = 1#32 ∧ r.hdrFmt = 0x610#32 ∧ r.hdrIlace = 1#32 := by decide

/-- K3: an IDAT of 15 bytes for a capacity of 14, before its payload. -/
theorem test_idat_capacity :
    let s := typed 33 1#32 15#32 codeIDAT []
    shown (after (exec .idat { s with params := { s.params with maxIdatBytes := 14#32 } })) =
      (0x904#32, 33#32, 1#32, 41#32) := by decide

/-- P2: the second IDAT, chunk 3, 15 bytes behind 10; CRC D57A49C2. -/
theorem test_idat_record :
    let s := inCrc 82 3#32 15#32 codeIDAT 0xD57A49#32 [0xC2#8]
    let t := after (exec .idat { s with eng := { s.eng with idatBytes := 10#32 } })
    Memory.read? t.spaces.chunk 3 = some ⟨15#32, 0x49444154#32, 0xD57A49C2#32, 10#32⟩ ∧
    t.eng.idatBytes = 25#32 ∧ t.eng.chunkCount = 4#32 ∧ t.eng.curStart = 109 := by decide

/-- V20: the last byte of a payload with no 0x00. -/
theorem test_text_no_zero :
    shown (after (exec .text (inPayload 33 1#32 10#32 codeTEXt [0x65#8]))) =
      (0x204#32, 33#32, 1#32, 51#32) := by decide

/-- X4: TEXTDIR[0] = 2, 0, 6, 8 and the terminator at TEXT[15] (P2). -/
theorem test_text_entry :
    let s := inCrc 55 2#32 15#32 codeTEXt 0x346A19#32 [0x49#8]
    let t := after (exec .text { s with eng := { s.eng with zeroSeen := true, keyLen := 6#32 } })
    Memory.read? t.spaces.textdir 0 = some ⟨2#32, 0#32, 6#32, 8#32⟩ ∧
    Memory.read? t.spaces.text 15 = some 0#8 ∧ t.eng.textBytes = 16#32 := by decide

/-- V11: an IEND of length 1. -/
theorem test_iend_length :
    shown (after (exec .iend (typed 60 2#32 1#32 codeIEND []))) =
      (0x204#32, 60#32, 2#32, 68#32) := by decide

/-- P1: IEND is chunk 2 and ends the parse at 72. -/
theorem test_iend_ends_the_parse :
    let t := after (exec .iend (inCrc 60 2#32 0#32 codeIEND 0xAE4260#32 [0x82#8]))
    Memory.read? t.spaces.chunk 2 = some ⟨0#32, 0x49454E44#32, 0xAE426082#32, 0#32⟩ ∧
    t.eng.phase = .check ∧ t.eng.pos = 72 := by decide

/-- V12: PLTE after IHDR. -/
theorem test_unknown_chunk :
    shown (after (exec (.unknownChunk 0x504C5445#32) (typed 33 1#32 3#32 0x504C5445#32 []))) =
      (0x304#32, 33#32, 1#32, 41#32) := by decide

/-- V7: the stream ends inside the length field. -/
theorem test_length_truncated :
    shown (after (step { started [] with eng := { (started []).eng with
      phase := .len, fldK := 3, pos := 11, curStart := 8 } })) =
      (0x704#32, 11#32, 0#32, 11#32) := by decide

/-! ## Stages -/

/-- V27: compression method 1. -/
theorem test_method_check : shown (after (exec .methodCheck (checked 0x00010208#32 1#32 1#32))) =
    (0x404#32, 72#32, 0#32, 72#32) := by decide

/-- R131 for W = H = 0xFFFFFFFF, by hand: 3*(2^32 - 1)^2 + 2^32 - 1 (log entry 22). -/
theorem test_size_is_exact :
    (after (exec .size (checked 0x208#32 0xFFFFFFFF#32 0xFFFFFFFF#32))).eng.expSize =
      55340232199653818370 := by decide

/-- K7: E = 14 for a capacity of 13. -/
theorem test_size_capacity :
    let s := checked 0x208#32 2#32 2#32
    shown (after (exec .size { s with params := { s.params with maxReconBytes := 13#32 } })) =
      (0x904#32, 72#32, 0#32, 72#32) := by decide

/-- V36: three bytes for E = 4. -/
theorem test_decompress_short :
    shown (after (exec .decompress (answered (some [0#8, 1#8, 2#8])))) =
      (0x504#32, 72#32, 0#32, 72#32) := by decide

/-- P1: the answer 00 11 22 33. -/
theorem test_decompress_answer :
    let t := after (exec .decompress (answered (some [0#8, 0x11#8, 0x22#8, 0x33#8])))
    t.eng.phase = .filter ∧ t.eng.decPending = false ∧
    Memory.read? t.spaces.decompBuf 3 = some 0x33#8 := by decide

/-! ## Filters -/

/-- F2. -/
theorem test_filt_none :
    stored .filtNone (filtering 0#8 0xFF#8 0xFF#8 0xFF#8 0xFF#8) = some 0xFF#8 := by decide

/-- F4 and F5: Sub wraps. -/
theorem test_filt_sub :
    stored .filtSub (filtering 1#8 0xFF#8 0x02#8 0#8 0#8) = some 0x01#8 ∧
    stored .filtSub (filtering 1#8 0x80#8 0x80#8 0x11#8 0x22#8) = some 0x00#8 := by decide

/-- F6 and F8: Up reads the byte above. -/
theorem test_filt_up :
    stored .filtUp (filtering 2#8 0x01#8 0x99#8 0x10#8 0#8) = some 0x11#8 ∧
    stored .filtUp (filtering 2#8 0xFF#8 0#8 0x01#8 0#8) = some 0x00#8 := by decide

/-- F9, F10 and F13: the sum of Average is exact and rounds down. -/
theorem test_filt_avg :
    stored .filtAvg (filtering 3#8 0x01#8 0x01#8 0x02#8 0#8) = some 0x02#8 ∧
    stored .filtAvg (filtering 3#8 0x01#8 0xFF#8 0xFF#8 0#8) = some 0x00#8 ∧
    stored .filtAvg (filtering 3#8 0xFF#8 0x80#8 0x81#8 0#8) = some 0x7F#8 := by decide

/-- F14, F18 and F19: p of Paeth is exact. -/
theorem test_filt_paeth :
    stored .filtPaeth (filtering 4#8 0x05#8 0x64#8 0x32#8 0x3C#8) = some 0x69#8 ∧
    stored .filtPaeth (filtering 4#8 0xF0#8 0x0A#8 0x05#8 0xC8#8) = some 0xF5#8 ∧
    stored .filtPaeth (filtering 4#8 0#8 0#8 0#8 0x11#8) = some 0x00#8 := by decide

/-- Q2, Q3, Q7, Q8, Q10 and Q13. -/
theorem test_paeth_ties :
    paethPredictor 20#8 20#8 10#8 = 20#8 ∧ paethPredictor 0#8 30#8 10#8 = 30#8 ∧
    paethPredictor 10#8 20#8 15#8 = 15#8 ∧ paethPredictor 200#8 10#8 100#8 = 100#8 ∧
    paethPredictor 30#8 0#8 10#8 = 30#8 ∧ paethPredictor 255#8 255#8 0#8 = 255#8 := by decide

/-- V34: row 1 has filter type 5. -/
theorem test_filt_invalid :
    let s := checked 0x208#32 1#32 2#32
    shown (after (step { s with
      eng := { s.eng with phase := .filter, row := 1#32, pos := 76 }
      spaces := { s.spaces with decompBuf := [(4, 5#8)] } })) =
      (0x604#32, 76#32, 1#32, 76#32) := by decide

/-! ## PACK -/

/-- P1: r 11, g 22, b 33 is 0xFF332211. -/
theorem test_pack_pixel :
    Memory.read? (after (exec .pack (packing 0))).spaces.pixel 0 = some 0xFF332211#32 := by decide

/-- P1: DONE after the last pixel. -/
theorem test_pack_done :
    let t := after (exec .pack (packing 1))
    shown t = (2#32, 0#32, 0#32, 72#32) ∧ t.regs.pixelCount = 1#32 ∧
    t.regs.chunkCount = 3#32 := by decide

/-! ## Commands and host accesses -/

/-- H2: START in IDLE; the reserved bits do not matter. -/
theorem test_start :
    (after (exec (.cmdStart 5#30) State.reset)).eng.phase = .sig ∧
    (after (exec (.cmdStart 5#30) State.reset)).regs.status = 1#32 := by decide

/-- H3: START in BUSY changes nothing. -/
theorem test_start_busy : after (exec (.cmdStart 0#30) (packing 0)) = packing 0 := by decide

/-- H4, H5: SOFT_RESET with a request outstanding, whatever bit 0 holds; the late answer is
discarded. -/
theorem test_soft_reset :
    let s := { answered none with schedule := [.hostWrite (.reg 0) 4 3#32, .decompressorAnswers] }
    (after (step s)).regs.status = 0#32 ∧ (after (step s)).eng.phase = .idle ∧
    (after (step (after (step s)))).ports.answer = none := by decide

/-- H1: reads after power-on reset. -/
theorem test_reads_at_reset :
    State.reset.hostValue (.reg 0x04) = some 0#32 ∧ State.reset.hostValue (.reg 0x00) = some 0#32 ∧
    State.reset.hostValue (.reg 0x3C) = some 0#32 ∧ State.reset.hostValue (.reg 0x50) = some 0#32 ∧
    State.reset.hostValue (.reg 0x40) = some 64#32 := by decide

/-- H8, H9: beyond a count a value is unspecified, beyond a space it is 0. -/
theorem test_reads_beyond :
    let t := after (exec .pack (packing 1))
    t.hostValue (.chunk 3 0) = none ∧ t.hostValue (.chunk 64 0) = some 0#32 ∧
    t.hostValue (.idat 4096) = some 0#32 ∧ t.hostValue (.chunk 0 4) = some 0#32 := by decide

/-- R52: the reserved bits of HDR_ILACE read 0 outside DONE, whatever is drawn. -/
theorem test_reserved_bits_of_ilace :
    unspecifiedValue (.reg 0x30) 0xFFFFFFFF#32 = 0xFF#32 ∧
    unspecifiedValue (.reg 0x2C) 0xFFFFFFFF#32 = 0xFFFFFFFF#32 := by decide

/-- R62: a sub-word and a misaligned access are refused. -/
theorem test_refused_accesses :
    refusalOf (step { State.reset with schedule := [.hostRead (.reg 4) 2] }) =
      some .hostAccessWidth ∧
    refusalOf (step { State.reset with schedule := [.hostWrite (.reg 6) 4 0#32] }) =
      some .hostAccessMisaligned := by decide

/-! ## States that meet the statements' hypotheses -/

/-- A finished 1x1 decode: IHDR, one IDAT of a byte, the tEXt "a" 00, IEND. -/
def finished : State :=
  { State.reset with
    eng := { Engine.reset with
      phase := .done, pos := 84, sigK := 8, fldK := 4, curStart := 72, curType := codeIEND
      chunkCount := 4#32, idatBytes := 1#32, textCount := 1#32, textBytes := 3#32
      hdrValid := true, expSize := 4, stage := .request, packIdx := 1 }
    regs := { Regs.reset with
      status := 2#32, streamPos := 84#32, chunkCount := 4#32, idatBytes := 1#32
      textCount := 1#32, textBytes := 3#32, hdrWidth := 1#32, hdrHeight := 1#32
      hdrFmt := 0x208#32, expSize := 4#32, pixelCount := 1#32 }
    spaces := {
      chunk := [(0, ⟨13#32, codeIHDR, 0#32, 0#32⟩), (1, ⟨1#32, codeIDAT, 0#32, 0#32⟩),
        (2, ⟨2#32, codeTEXt, 0#32, 0#32⟩), (3, ⟨0#32, codeIEND, 0#32, 0#32⟩)]
      idat := [(0, 0x78#8)]
      text := [(0, 0x61#8), (1, 0#8), (2, 0#8)]
      textdir := [(0, ⟨2#32, 0#32, 1#32, 0#32⟩)]
      pixel := [(0, 0xFF332211#32)]
      decompBuf := [(0, 0#8), (1, 0x11#8), (2, 0x22#8), (3, 0x33#8)]
      recon := [(0, 0x11#8), (1, 0x22#8), (2, 0x33#8)] } }

/-- A state at the start of its row loop, with these scanlines. -/
def scanlines (w h : Word) (d : List Byte) : State :=
  let s := checked 0x208#32 w h
  { s with
    eng := { s.eng with phase := .filter, expSize := d.length }
    spaces := { s.spaces with decompBuf := Memory.writeList [] 0 d } }

theorem test_meets_DecodeOfEncode : (Instr.unknownChunk 0x504C5445#32).WellFormed ∧
    encode (.unknownChunk 0x504C5445#32) = some (.tag 0x504C5445#32) := by decide

theorem test_meets_EncodeOfDecode :
    decode (.ctrl 0xFFFFFFFF#32) = .ok (.cmdSoftReset true 0x3FFFFFFF#30) := by rfl

theorem test_meets_CtrlWordsAndTheirCommands :
    (0xFFFFFFFE#32).getLsbD 1 = true ∧
    ((0x80000001#32).getLsbD 1 = false ∧ (0x80000001#32).getLsbD 0 = true) ∧
    ((0xFFFFFFFC#32).getLsbD 1 = false ∧ (0xFFFFFFFC#32).getLsbD 0 = false ∧
      ({ State.reset with schedule := [.hostWrite (.reg 0) 4 0xFFFFFFFC#32] } : State).schedule =
        .hostWrite (.reg 0x00) 4 0xFFFFFFFC#32 :: []) := by decide

/-- One clause a line: a type code, a payload byte, a filter byte, the phases, and a CTRL write. -/
theorem test_meets_StepRunsDecodedInstruction :
    ((typed 33 1#32 1#32 codeIDAT []).engineTurn ∧
      (typed 33 1#32 1#32 codeIDAT []).eng.phase = .type ∧
      (typed 33 1#32 1#32 codeIDAT []).eng.fldK = 4 ∧
      decode (.tag (typed 33 1#32 1#32 codeIDAT []).eng.curType) = .ok .idat) ∧
    ((inPayload 33 1#32 1#32 codeTEXt []).engineTurn ∧
      (inPayload 33 1#32 1#32 codeTEXt []).eng.phase = .payload ∧
      decode (.tag (inPayload 33 1#32 1#32 codeTEXt []).eng.curType) = .ok .text) ∧
    ((filtering 4#8 0#8 0#8 0#8 0#8).engineTurn ∧
      (filtering 4#8 0#8 0#8 0#8 0#8).eng.phase = .filter ∧
      decode (.filter (filtering 4#8 0#8 0#8 0#8 0#8).filterByte) = .ok .filtPaeth) ∧
    ((started []).engineTurn ∧ (started []).eng.phase = .sig) ∧
    ((checked 0#32 1#32 1#32).engineTurn ∧ (checked 0#32 1#32 1#32).eng.phase = .check ∧
      (checked 0#32 1#32 1#32).eng.stage = .method) ∧
    ((answered none).engineTurn ∧ (answered none).eng.phase = .decomp) ∧
    ((packing 0).engineTurn ∧ (packing 0).eng.phase = .pack) ∧
    (({ State.reset with schedule := [.hostWrite (.reg 0) 4 1#32] } : State).schedule =
        .hostWrite (.reg 0x00) 4 1#32 :: [] ∧ decode (.ctrl 1#32) = .ok (.cmdStart 0#30)) :=
  ⟨⟨rfl, rfl, rfl, rfl⟩, ⟨rfl, rfl, rfl⟩, ⟨rfl, rfl, rfl⟩, ⟨rfl, rfl⟩, ⟨rfl, rfl, rfl⟩, ⟨rfl, rfl⟩,
    ⟨rfl, rfl⟩, ⟨rfl, rfl⟩⟩

/-- The four invariants and a next state: a signature byte in hand. -/
theorem test_meets_invariant_premises :
    StatusAgrees (started [0x89#8]) ∧ SpacesCanonical (started [0x89#8]) ∧
    WithinBounds (started [0x89#8]) ∧ ElementsWritten (started [0x89#8]) ∧
    (started [0x89#8]).engineTurn ∧
    step (started [0x89#8]) = .next (after (step (started [0x89#8]))) := by
  refine ⟨?_, ?_, ?_, ?_, rfl, next_after (by decide)⟩
  · constructor <;> decide
  · constructor <;> decide
  · constructor
    all_goals first
      | decide
      | exact fun h => absurd h (by decide)
      | (simp only [Memory.below]; decide)
  · constructor <;> first | decide | (simp only [Memory.writtenBelow]; decide)

/-- The same with every space written: DoneResultsAreDefined, StepKeepsElementsWritten. -/
theorem test_meets_DoneResultsAreDefined :
    StatusAgrees finished ∧ SpacesCanonical finished ∧ WithinBounds finished ∧
    ElementsWritten finished ∧ finished.eng.phase = .done ∧
    3 < finished.eng.chunkCount.toNat ∧ 0 < finished.eng.textCount.toNat ∧
    0 < finished.eng.idatBytes.toNat ∧ 2 < finished.eng.textBytes.toNat ∧
    0 < finished.width * finished.height ∧ step finished = .next (after (step finished)) := by
  refine ⟨?_, ?_, ?_, ?_, rfl, ?_, ?_, ?_, ?_, ?_, next_after (by decide)⟩
  · constructor <;> decide
  · constructor <;> decide
  · constructor
    all_goals first
      | decide
      | exact fun h => absurd h (by decide)
      | (simp only [Memory.below]; decide)
  · constructor <;> first | decide | (simp only [Memory.writtenBelow]; decide)
  all_goals decide

/-- A byte presented before and after end-of-stream, and end-of-stream itself. -/
theorem test_meets_StreamIsPresentedAndConsumedInOrder :
    let s := { State.reset with schedule := [.streamByte 7#8, .endOfStream] }
    let t := { started [] with schedule := [.streamByte 7#8] }
    (s.schedule = .streamByte 7#8 :: [.endOfStream] ∧ s.ports.streamEnded = false) ∧
    (t.schedule = .streamByte 7#8 :: [] ∧ t.ports.streamEnded = true) ∧
    (after (step s)).schedule = .endOfStream :: [] := by decide

theorem test_meets_EngineRestsOutsideADecode :
    State.reset.engineTurn ∧ State.reset.eng.phase = .idle ∧
    finished.engineTurn ∧ finished.eng.phase = .done ∧
    ((started []).raise .invalidSignature 0 0#32).engineTurn ∧
    ((started []).raise .invalidSignature 0 0#32).eng.phase = .error := by
  exact ⟨rfl, rfl, rfl, rfl, rfl, rfl⟩

/-- Waiting for a byte in each phase, and for an answer. -/
theorem test_meets_EngineWaitsForByteOrAnswer :
    ({ started [] with ports := Ports.reset } : State).engineTurn ∧
    (∀ s ∈ [started [], inPayload 33 1#32 1#32 codeIDAT [], inCrc 33 1#32 1#32 codeIEND 0#32 [],
        { started [] with eng := { (started []).eng with phase := .len } },
        { started [] with eng := { (started []).eng with phase := .type, fldK := 3 } }],
      let t := { s with ports := Ports.reset }
      ((t.eng.phase = .sig ∧ t.eng.sigK < 8) ∨ t.eng.phase = .len ∨
        (t.eng.phase = .type ∧ t.eng.fldK ≠ 4) ∨
        ((t.eng.phase = .payload ∨ t.eng.phase = .crc) ∧ t.eng.curType ∈ knownCodes)) ∧
      t.ports.stream = [] ∧ t.ports.streamEnded = false) ∧
    (let t : State := { answered none with ports := Ports.reset }
     t.eng.phase = .decomp ∧ t.eng.decPending = true ∧ t.ports.answer = none) := by
  refine ⟨rfl, ?_, rfl, rfl, rfl⟩
  decide

theorem test_meets_EndOfStreamInAChunkIsTruncated :
    ∀ s ∈ [inPayload 33 1#32 1#32 codeIDAT [], inCrc 33 1#32 1#32 codeIEND 0#32 [],
        { started [] with eng := { (started []).eng with phase := .len } },
        { started [] with eng := { (started []).eng with phase := .type, fldK := 3 } }],
      s.nextEvent = .engine ∧ s.ports.stream = [] ∧ s.ports.streamEnded = true ∧
      (s.eng.phase = .len ∨ (s.eng.phase = .type ∧ s.eng.fldK ≠ 4) ∨
        ((s.eng.phase = .payload ∨ s.eng.phase = .crc) ∧ s.eng.curType ∈ knownCodes)) := by
  decide

/-- A host read, a host write that is no command, and a CTRL write of bits 1:0 = 00. -/
theorem test_meets_ResultsAreFrozenInDone :
    ∀ e ∈ [Event.hostRead (.reg 4) 4, .hostWrite (.reg 4) 4 1#32, .hostWrite (.reg 0) 4 4#32],
      let s := { finished with schedule := [e] }
      s.eng.phase = .done ∧ goesOn (step s) = true ∧ s.nextEvent = e ∧
      e ≠ .hostWrite (.reg 0) 4 1#32 ∧ e ≠ .powerOnReset := by
  decide

theorem test_meets_HostReadsDoNotInfluenceTheBlock :
    SameBlock State.reset { State.reset with draws := 1, readData := some 5#32 } ∧
    step State.reset = .next (after (step State.reset)) :=
  ⟨⟨rfl, rfl, rfl, rfl, rfl, rfl, rfl⟩, next_after (by decide)⟩

theorem test_meets_StartBeginsADecodeUnlessBusy :
    finished.regs.status.getLsbD 0 = false ∧ (packing 0).regs.status.getLsbD 0 = true := by decide

/-- Each way a reset comes about. -/
theorem test_meets_ResetValues :
    State.reset = State.resetWith Params.standard ∧
    exec (.cmdSoftReset true 0#30) finished =
      .next (after (exec (.cmdSoftReset true 0#30) finished)) ∧
    (let s := { finished with schedule := [.powerOnReset] }
     s.schedule = .powerOnReset :: [] ∧ step s = .next (after (step s))) :=
  ⟨rfl, rfl, rfl, next_after (by decide)⟩

theorem test_meets_WhichReadsAreDefinedOutsideDone :
    StatusAgrees State.reset ∧ State.reset.eng.phase ≠ .done ∧
    4095 < State.reset.params.maxIdatBytes.toNat ∧ 4095 < State.reset.params.maxTextBytes.toNat ∧
    349524 < State.reset.params.maxReconBytes.toNat / 3 ∧
    63 < State.reset.params.maxChunks.toNat := by
  refine ⟨?_, ?_⟩
  · constructor <;> decide
  · decide

theorem test_meets_DoneReadsReturnTheResults :
    finished.regs.status = 0x00000002#32 ∧ StatusAgrees finished ∧
    (3 < finished.regs.chunkCount.toNat ∧ 3 < finished.params.maxChunks.toNat ∧
      Memory.read? finished.spaces.chunk 3 = some ⟨0#32, codeIEND, 0#32, 0#32⟩) ∧
    (0 < finished.regs.textCount.toNat ∧
      Memory.read? finished.spaces.textdir 0 = some ⟨2#32, 0#32, 1#32, 0#32⟩) ∧
    (0 < finished.regs.idatBytes.toNat ∧ Memory.read? finished.spaces.idat 0 = some 0x78#8) ∧
    (2 < finished.regs.textBytes.toNat ∧ 2 < finished.params.maxTextBytes.toNat ∧
      Memory.read? finished.spaces.text 2 = some 0#8) ∧
    (0 < finished.regs.pixelCount.toNat ∧ 0 < finished.params.maxReconBytes.toNat / 3 ∧
      Memory.read? finished.spaces.pixel 0 = some 0xFF332211#32) := by
  refine ⟨rfl, ?_, ?_⟩
  · constructor <;> decide
  · decide

theorem test_meets_BeyondASpaceReadsZero :
    finished.params.maxChunks.toNat ≤ 64 ∧ 3 < 4 ∧ finished.params.maxIdatBytes.toNat ≤ 4096 ∧
    finished.params.maxTextBytes.toNat ≤ 4096 ∧
    finished.params.maxReconBytes.toNat / 3 ≤ 349525 ∧ 256 ≤ 256 := by decide

/-- A defined read and an unspecified one. -/
theorem test_meets_HostReadReturnsAndChangesNothing :
    let s := { State.reset with schedule := [.hostRead (.reg 4) 4, .hostRead (.idat 0) 4] }
    s.schedule = .hostRead (.reg 4) 4 :: [.hostRead (.idat 0) 4] ∧
    (∀ o, HostAddr.reg 4 = .reg o → o % 4 = 0) ∧ s.hostValue (.reg 4) = some 0#32 ∧
    s.hostValue (.idat 0) = none := by
  refine ⟨rfl, ?_, rfl, rfl⟩
  intro o h
  cases h
  rfl

theorem test_meets_OtherHostWritesAreIgnored :
    let s := { State.reset with schedule := [.hostWrite (.reg 0xFC) 4 7#32] }
    s.schedule = .hostWrite (.reg 0xFC) 4 7#32 :: [] ∧ HostAddr.reg 0xFC ≠ .reg 0x00 ∧
    (∀ o, HostAddr.reg 0xFC = .reg o → o % 4 = 0) := by
  refine ⟨rfl, by decide, ?_⟩
  intro o h
  cases h
  rfl

theorem test_meets_SignatureIsAccepted :
    let s := started ([0x89#8, 0x50#8, 0x4E#8, 0x47#8, 0x0D#8, 0x0A#8, 0x1A#8, 0x0A#8] ++ [1#8])
    s.schedule = [] ∧ s.eng.phase = .sig ∧ s.eng.sigK = 0 ∧
    s.ports.stream =
      [0x89#8, 0x50#8, 0x4E#8, 0x47#8, 0x0D#8, 0x0A#8, 0x1A#8, 0x0A#8] ++ [1#8] := by decide

/-- The first byte matched, the eighth matched, a mismatch, and the end of the stream. -/
theorem test_meets_SignatureByteIsCompared :
    let l := [0x89#8, 0x50#8, 0x4E#8, 0x47#8, 0x0D#8, 0x0A#8, 0x1A#8, 0x0A#8]
    let s7 := { started [0x0A#8] with eng := { (started []).eng with sigK := 7 } }
    ((started [0x89#8]).eng.sigK = 0 ∧ l[0]? = some 0x89#8 ∧
      (started [0x89#8]).ports.stream = 0x89#8 :: [] ∧ 0 < 7) ∧
    (s7.eng.sigK = 7 ∧ l[7]? = some 0x0A#8 ∧ s7.ports.stream = 0x0A#8 :: []) ∧
    ((started [0x88#8]).eng.sigK = 0 ∧ (started [0x88#8]).ports.stream = 0x88#8 :: [] ∧
      (0x88#8 : Byte) ≠ 0x89#8) ∧
    ((started []).eng.sigK = 0 ∧ (started []).ports.stream = [] ∧
      (started []).ports.streamEnded = true) := by decide

theorem test_meets_ChunkHeaderIsAssembledBigEndian :
    let s := { started (be32Bytes 13#32 ++ be32Bytes codeIHDR ++ [0#8]) with
      eng := { (started []).eng with phase := .len } }
    s.schedule = [] ∧ s.eng.phase = .len ∧ s.eng.fldK = 0 ∧
    s.ports.stream = be32Bytes 13#32 ++ be32Bytes codeIHDR ++ [0#8] := by decide

/-- IHDR first; IDAT and tEXt filling their spaces to the last byte; an empty IDAT; the 64th chunk. -/
theorem test_meets_AdmittedChunkGoesOn :
    (let s := typed 8 0#32 13#32 codeIHDR []
     s.eng.phase = .type ∧ s.eng.chunkCount.toNat + 1 ≤ s.params.maxChunks.toNat ∧
     s.eng.chunkCount = 0#32 ∧ s.eng.curLen = 13#32) ∧
    (∀ len ∈ [0#32, 4#32],
     let s := { typed 33 63#32 len codeIDAT [] with
       params := { Params.standard with maxIdatBytes := 4#32 } }
     s.eng.phase = .type ∧ s.eng.chunkCount.toNat + 1 ≤ s.params.maxChunks.toNat ∧
     s.eng.chunkCount ≠ 0#32 ∧
     s.eng.idatBytes.toNat + s.eng.curLen.toNat ≤ s.params.maxIdatBytes.toNat) ∧
    (let s := { typed 33 63#32 3#32 codeTEXt [] with
       params := { Params.standard with maxTextBytes := 4#32 } }
     s.eng.phase = .type ∧ s.eng.chunkCount.toNat + 1 ≤ s.params.maxChunks.toNat ∧
     s.eng.chunkCount ≠ 0#32 ∧ s.eng.curLen ≠ 0#32 ∧
     s.eng.textBytes.toNat + s.eng.curLen.toNat + 1 ≤ s.params.maxTextBytes.toNat) ∧
    (let s := typed 33 63#32 0#32 codeIEND []
     s.eng.phase = .type ∧ s.eng.chunkCount ≠ 0#32 ∧ s.eng.curLen = 0#32) := by
  refine ⟨by decide, ?_, by decide, by decide⟩
  intro len h
  simp only [List.mem_cons, List.not_mem_nil, or_false] at h
  rcases h with rfl | rfl <;> decide

/-- No chunk yet; a second IHDR; a wrong length of each kind; the 65th chunk; one byte too many. -/
theorem test_meets_TypeChecksRaiseInOrder :
    (let s := typed 8 0#32 12#32 codeIHDR []
     s.eng.phase = .type ∧ s.eng.chunkCount = 0#32 ∧ s.eng.curLen ≠ 13#32) ∧
    (let s := typed 33 1#32 1#32 codeIEND []
     s.eng.phase = .type ∧ s.eng.chunkCount ≠ 0#32 ∧ s.eng.curLen ≠ 0#32) ∧
    (let s := { typed 8 0#32 13#32 codeIHDR [] with
       params := { Params.standard with maxChunks := 0#32 } }
     s.eng.phase = .type ∧ s.params.maxChunks.toNat < s.eng.chunkCount.toNat + 1 ∧
     s.eng.chunkCount = 0#32 ∧ s.eng.curLen = 13#32) ∧
    (let s := typed 33 64#32 0#32 codeIEND []
     s.eng.phase = .type ∧ s.params.maxChunks.toNat < s.eng.chunkCount.toNat + 1 ∧
     s.eng.chunkCount ≠ 0#32 ∧ s.eng.curLen = 0#32) ∧
    (let s := typed 33 1#32 4097#32 codeIDAT []
     s.eng.phase = .type ∧ s.eng.chunkCount ≠ 0#32 ∧
     s.params.maxIdatBytes.toNat < s.eng.idatBytes.toNat + s.eng.curLen.toNat) ∧
    (let s := typed 33 1#32 4096#32 codeTEXt []
     s.eng.phase = .type ∧ s.eng.chunkCount ≠ 0#32 ∧
     s.params.maxTextBytes.toNat < s.eng.textBytes.toNat + s.eng.curLen.toNat + 1) := by decide

/-- The byte before the last, the last of a 1x1 header, and the last of a header of width 0. -/
theorem test_meets_IhdrPayloadFillsTheHeader :
    let s := inPayload 8 0#32 13#32 codeIHDR [0#8]
    let s11 := { s with eng := { s.eng with curOff := 11 } }
    let s12 := { s with eng := { s.eng with
      hdrBuf := #v[0#8, 0#8, 0#8, 1#8, 0#8, 0#8, 0#8, 1#8, 8#8, 2#8, 0#8, 0#8, 0#8] } }
    (s11.eng.phase = .payload ∧ s11.eng.curLen = 13#32 ∧ s11.ports.stream = 0#8 :: [] ∧
      s11.eng.curOff < 12) ∧
    (s12.eng.phase = .payload ∧ s12.eng.curLen = 13#32 ∧ s12.ports.stream = 0#8 :: [] ∧
      s12.eng.curOff = 12 ∧
      1#32 = s12.eng.hdrBuf[0] ++ s12.eng.hdrBuf[1] ++ s12.eng.hdrBuf[2] ++ s12.eng.hdrBuf[3] ∧
      1#32 = s12.eng.hdrBuf[4] ++ s12.eng.hdrBuf[5] ++ s12.eng.hdrBuf[6] ++ s12.eng.hdrBuf[7] ∧
      1#32 ≠ 0#32) ∧
    (s.eng.curOff = 12 ∧
      0#32 = s.eng.hdrBuf[0] ++ s.eng.hdrBuf[1] ++ s.eng.hdrBuf[2] ++ s.eng.hdrBuf[3]) := by decide

/-- A byte in the middle and the last byte, with and without a 0x00 seen. -/
theorem test_meets_payload_statements :
    let s := inPayload 33 1#32 2#32 codeTEXt [0#8]
    let s0 := { s with eng := { s.eng with curOff := 0 } }
    let s1 := inPayload 33 1#32 2#32 codeTEXt [1#8]
    (s0.eng.phase = .payload ∧ s0.ports.stream = 0#8 :: [] ∧
      s0.eng.curOff + 1 < s0.eng.curLen.toNat) ∧
    (s.eng.phase = .payload ∧ s.ports.stream = 0#8 :: [] ∧
      s.eng.curLen.toNat ≤ s.eng.curOff + 1 ∧ (s.eng.zeroSeen || decide (0#8 = 0#8)) = true) ∧
    (s1.eng.phase = .payload ∧ s1.ports.stream = 1#8 :: [] ∧
      s1.eng.curLen.toNat ≤ s1.eng.curOff + 1 ∧
      (s1.eng.zeroSeen || decide (1#8 = 0#8)) = false) := by decide

theorem test_meets_EmptyTextIsMalformed :
    let s := typed 33 63#32 0#32 codeTEXt []
    s.eng.phase = .type ∧ s.eng.zeroSeen = false ∧ s.eng.curLen = 0#32 ∧
    s.eng.chunkCount ≠ 0#32 ∧ s.eng.chunkCount.toNat + 1 ≤ s.params.maxChunks.toNat ∧
    s.eng.textBytes.toNat + 1 ≤ s.params.maxTextBytes.toNat := by decide

theorem test_meets_crc_statements :
    let s := inCrc 33 1#32 1#32 codeIDAT 0x112233#32 [0x44#8]
    let s2 := { s with eng := { s.eng with fldK := 2 } }
    (s2.eng.phase = .crc ∧ s2.eng.fldK < 3 ∧ s2.ports.stream = 0x44#8 :: []) ∧
    (s.eng.phase = .crc ∧ s.eng.fldK = 3 ∧ s.ports.stream = 0x44#8 :: []) := by decide

theorem test_meets_IhdrChunkRuns :
    let s := typed 8 0#32 13#32 codeIHDR
      (be32Bytes 1#32 ++ be32Bytes 2#32 ++ [8#8, 2#8, 0#8, 0#8, 0#8] ++ be32Bytes 5#32 ++ [9#8])
    s.schedule = [] ∧ s.eng.phase = .type ∧ s.eng.fldK = 4 ∧ s.eng.curType = 0x49484452#32 ∧
    s.eng.curLen = 13#32 ∧ s.eng.curOff = 0 ∧ s.eng.chunkCount = 0#32 ∧
    1 ≤ s.params.maxChunks.toNat ∧ 1#32 ≠ 0#32 ∧ 2#32 ≠ 0#32 ∧
    s.ports.stream =
      be32Bytes 1#32 ++ be32Bytes 2#32 ++ [8#8, 2#8, 0#8, 0#8, 0#8] ++ be32Bytes 5#32 ++ [9#8] := by
  decide

theorem test_meets_IdatChunkRuns :
    ∀ p ∈ [[], [1#8, 2#8]],
      let s := typed 33 63#32 (BitVec.ofNat 32 p.length) codeIDAT (p ++ be32Bytes 5#32 ++ [9#8])
      s.schedule = [] ∧ s.eng.phase = .type ∧ s.eng.fldK = 4 ∧ s.eng.curType = 0x49444154#32 ∧
      p.length = s.eng.curLen.toNat ∧ s.eng.curOff = 0 ∧ s.eng.chunkCount ≠ 0#32 ∧
      s.eng.chunkCount.toNat + 1 ≤ s.params.maxChunks.toNat ∧
      s.eng.idatBytes.toNat + p.length ≤ s.params.maxIdatBytes.toNat ∧
      s.ports.stream = p ++ be32Bytes 5#32 ++ [9#8] := by
  decide

theorem test_meets_TextChunkRuns :
    let p := [0x6B#8, 0#8, 0x62#8, 0#8]
    let s := typed 33 1#32 4#32 codeTEXt (p ++ be32Bytes 5#32 ++ [9#8])
    s.schedule = [] ∧ s.eng.phase = .type ∧ s.eng.fldK = 4 ∧ s.eng.curType = 0x74455874#32 ∧
    p.length = s.eng.curLen.toNat ∧ s.eng.curOff = 0 ∧ s.eng.zeroSeen = false ∧
    s.eng.chunkCount ≠ 0#32 ∧ s.eng.textCount.toNat ≤ s.eng.chunkCount.toNat ∧
    s.eng.chunkCount.toNat + 1 ≤ s.params.maxChunks.toNat ∧
    s.eng.textBytes.toNat + p.length + 1 ≤ s.params.maxTextBytes.toNat ∧
    p[1]? = some 0#8 ∧ (∀ n < 1, p[n]? ≠ some 0#8) ∧
    s.ports.stream = p ++ be32Bytes 5#32 ++ [9#8] := by decide

/-- Both methods 0, and each of them 1. -/
theorem test_meets_MethodsMustBeZero :
    ((checked 0xFFFF#32 1#32 1#32).regs.hdrFmt.extractLsb' 16 8 = 0#8 ∧
      (checked 0xFFFF#32 1#32 1#32).regs.hdrFmt.extractLsb' 24 8 = 0#8) ∧
    (checked 0x00010208#32 1#32 1#32).regs.hdrFmt.extractLsb' 16 8 ≠ 0#8 ∧
    (checked 0x01000208#32 1#32 1#32).regs.hdrFmt.extractLsb' 24 8 ≠ 0#8 := by decide

/-- E = 14 for a capacity of 14 and of 13 (K8, K7). -/
theorem test_meets_SizeIsExactAndChecked :
    let s := checked 0x208#32 2#32 2#32
    14 = s.regs.hdrWidth.toNat * s.regs.hdrHeight.toNat * 3 + s.regs.hdrHeight.toNat ∧
    14 ≤ (14#32).toNat ∧ (13#32).toNat < 14 := by decide

theorem test_meets_DecompressIssuesTheRequest :
    let s := checked 0x208#32 1#32 1#32
    s.eng.decPending = false ∧ [0x78#8].length = s.eng.idatBytes.toNat ∧
    (∀ n (h : n < [0x78#8].length), Memory.read? s.spaces.idat n = some [0x78#8][n]) := by decide

/-- Exactly E bytes, one byte short, and Err. -/
theorem test_meets_AnswerMustHaveTheExpectedSize :
    (let s := answered (some [0#8, 1#8, 2#8, 3#8])
     s.eng.decPending = true ∧ s.ports.answer = some (some [0#8, 1#8, 2#8, 3#8]) ∧
     [0#8, 1#8, 2#8, 3#8].length = s.eng.expSize) ∧
    (let s := answered (some [0#8, 1#8, 2#8])
     s.ports.answer = some (some [0#8, 1#8, 2#8]) ∧ [0#8, 1#8, 2#8].length ≠ s.eng.expSize) ∧
    (answered none).ports.answer = some none := by decide

theorem test_meets_LateAnswersAreDiscarded :
    (let s := { State.reset with schedule := [.decompressorAnswers] }
     s.schedule = .decompressorAnswers :: [] ∧ s.eng.decPending = false) ∧
    (let s := { answered none with
       schedule := [.decompressorAnswers], ports := { (answered none).ports with answer := none } }
     s.schedule = .decompressorAnswers :: [] ∧ s.eng.decPending = true ∧
     s.ports.request = some ⟨[0x78#8], 4⟩ ∧ s.ports.answer = none) := by decide

/-- The first byte of a row, the last byte of a row, and the last byte of the last row. -/
theorem test_meets_FilterWritesOneByte :
    (let s := scanlines 1#32 2#32 [0#8, 1#8, 2#8, 3#8, 4#8, 5#8, 6#8, 7#8]
     s.eng.row.toNat = 0 ∧ s.eng.col.toNat = 0 ∧ 0 + 1 < 3 * s.regs.hdrWidth.toNat ∧
     1#8 = s.filtered 0 0 ∧ 0#8 = s.neighbourA 0 0 ∧ 0#8 = s.neighbourB 0 0 ∧
     0#8 = s.neighbourC 0 0) ∧
    (let s := filtering 1#8 0x80#8 0x80#8 0x11#8 0x22#8
     s.eng.row.toNat = 1 ∧ s.eng.col.toNat = 3 ∧ 0x80#8 = s.filtered 1 3 ∧
     0x80#8 = s.neighbourA 1 3 ∧ 0x11#8 = s.neighbourB 1 3 ∧ 0x22#8 = s.neighbourC 1 3) := by
  decide

theorem test_meets_PaethPicksTheNearestNeighbour : 5#8 = paethPredictor 10#8 5#8 200#8 := by
  decide

/-- Row 0, byte 0: every neighbour reads 0. -/
theorem test_meets_ZeroNeighboursLeaveTheByte :
    let s := scanlines 1#32 1#32 [4#8, 1#8, 2#8, 3#8]
    s.eng.row.toNat = 0 ∧ s.eng.col.toNat = 0 ∧
    s.neighbourA 0 0 = 0#8 ∧ s.neighbourB 0 0 = 0#8 ∧ s.neighbourC 0 0 = 0#8 := by decide

theorem test_meets_PackWritesOnePixel :
    let s := packing 0
    s.eng.packIdx = 0 ∧ 0 < s.regs.hdrWidth.toNat * s.regs.hdrHeight.toNat ∧
    0 = 0 % s.regs.hdrWidth.toNat ∧ 0 = 0 / s.regs.hdrWidth.toNat ∧ 0x11#8 = s.reconByte 0 0 ∧
    0x22#8 = s.reconByte 0 1 ∧ 0x33#8 = s.reconByte 0 2 := by decide

theorem test_meets_PackEndsInDone :
    (packing 1).regs.hdrWidth.toNat * (packing 1).regs.hdrHeight.toNat ≤ (packing 1).eng.packIdx := by
  decide

theorem test_meets_RowLoopReconstructsTheImage :
    let d := [0#8, 1#8, 2#8, 3#8, 4#8, 5#8, 6#8, 7#8]
    let s := scanlines 1#32 2#32 d
    s.schedule = [] ∧ s.eng.phase = .filter ∧ s.eng.row = 0#32 ∧ s.eng.col = 0#32 ∧
    1 = s.regs.hdrWidth.toNat ∧ 2 = s.regs.hdrHeight.toNat ∧ d.length = 1 * 2 * 3 + 2 ∧
    d.length < 2 ^ 32 ∧
    (∀ n (hn : n < d.length), Memory.read? s.spaces.decompBuf n = some d[n]) ∧
    (∀ i < 2, ∃ ft, d[i * (3 * 1 + 1)]? = some ft ∧ ft.toNat ≤ 4) := by
  refine ⟨rfl, rfl, rfl, rfl, rfl, rfl, rfl, by decide, by decide, ?_⟩
  intro i hi
  interval_cases i
  · exact ⟨0#8, rfl, by decide⟩
  · exact ⟨4#8, rfl, by decide⟩

/-- V34: row 0 valid, row 1 with filter type 5. -/
theorem test_meets_LowestBadRowIsReported :
    let d := [0#8, 1#8, 2#8, 3#8, 5#8, 0#8, 0#8, 0#8]
    let s := scanlines 1#32 2#32 d
    s.schedule = [] ∧ s.eng.phase = .filter ∧ s.eng.row = 0#32 ∧ s.eng.col = 0#32 ∧
    1 = s.regs.hdrWidth.toNat ∧ 2 = s.regs.hdrHeight.toNat ∧ d.length = 1 * 2 * 3 + 2 ∧
    d.length < 2 ^ 32 ∧
    (∀ n (hn : n < d.length), Memory.read? s.spaces.decompBuf n = some d[n]) ∧
    (∀ i < 1, ∃ ft, d[i * (3 * 1 + 1)]? = some ft ∧ ft.toNat ≤ 4) ∧
    (∃ ft, d[1 * (3 * 1 + 1)]? = some ft ∧ 4 < ft.toNat) := by
  refine ⟨rfl, rfl, rfl, rfl, rfl, rfl, rfl, by decide, by decide, ?_, 5#8, rfl, by decide⟩
  intro i hi
  interval_cases i
  exact ⟨0#8, rfl, by decide⟩

theorem test_meets_PackPhasePacksEveryPixel :
    let s := packing 0
    s.schedule = [] ∧ s.eng.phase = .pack ∧ s.eng.packIdx = 0 ∧ 1 = s.regs.hdrWidth.toNat ∧
    1 = s.regs.hdrHeight.toNat ∧
    (∀ i < 1, ∀ j < 3 * 1, Memory.read? s.spaces.recon (i * (3 * 1) + j) =
      some (BitVec.ofNat 8 (17 * (j + 1)))) := by decide

/-- A 1x2 image in two IDAT chunks, one of them empty, with a byte left after IEND. -/
theorem test_meets_RoundTripReturnsTheImage :
    let px : Nat → Nat → Byte × Byte × Byte := fun x y =>
      (BitVec.ofNat 8 x, BitVec.ofNat 8 y, 7#8)
    let idats : List (List Byte × Word) := [([1#8, 2#8], 5#32), ([], 6#32)]
    let n := (imageStream 1#32 2#32 8#8 2#8 0#8 3#32 4#32 idats).length + (2 + 2) + 3
    let s : State := { State.reset with
      params := { Params.standard with
        decompressTable := [⟨[1#8, 2#8], 8, some (filterZeroRows 1 2 px)⟩] }
      eng := { Engine.reset with phase := .sig }
      ports := { Ports.reset with
        stream := imageStream 1#32 2#32 8#8 2#8 0#8 3#32 4#32 idats ++ [9#8] }
      schedule := List.replicate n .engine ++ [.decompressorAnswers] }
    s.eng = { Engine.reset with phase := .sig } ∧
    (1#32).toNat * (2#32).toNat * 3 + (2#32).toNat ≤ s.params.maxReconBytes.toNat ∧
    idats.length + 2 ≤ s.params.maxChunks.toNat ∧
    (idats.flatMap Prod.fst).length ≤ s.params.maxIdatBytes.toNat ∧
    s.ports.stream = imageStream 1#32 2#32 8#8 2#8 0#8 3#32 4#32 idats ++ [9#8] ∧
    decompressAnswer s.params (idats.flatMap Prod.fst) ((1#32).toNat * (2#32).toNat * 3 + 2) =
      some (filterZeroRows 1 2 px) ∧
    s.schedule = List.replicate n .engine ++ [.decompressorAnswers] :=
  ⟨rfl, by decide, by decide, by decide, rfl, rfl, rfl⟩

end Sys2Proof.Tests
end

section
namespace Sys2Proof.Machine

/-! ## The event taken is no part of the block -/

theorem StatusAgrees.takeTurn {s : State} (h : StatusAgrees s) : StatusAgrees s.takeTurn :=
  { h with }

/-! ## Chunk completion -/

section
variable (ty : Word) (s : State)

@[simp] theorem State.chunkComplete_params :
    (State.chunkComplete ty s).params = s.params := by simp [State.chunkComplete]
@[simp] theorem State.chunkComplete_regs :
    (State.chunkComplete ty s).regs = s.regs := by simp [State.chunkComplete]
@[simp] theorem State.chunkComplete_ports :
    (State.chunkComplete ty s).ports = s.ports := by simp [State.chunkComplete]

/-- After IEND the parse is over (40_container_parser.md R114). -/
theorem chunkComplete_iend : State.chunkComplete codeIEND s =
    { (State.writeRecord codeIEND s).countChunk with
      eng := { s.eng with
        chunkCount := s.eng.chunkCount + 1#32, phase := .check, stage := .method } } := rfl

/-- After any other chunk the next one begins, behind what the type adds (R111). -/
theorem chunkComplete_of_ne_iend (h : ty ≠ codeIEND) : State.chunkComplete ty s =
    (State.commitType ty (State.writeRecord ty s)).countChunk.chunkBoundary := if_neg h

@[simp] theorem State.commitType_err : (State.commitType ty s).eng.err = s.eng.err := by
  unfold State.commitType; repeat' split
  all_goals rfl
@[simp] theorem State.commitType_decPending :
    (State.commitType ty s).eng.decPending = s.eng.decPending := by
  unfold State.commitType; repeat' split
  all_goals rfl
@[simp] theorem State.commitType_pos : (State.commitType ty s).eng.pos = s.eng.pos := by
  unfold State.commitType; repeat' split
  all_goals rfl

@[simp] theorem State.chunkComplete_err : (State.chunkComplete ty s).eng.err = s.eng.err := by
  by_cases h : ty = codeIEND
  · subst h; rfl
  · simp [chunkComplete_of_ne_iend _ _ h]
@[simp] theorem State.chunkComplete_decPending :
    (State.chunkComplete ty s).eng.decPending = s.eng.decPending := by
  by_cases h : ty = codeIEND
  · subst h; rfl
  · simp [chunkComplete_of_ne_iend _ _ h]
@[simp] theorem State.chunkComplete_pos : (State.chunkComplete ty s).eng.pos = s.eng.pos := by
  by_cases h : ty = codeIEND
  · subst h; rfl
  · simp [chunkComplete_of_ne_iend _ _ h]
@[simp] theorem State.chunkComplete_phase : (State.chunkComplete ty s).eng.phase =
    if ty = codeIEND then .check else .len := by
  by_cases h : ty = codeIEND
  · subst h; rfl
  · simp [chunkComplete_of_ne_iend _ _ h, h]

end

/-! ## The row loop -/

/-- The row loop's advance (41_scanline_reconstructor.md R135): within the row, to the next row, or
to PACK after the last byte. -/
theorem advance_cases (s : State) :
    (s.eng.col.toNat + 1 < s.stride ∧
      s.advance = { s with eng := { s.eng with col := s.eng.col + 1#32 } }) ∨
    (s.eng.row.toNat + 1 < s.height ∧
      s.advance = { s with eng := { s.eng with row := s.eng.row + 1#32, col := 0#32 } }) ∨
    s.advance = { s with eng := { s.eng with phase := .pack, packIdx := 0 } } := by
  unfold State.advance
  split
  next hc => exact .inl ⟨hc, rfl⟩
  next =>
    split
    next hr => exact .inr (.inl ⟨hr, rfl⟩)
    next => exact .inr (.inr rfl)

/-! ## Phases -/

/-- STATUS.BUSY shows the BUSY phases (10_state.md R23, R34). -/
theorem StatusAgrees.busy_eq {s : State} (h : StatusAgrees s) : s.regs.busy = s.eng.phase.busy := by
  rw [Regs.busy, h.status]
  cases s.eng.phase <;> cases s.eng.err.kind <;> rfl

/-- A move of the engine is a legal transition. -/
theorem Moved.legalTransition {s t : State} (hs : StatusAgrees s) (h : Moved s t) :
    LegalTransition s t := by
  have hpend := hs.pending
  unfold LegalTransition
  cases h with
  | wait => exact .inl rfl
  | raise k o i hk hb hd => simp [hb]
  | sigEnd h hk => simp [h]
  | sigByte h hk b rest hr => simp [h, State.countSig]
  | sigLast h hk b rest hr => simp [h]
  | sigRaise h b rest hr o i => simp [h, Phase.busy]
  | lenByte h b rest hr => by_cases hk : 3 ≤ s.eng.fldK <;> simp [h, hk]
  | typeByte h hk b rest hr => simp
  | payloadBegins h hk hty hc hl => simp [h, hl]
  | payloadEmpty h hk hty hc hl hz => simp [h, hl]
  | payloadByte h hty b rest hr hl => simp
  | payloadRaise h hty b rest hr o i => simp [h, Phase.busy]
  | payloadLast h hty hne b rest hr hl => simp [h]
  | headerLast h hty b rest hr hl hw hh => simp [h]
  | crcByte h hty b rest hr hk => simp [State.takeCrcByte]
  | crcLast h hty b rest hr hk => by_cases hc : s.eng.curType = codeIEND <;> simp [h, hc]
  | methodsZero h hst hc hf => simp
  | sizeRaise h hst hl => simp [h, Phase.busy]
  | sizeFits h hst hl => simp
  | request h hp => rcases h with ⟨h, -⟩ | h <;> simp [h]
  | answerRaise h hp => simp [hpend.1 hp, Phase.busy]
  | answer h hp d ha hd => simp [hpend.1 hp]
  | recon h p =>
    rcases advance_cases (State.writeRecon p s) with ⟨-, e⟩ | ⟨-, e⟩ | e <;>
      simp [State.reconstruct, e, h]
  | pixel h hn => simp
  | done h hn => simp [h]

/-- An event at the block's boundary is a legal transition: only START and the resets move the
phase. -/
theorem Outside.legalTransition {s t : State} (hs : StatusAgrees s) (h : Outside s t) :
    LegalTransition s t := by
  unfold LegalTransition
  cases h with
  | start h => exact .inr (.inr (.inr (.inl ⟨by rw [← hs.busy_eq, h], rfl⟩)))
  | reset => exact .inr (.inl rfl)
  | nothing | read _ _ | streamByte _ | endOfStream | answered => exact .inl (by simp)

/-- Settles O8: the engine's moves and the boundary's events, case by case. -/
theorem onlyLegalPhaseTransitions : Obligations.OnlyLegalPhaseTransitions := by
  intro s t hs h
  have hs' := hs.takeTurn
  exact (step_moved h).elim (Moved.legalTransition hs') (Outside.legalTransition hs')

end Sys2Proof.Machine
end

section
namespace Sys2Proof.Machine

/-! ## The decompression port and the registers of a decode under way -/

/-- No request outstanding and no answer waiting. -/
structure PortIdle (s : State) : Prop where
  pending : s.eng.decPending = false
  request : s.ports.request = none
  answer : s.ports.answer = none

/-- What the registers show while a decode is under way: BUSY, no error, no position (10_state.md
R34 to R37). -/
structure BusyShown (s : State) : Prop where
  status : s.regs.status = statusBusy
  kind : s.eng.err.kind = .none
  errOffset : s.regs.errOffset = 0#32
  errIndex : s.regs.errIndex = 0#32
  streamPos : s.regs.streamPos = 0#32

/-- Outside DECOMP the port is idle (10_state.md R30, R48). -/
theorem StatusAgrees.portIdle {s : State} (h : StatusAgrees s) (hd : s.eng.phase ≠ .decomp) :
    PortIdle s := by
  have hp : s.eng.decPending = false := by simpa using fun e => hd (h.pending.1 e)
  refine ⟨hp, ?_, ?_⟩
  · simpa [hp] using h.request
  · simpa [hp] using h.answer

theorem StatusAgrees.busyShown {s : State} (h : StatusAgrees s) (hb : s.eng.phase.busy = true) :
    BusyShown s := by
  have he : s.eng.phase ≠ .error := by rintro e; simp [e, Phase.busy] at hb
  have hd : s.eng.phase ≠ .done := by rintro e; simp [e, Phase.busy] at hb
  refine ⟨?_, by_contra fun hk => he (h.kind.2 hk), ?_, ?_, ?_⟩
  · rw [h.status]
    revert hb
    cases s.eng.phase <;> simp [statusOf, Phase.busy]
  · simpa [he] using h.errOffset
  · simpa [he] using h.errIndex
  · simpa [he, hd] using h.streamPos

/-- In a BUSY phase other than DECOMP that is all there is to agree. -/
theorem BusyShown.statusAgrees {s : State} (h : BusyShown s) (hp : PortIdle s)
    (hb : s.eng.phase.busy = true) (hd : s.eng.phase ≠ .decomp) : StatusAgrees s := by
  have he : s.eng.phase ≠ .error := by rintro e; simp [e, Phase.busy] at hb
  have hn : s.eng.phase ≠ .done := by rintro e; simp [e, Phase.busy] at hb
  refine ⟨?_, by simp [he, h.kind], by simp [he, h.errOffset], by simp [he, h.errIndex],
    by simp [he, hn, h.streamPos], by simp [hd, hp.pending], by simp [hp.request, hp.pending],
    by simp [hp.answer]⟩
  rw [h.status]
  revert hb
  cases s.eng.phase <;> simp [statusOf, Phase.busy]

/-- Error entry with the port idle (60_exceptions.md R175). -/
theorem PortIdle.statusAgrees_raise {s : State} (h : PortIdle s) {k : ErrKind} (o : Nat)
    (i : Word) (hk : k ≠ .none) : StatusAgrees (State.raise k o i s) where
  status := rfl
  kind := by simp [hk]
  errOffset := by simp
  errIndex := by simp
  streamPos := by simp
  pending := by simp [h.pending]
  request := by simp [h.request, h.pending]
  answer := by simp [h.answer]

theorem PortIdle.consume {s : State} (h : PortIdle s) (rest : List Byte) :
    PortIdle (State.consume rest s) := { h with }

theorem PortIdle.takePayloadByte {s : State} (h : PortIdle s) (b : Byte) (rest : List Byte) :
    PortIdle (State.takePayloadByte b rest s) :=
  ⟨by simp [h.pending], by simp [h.request], by simp [h.answer]⟩

theorem BusyShown.takePayloadByte {s : State} (h : BusyShown s) (b : Byte) (rest : List Byte) :
    BusyShown (State.takePayloadByte b rest s) :=
  ⟨by simp [h.status], by simp [h.kind], by simp [h.errOffset], by simp [h.errIndex],
    by simp [h.streamPos]⟩

theorem PortIdle.chunkComplete {s : State} (h : PortIdle s) (ty : Word) :
    PortIdle (State.chunkComplete ty s) :=
  ⟨by simp [h.pending], by simp [h.request], by simp [h.answer]⟩

theorem BusyShown.chunkComplete {s : State} (h : BusyShown s) (ty : Word) :
    BusyShown (State.chunkComplete ty s) :=
  ⟨by simp [h.status], by simp [h.kind], by simp [h.errOffset], by simp [h.errIndex],
    by simp [h.streamPos]⟩

/-- Issuing the request (41_scanline_reconstructor.md R133). -/
theorem BusyShown.statusAgrees_issueRequest {s : State} (h : BusyShown s) :
    StatusAgrees s.issueRequest where
  status := h.status
  kind := by simp [h.kind]
  errOffset := by simp [h.errOffset]
  errIndex := by simp [h.errIndex]
  streamPos := by simp [h.streamPos]
  pending := by simp
  request := by simp
  answer := by simp

/-- DONE entry (R148). -/
theorem BusyShown.statusAgrees_enterDone {s : State} (h : BusyShown s) (hp : PortIdle s) :
    StatusAgrees s.enterDone where
  status := rfl
  kind := by simp [h.kind]
  errOffset := by simp [h.errOffset]
  errIndex := by simp [h.errIndex]
  streamPos := by simp
  pending := by simp [hp.pending]
  request := by simp [hp.request, hp.pending]
  answer := by simp [hp.answer]

/-- Taking the answer empties the port (R134). -/
theorem portIdle_takeAnswer (s : State) : PortIdle s.takeAnswer := ⟨rfl, rfl, rfl⟩

theorem Phase.busy_of_request {s : State}
    (h : (s.eng.phase = .check ∧ s.eng.stage = .request) ∨ s.eng.phase = .decomp) :
    s.eng.phase.busy = true := by
  rcases h with ⟨h, -⟩ | h <;> rw [h] <;> rfl

/-- The engine's moves keep the agreement. -/
theorem Moved.statusAgrees {s t : State} (hs : StatusAgrees s) (h : Moved s t) :
    StatusAgrees t := by
  /- In a phase other than DECOMP the port is idle before the move, and the registers show BUSY. -/
  have hb {p : Phase} (h : s.eng.phase = p) (hp : p.busy = true) : BusyShown s :=
    hs.busyShown (busy_of_phase h hp)
  have hi {p : Phase} (h : s.eng.phase = p) (hp : p ≠ .decomp) : PortIdle s :=
    hs.portIdle (by rw [h]; exact hp)
  cases h with
  | wait => exact hs
  | raise k o i hk hb hd => exact (hs.portIdle hd).statusAgrees_raise o i hk
  | sigEnd h hk =>
    exact BusyShown.statusAgrees { hb h rfl with } { hi h nofun with } rfl nofun
  | sigByte h hk b rest hr =>
    exact BusyShown.statusAgrees { hb h rfl with } { hi h nofun with }
      (busy_of_phase (s := s) h rfl) (by simp [h, State.countSig])
  | sigLast h hk b rest hr =>
    exact BusyShown.statusAgrees { hb h rfl with } { hi h nofun with } rfl nofun
  | sigRaise h b rest hr o i => exact ((hi h nofun).consume rest).statusAgrees_raise o i (by decide)
  | lenByte h b rest hr =>
    refine BusyShown.statusAgrees { hb h rfl with } { hi h nofun with } ?_ ?_
    all_goals by_cases hk : 3 ≤ s.eng.fldK <;> simp [hk, Phase.busy]
  | typeByte h hk b rest hr =>
    exact BusyShown.statusAgrees { hb h rfl with } { hi h nofun with }
      (busy_of_phase (s := s) h rfl) (by simp [h])
  | payloadBegins h hk hty hc hl =>
    exact BusyShown.statusAgrees { hb h rfl with } { hi h nofun with } rfl nofun
  | payloadEmpty h hk hty hc hl hz =>
    exact BusyShown.statusAgrees { hb h rfl with } { hi h nofun with } rfl nofun
  | payloadByte h hty b rest hr hl =>
    exact ((hb h rfl).takePayloadByte b rest).statusAgrees ((hi h nofun).takePayloadByte b rest)
      (by simp [h, Phase.busy]) (by simp [h])
  | payloadRaise h hty b rest hr o i =>
    exact ((hi h nofun).takePayloadByte b rest).statusAgrees_raise o i (by decide)
  | payloadLast h hty hne b rest hr hl =>
    exact BusyShown.statusAgrees { (hb h rfl).takePayloadByte b rest with }
      { (hi h nofun).takePayloadByte b rest with } rfl nofun
  | headerLast h hty b rest hr hl hw hh =>
    exact BusyShown.statusAgrees { (hb h rfl).takePayloadByte b rest with }
      { (hi h nofun).takePayloadByte b rest with } rfl nofun
  | crcByte h hty b rest hr hk =>
    exact BusyShown.statusAgrees { hb h rfl with } { hi h nofun with }
      (busy_of_phase (s := s) h rfl) (by simp [h, State.takeCrcByte])
  | crcLast h hty b rest hr hk =>
    have hb' : BusyShown (State.takeCrcByte b (State.consume rest s)) := { hb h rfl with }
    have hi' : PortIdle (State.takeCrcByte b (State.consume rest s)) := { hi h nofun with }
    refine (hb'.chunkComplete _).statusAgrees (hi'.chunkComplete _) ?_ ?_
    all_goals by_cases hc : s.eng.curType = codeIEND <;> simp [hc, Phase.busy]
  | methodsZero h hst hc hf =>
    exact BusyShown.statusAgrees { hb h rfl with } { hi h nofun with }
      (busy_of_phase (s := s) h rfl) (by simp [h])
  | sizeRaise h hst hl =>
    exact PortIdle.statusAgrees_raise (s := s.setExpectedSize) { hi h nofun with } _ _ (by decide)
  | sizeFits h hst hl =>
    exact BusyShown.statusAgrees { hb h rfl with } { hi h nofun with }
      (busy_of_phase (s := s) h rfl) (by simp [h])
  | request h hp => exact (hs.busyShown (Phase.busy_of_request h)).statusAgrees_issueRequest
  | answerRaise h hp => exact (portIdle_takeAnswer s).statusAgrees_raise _ _ (by decide)
  | answer h hp d ha hd =>
    exact BusyShown.statusAgrees { hs.busyShown (Phase.busy_of_request h) with }
      { portIdle_takeAnswer s with } rfl nofun
  | recon h p =>
    have hb' := hb h rfl
    have hi' := hi h nofun
    rw [State.reconstruct]
    rcases advance_cases (State.writeRecon p s) with ⟨-, e⟩ | ⟨-, e⟩ | e <;> rw [e]
    · exact BusyShown.statusAgrees { hb' with } { hi' with }
        (busy_of_phase (s := s) h rfl) (by simp [h])
    · exact BusyShown.statusAgrees { hb' with } { hi' with }
        (busy_of_phase (s := s) h rfl) (by simp [h])
    · exact BusyShown.statusAgrees { hb' with } { hi' with } rfl nofun
  | pixel h hn =>
    exact BusyShown.statusAgrees { hb h rfl with } { hi h nofun with }
      (busy_of_phase (s := s) h rfl) (by simp [h])
  | done h hn => exact (hb h rfl).statusAgrees_enterDone (hi h nofun)

/-- The reset values agree (10_state.md R51). -/
theorem statusAgrees_of_reset {s : State} (he : s.eng = Engine.reset) (hr : s.regs = Regs.reset)
    (hp : s.ports = Ports.reset) : StatusAgrees s where
  status := by rw [hr, he]; rfl
  kind := by rw [he]; decide
  errOffset := by rw [hr, he]; rfl
  errIndex := by rw [hr, he]; rfl
  streamPos := by rw [hr, he]; rfl
  pending := by rw [he]; decide
  request := by rw [hp, he]; rfl
  answer := by rw [hp, he]; decide

/-- An answer is put at the port only while a request is outstanding (60_exceptions.md R183,
R184). -/
theorem decompressorAnswers_cases (s : State) :
    s.decompressorAnswers = s ∨
    (s.eng.decPending = true ∧ ∃ r, s.decompressorAnswers =
      { s with ports := { s.ports with answer := some r } }) := by
  unfold State.decompressorAnswers
  split
  next hp _ _ => exact .inr ⟨hp, _, rfl⟩
  next => exact .inl rfl

/-- Presenting a byte changes at most the stream (20_memory.md R60). -/
theorem presentByte_cases (s : State) (b : Byte) :
    State.presentByte b s = s ∨ State.presentByte b s =
      { s with ports := { s.ports with stream := s.ports.stream ++ [b] } } := by
  unfold State.presentByte
  split
  · exact .inl rfl
  · exact .inr rfl

/-- The boundary's events keep the agreement. -/
theorem Outside.statusAgrees {s t : State} (hs : StatusAgrees s) (h : Outside s t) :
    StatusAgrees t := by
  cases h with
  | nothing => exact hs
  | start h => exact BusyShown.statusAgrees ⟨rfl, rfl, rfl, rfl, rfl⟩ ⟨rfl, rfl, rfl⟩ rfl nofun
  | reset => exact statusAgrees_of_reset rfl rfl rfl
  | read a v =>
    exact ⟨by simp [hs.status], by simp [hs.kind], by simp [hs.errOffset], by simp [hs.errIndex],
      by simp [hs.streamPos], by simp [hs.pending], by simp [hs.request], by simpa using hs.answer⟩
  | streamByte b => rcases presentByte_cases s b with e | e <;> rw [e] <;> exact { hs with }
  | endOfStream => exact { hs with }
  | answered =>
    rcases decompressorAnswers_cases s with e | ⟨hp, r, e⟩
    · rw [e]; exact hs
    · rw [e]; exact { hs with answer := fun _ => hp }

/-- Settles O12: the engine's moves and the boundary's events, case by case. -/
theorem stepKeepsStatusAgreement : Obligations.StepKeepsStatusAgreement := by
  intro s t hs h
  have hs' := hs.takeTurn
  exact (step_moved h).elim (Moved.statusAgrees hs') (Outside.statusAgrees hs')

end Sys2Proof.Machine
end

section
/-! ## The bounds, by what they speak of: the counters, the spaces, and the place the phase gives -/

namespace Sys2Proof.Machine

/-- A valid header stands in the registers (10_state.md R22, R33). -/
def HeaderKnown (s : State) : Prop := s.eng.hdrValid = true ∧ 0 < s.width ∧ 0 < s.height

theorem HeaderKnown.width {s : State} (h : HeaderKnown s) : 0 < s.width := h.2.1
theorem HeaderKnown.height {s : State} (h : HeaderKnown s) : 0 < s.height := h.2.2

/-- E has been computed, fits and is shown (41_scanline_reconstructor.md R131, R132). -/
def SizeKnown (s : State) : Prop :=
  s.eng.expSize = s.expectedSize ∧ s.expectedSize ≤ s.params.maxReconBytes.toNat ∧
  s.regs.expSize.toNat = s.expectedSize

theorem SizeKnown.engine {s : State} (h : SizeKnown s) : s.eng.expSize = s.expectedSize := h.1
theorem SizeKnown.fits {s : State} (h : SizeKnown s) :
    s.expectedSize ≤ s.params.maxReconBytes.toNat := h.2.1

/-- The part of `WithinBounds` that speaks of counters, in every phase. -/
structure CountersBounded (s : State) : Prop where
  params : s.params.wf
  sigK : s.eng.sigK ≤ 8
  fldK : s.eng.fldK ≤ 4
  chunks : s.eng.chunkCount.toNat ≤ s.params.maxChunks.toNat
  idatBytes : s.eng.idatBytes.toNat ≤ s.params.maxIdatBytes.toNat
  textBytes : s.eng.textBytes.toNat ≤ s.params.maxTextBytes.toNat
  textCount : s.eng.textCount.toNat ≤ s.eng.chunkCount.toNat
  header : 0 < s.eng.chunkCount.toNat → HeaderKnown s

/-- The part of `WithinBounds` that speaks of the spaces. -/
structure SpacesBounded (s : State) : Prop where
  chunk : Memory.below s.spaces.chunk s.params.maxChunks.toNat
  idat : Memory.below s.spaces.idat s.params.maxIdatBytes.toNat
  text : Memory.below s.spaces.text s.params.maxTextBytes.toNat
  textdir : Memory.below s.spaces.textdir s.params.maxChunks.toNat
  pixel : Memory.below s.spaces.pixel (s.params.maxReconBytes.toNat / 3)
  decompBuf : Memory.below s.spaces.decompBuf s.params.maxReconBytes.toNat
  recon : Memory.below s.spaces.recon s.params.maxReconBytes.toNat

/-- No payload byte of the chunk in hand has been taken. -/
def NothingTaken (s : State) : Prop :=
  s.eng.curOff = 0 ∧ s.eng.zeroSeen = false ∧ s.eng.keyLen = 0#32

/-- The part of `WithinBounds` that depends on the phase. -/
def PlaceBounded (s : State) : Prop :=
  match s.eng.phase with
  | .idle | .error => True
  | .sig => s.eng.sigK < 8
  | .len => s.eng.fldK < 4 ∧ NothingTaken s
  | .type => NothingTaken s
  | .payload => ChunkAdmitted s ∧ s.eng.curOff < s.eng.curLen.toNat
  | .crc => s.eng.fldK < 4 ∧ ChunkAdmitted s ∧ HeaderKnown s
  | .check => 0 < s.eng.chunkCount.toNat ∧ (s.eng.stage = .request → SizeKnown s)
  | .decomp | .done => 0 < s.eng.chunkCount.toNat ∧ SizeKnown s
  | .filter => 0 < s.eng.chunkCount.toNat ∧ SizeKnown s ∧
      s.eng.row.toNat < s.height ∧ s.eng.col.toNat < s.stride
  | .pack => 0 < s.eng.chunkCount.toNat ∧ SizeKnown s ∧ s.eng.packIdx ≤ s.width * s.height

section
variable {s : State}

theorem placeBounded_error (h : s.eng.phase = .error) : PlaceBounded s := by
  simp [PlaceBounded, h]
theorem placeBounded_sig (h : s.eng.phase = .sig) : PlaceBounded s ↔ s.eng.sigK < 8 := by
  simp [PlaceBounded, h]
theorem placeBounded_len (h : s.eng.phase = .len) :
    PlaceBounded s ↔ s.eng.fldK < 4 ∧ NothingTaken s := by simp [PlaceBounded, h]
theorem placeBounded_type (h : s.eng.phase = .type) : PlaceBounded s ↔ NothingTaken s := by
  simp [PlaceBounded, h]
theorem placeBounded_payload (h : s.eng.phase = .payload) :
    PlaceBounded s ↔ ChunkAdmitted s ∧ s.eng.curOff < s.eng.curLen.toNat := by
  simp [PlaceBounded, h]
theorem placeBounded_crc (h : s.eng.phase = .crc) :
    PlaceBounded s ↔ s.eng.fldK < 4 ∧ ChunkAdmitted s ∧ HeaderKnown s := by
  simp [PlaceBounded, h]
theorem placeBounded_check (h : s.eng.phase = .check) :
    PlaceBounded s ↔
      0 < s.eng.chunkCount.toNat ∧ (s.eng.stage = .request → SizeKnown s) := by
  simp [PlaceBounded, h]
theorem placeBounded_decomp (h : s.eng.phase = .decomp) :
    PlaceBounded s ↔ 0 < s.eng.chunkCount.toNat ∧ SizeKnown s := by simp [PlaceBounded, h]
theorem placeBounded_done (h : s.eng.phase = .done) :
    PlaceBounded s ↔ 0 < s.eng.chunkCount.toNat ∧ SizeKnown s := by simp [PlaceBounded, h]
theorem placeBounded_filter (h : s.eng.phase = .filter) :
    PlaceBounded s ↔ 0 < s.eng.chunkCount.toNat ∧ SizeKnown s ∧
      s.eng.row.toNat < s.height ∧ s.eng.col.toNat < s.stride := by
  simp [PlaceBounded, h]
theorem placeBounded_pack (h : s.eng.phase = .pack) :
    PlaceBounded s ↔ 0 < s.eng.chunkCount.toNat ∧ SizeKnown s ∧
      s.eng.packIdx ≤ s.width * s.height := by
  simp [PlaceBounded, h]

theorem WithinBounds.counters (h : WithinBounds s) : CountersBounded s :=
  { h with header := fun hc => h.header (.inl hc) }

theorem WithinBounds.spacesBounded (h : WithinBounds s) : SpacesBounded s :=
  ⟨h.chunkSpace, h.idatSpace, h.textSpace, h.textdirSpace, h.pixelSpace, h.decompSpace,
    h.reconSpace⟩

theorem WithinBounds.placeBounded (h : WithinBounds s) : PlaceBounded s := by
  unfold PlaceBounded
  split
  next => trivial
  next => trivial
  next e => exact h.sig e
  next e => exact ⟨h.len e, h.boundary (.inl e)⟩
  next e => exact h.boundary (.inr e)
  next e => exact ⟨h.admitted (.inl e), h.payload e⟩
  next e => exact ⟨h.crc e, h.admitted (.inr e), h.header (.inr e)⟩
  next e => exact ⟨h.parsed (by rw [e]; rfl), fun hr => h.size (.inl ⟨e, hr⟩)⟩
  next e => exact ⟨h.parsed (by rw [e]; rfl), h.size (.inr (.inl e))⟩
  next e => exact ⟨h.parsed (by rw [e]; rfl), h.size (.inr (.inr (.inr (.inr e))))⟩
  next e => exact ⟨h.parsed (by rw [e]; rfl), h.size (.inr (.inr (.inl e))), h.filter e⟩
  next e => exact ⟨h.parsed (by rw [e]; rfl), h.size (.inr (.inr (.inr (.inl e)))), h.pack e⟩

/-- The three parts make the whole. -/
theorem withinBounds_of_parts (hc : CountersBounded s) (hs : SpacesBounded s)
    (hp : PlaceBounded s) : WithinBounds s where
  params := hc.params
  sigK := hc.sigK
  sig e := (placeBounded_sig e).1 hp
  fldK := hc.fldK
  len e := ((placeBounded_len e).1 hp).1
  boundary e :=
    e.elim (fun e => ((placeBounded_len e).1 hp).2) (fun e => (placeBounded_type e).1 hp)
  crc e := ((placeBounded_crc e).1 hp).1
  chunks := hc.chunks
  idatBytes := hc.idatBytes
  textBytes := hc.textBytes
  textCount := hc.textCount
  admitted e :=
    e.elim (fun e => ((placeBounded_payload e).1 hp).1) (fun e => ((placeBounded_crc e).1 hp).2.1)
  payload e := ((placeBounded_payload e).1 hp).2
  header e := e.elim hc.header (fun e => ((placeBounded_crc e).1 hp).2.2)
  parsed e := by
    revert e hp
    unfold PlaceBounded
    cases s.eng.phase <;> simp +contextual [Phase.parsed]
  size e := by
    rcases e with ⟨e, hr⟩ | e | e | e | e
    · exact ((placeBounded_check e).1 hp).2 hr
    · exact ((placeBounded_decomp e).1 hp).2
    · exact ((placeBounded_filter e).1 hp).2.1
    · exact ((placeBounded_pack e).1 hp).2.1
    · exact ((placeBounded_done e).1 hp).2
  filter e := ((placeBounded_filter e).1 hp).2.2
  pack e := ((placeBounded_pack e).1 hp).2.2
  chunkSpace := hs.chunk
  idatSpace := hs.idat
  textSpace := hs.text
  textdirSpace := hs.textdir
  pixelSpace := hs.pixel
  decompSpace := hs.decompBuf
  reconSpace := hs.recon

end

end Sys2Proof.Machine
end

section
/-! ## Every move keeps the bounds -/

namespace Sys2Proof.Machine

/-! ### Writes within a size -/

theorem Memory.below_write {α : Type} {m : Memory α} {size a : Nat} (h : Memory.below m size)
    (ha : a < size) (v : α) : Memory.below (Memory.write m a v) size := by
  intro x hx
  rcases Memory.mem_write hx with rfl | hx
  · exact ha
  · exact h x hx

theorem Memory.below_writeList {α : Type} {m : Memory α} {size a : Nat} {vs : List α}
    (h : Memory.below m size) (ha : a + vs.length ≤ size) :
    Memory.below (Memory.writeList m a vs) size := by
  intro x hx
  rcases Memory.mem_writeList hx with ⟨-, hx⟩ | hx
  · omega
  · exact h x hx

/-! ### Addresses within E -/

/-- A byte of a row of the image is within E (10_state.md R47). -/
theorem reconAt_lt_expectedSize {s : State} {i j : Nat} (hi : i < s.height) (hj : j < s.stride) :
    s.reconAt i j < s.expectedSize := by
  have hrow : (i + 1) * s.stride ≤ s.height * s.stride := Nat.mul_le_mul_right _ hi
  have hE : s.height * s.stride = s.width * s.height * 3 := by unfold State.stride; ring
  have hnext : (i + 1) * s.stride = i * s.stride + s.stride := Nat.succ_mul _ _
  unfold State.reconAt State.expectedSize
  omega

/-- A row is no longer than E. -/
theorem stride_le_expectedSize {s : State} (h : 0 < s.height) : s.stride ≤ s.expectedSize := by
  have hrow : s.width * 1 ≤ s.width * s.height := Nat.mul_le_mul_left _ h
  unfold State.stride State.expectedSize
  omega

/-- The pixels fit in PIXEL space when E fits (10_state.md R40). -/
theorem SizeKnown.pixels_le {s : State} (h : SizeKnown s) :
    s.width * s.height ≤ s.params.maxReconBytes.toNat / 3 := by
  have := h.fits
  unfold State.expectedSize at this
  omega

/-! ### A payload byte -/

/-- A payload byte of an admitted chunk goes within its space (40_container_parser.md R105, R109,
R110). -/
theorem SpacesBounded.takePayloadByte {s : State} (h : SpacesBounded s) (ha : ChunkAdmitted s)
    (ho : s.eng.curOff < s.eng.curLen.toNat) (b : Byte) (rest : List Byte) :
    SpacesBounded (State.takePayloadByte b rest s) := by
  unfold State.takePayloadByte State.storeByte
  split
  next => exact { h with }
  next =>
    split
    next e =>
      have hi := ha.idat e
      have hlt : s.eng.idatBytes.toNat + s.eng.curOff < s.params.maxIdatBytes.toNat := by omega
      exact { h with idat := Memory.below_write h.idat hlt b }
    next =>
      split
      next e =>
        have ht := ha.text e
        have hlt : s.eng.textBytes.toNat + s.eng.curOff < s.params.maxTextBytes.toNat := by omega
        exact { h with text := Memory.below_write h.text hlt b }
      next => exact { h with }

theorem CountersBounded.takePayloadByte {s : State} (h : CountersBounded s) (b : Byte)
    (rest : List Byte) : CountersBounded (State.takePayloadByte b rest s) where
  params := by simpa using h.params
  sigK := by simpa using h.sigK
  fldK := by simpa using h.fldK
  chunks := by simpa using h.chunks
  idatBytes := by simpa using h.idatBytes
  textBytes := by simpa using h.textBytes
  textCount := by simpa using h.textCount
  header hc := by
    obtain ⟨hv, hw, hh⟩ := h.header (by simpa using hc)
    exact ⟨by simpa using hv, by simpa [State.width] using hw, by simpa [State.height] using hh⟩

theorem ChunkAdmitted.takePayloadByte {s : State} (h : ChunkAdmitted s) (b : Byte)
    (rest : List Byte) : ChunkAdmitted (State.takePayloadByte b rest s) where
  known := by simpa using h.known
  chunks := by simpa using h.chunks
  idat := by simpa using h.idat
  text := by simpa using h.text
  first := by simpa using h.first
  ihdr := by simpa using h.ihdr
  iend := by simpa using h.iend

/-- A header with both dimensions is valid (40_container_parser.md R106). -/
theorem headerKnown_setHeader {s : State} (hw : s.eng.ihdrWidth ≠ 0#32)
    (hh : s.eng.ihdrHeight ≠ 0#32) : HeaderKnown s.setHeader := by
  refine ⟨rfl, ?_, ?_⟩
  · show 0 < s.eng.ihdrWidth.toNat
    bv_omega
  · show 0 < s.eng.ihdrHeight.toNat
    bv_omega

/-! ### Chunk completion -/

theorem commitType_cases (ty : Word) (s : State) :
    (ty = codeIDAT ∧ State.commitType ty s = s.commitIdat) ∨
    (ty = codeTEXt ∧ State.commitType ty s = s.commitText) ∨ State.commitType ty s = s := by
  unfold State.commitType
  split
  next e => exact .inl ⟨e, rfl⟩
  next =>
    split
    next e => exact .inr (.inl ⟨e, rfl⟩)
    next => exact .inr (.inr rfl)

theorem ChunkAdmitted.writeRecord {s : State} (h : ChunkAdmitted s) (ty : Word) :
    ChunkAdmitted (State.writeRecord ty s) := { h with }

theorem SpacesBounded.writeRecord {s : State} (h : SpacesBounded s) (ha : ChunkAdmitted s)
    (ty : Word) : SpacesBounded (State.writeRecord ty s) :=
  { h with chunk := Memory.below_write h.chunk ha.chunks _ }

/-- What the type adds goes within its spaces (R111). -/
theorem SpacesBounded.commitType {s : State} (h : SpacesBounded s) (hc : CountersBounded s)
    (ha : ChunkAdmitted s) : SpacesBounded (State.commitType s.eng.curType s) := by
  rcases commitType_cases s.eng.curType s with ⟨-, e⟩ | ⟨ht, e⟩ | e <;> rw [e]
  · exact { h with }
  · have hdir := hc.textCount.trans_lt ha.chunks
    exact { h with
      text := Memory.below_write h.text (ha.text ht) _
      textdir := Memory.below_write h.textdir hdir _ }
  · exact h

/-- One chunk more, with what its type adds, stays within the capacities (10_state.md R28). -/
theorem CountersBounded.countChunk_commitType {s : State} (h : CountersBounded s)
    (ha : ChunkAdmitted s) (hk : HeaderKnown s) :
    CountersBounded (State.commitType s.eng.curType s).countChunk := by
  have hchunks := ha.chunks
  have hcount : (s.eng.chunkCount + 1#32).toNat = s.eng.chunkCount.toNat + 1 := by bv_omega
  have htext := h.textCount
  have hle : (s.eng.chunkCount + 1#32).toNat ≤ s.params.maxChunks.toNat := by omega
  have hkeep : s.eng.textCount.toNat ≤ (s.eng.chunkCount + 1#32).toNat := by omega
  rcases commitType_cases s.eng.curType s with ⟨ht, e⟩ | ⟨ht, e⟩ | e <;> rw [e]
  · have hi := ha.idat ht
    have hsum : (s.eng.idatBytes + s.eng.curLen).toNat ≤ s.params.maxIdatBytes.toNat := by bv_omega
    exact { h with
      chunks := hle, idatBytes := hsum, textCount := hkeep, header := fun _ => hk }
  · have hx := ha.text ht
    have hsum : (s.eng.textBytes + s.eng.curLen + 1#32).toNat ≤ s.params.maxTextBytes.toNat := by
      bv_omega
    have hone : (s.eng.textCount + 1#32).toNat ≤ (s.eng.chunkCount + 1#32).toNat := by bv_omega
    exact { h with chunks := hle, textBytes := hsum, textCount := hone, header := fun _ => hk }
  · exact { h with chunks := hle, textCount := hkeep, header := fun _ => hk }

theorem CountersBounded.afterChunk {s : State} (h : CountersBounded s) (ty : Word) :
    CountersBounded (State.afterChunk ty s) := by
  unfold State.afterChunk
  split
  · exact { h with }
  · exact { h with fldK := Nat.zero_le _ }

theorem SpacesBounded.afterChunk {s : State} (h : SpacesBounded s) (ty : Word) :
    SpacesBounded (State.afterChunk ty s) := by
  unfold State.afterChunk
  split <;> exact { h with }

theorem CountersBounded.chunkComplete {s : State} (h : CountersBounded s) (ha : ChunkAdmitted s)
    (hk : HeaderKnown s) : CountersBounded (State.chunkComplete s.eng.curType s) :=
  (CountersBounded.countChunk_commitType (s := State.writeRecord s.eng.curType s) { h with }
    (ha.writeRecord _) hk).afterChunk _

theorem SpacesBounded.chunkComplete {s : State} (h : SpacesBounded s) (hc : CountersBounded s)
    (ha : ChunkAdmitted s) : SpacesBounded (State.chunkComplete s.eng.curType s) :=
  SpacesBounded.afterChunk (s := State.countChunk _)
    { SpacesBounded.commitType (h.writeRecord ha s.eng.curType) { hc with }
        (ha.writeRecord _) with } _

/-- Where the engine goes after an admitted chunk (R111, R114). -/
theorem ChunkAdmitted.placeBounded_chunkComplete {s : State} (h : ChunkAdmitted s) :
    PlaceBounded (State.chunkComplete s.eng.curType s) := by
  have hc := h.chunks
  by_cases e : s.eng.curType = codeIEND
  · rw [e, chunkComplete_iend]
    exact (placeBounded_check rfl).2
      ⟨by show 0 < (s.eng.chunkCount + 1#32).toNat; bv_omega, nofun⟩
  · rw [chunkComplete_of_ne_iend _ _ e]
    exact (placeBounded_len rfl).2 ⟨Nat.zero_lt_succ _, rfl, rfl, rfl⟩

/-! ### The moves -/

/-- Checks that raise nothing let the chunk in (R104, R108). -/
theorem ChecksPass.admitted {s : State} (h : ChecksPass s s.eng.curType)
    (hk : s.eng.curType ∈ knownCodes) : ChunkAdmitted s := { h with known := hk }

/-- Only an IHDR begins a stream, so before any other chunk there is a header (R104, R107). -/
theorem ChunkAdmitted.headerKnown {s : State} (h : ChunkAdmitted s) (hc : CountersBounded s)
    (hne : s.eng.curType ≠ codeIHDR) : HeaderKnown s :=
  hc.header (Nat.pos_of_ne_zero fun e => hne (h.first.1 e))

/-- The engine's moves keep the counters within their bounds. -/
theorem Moved.countersBounded {s t : State} (hc : CountersBounded s) (hp : PlaceBounded s)
    (h : Moved s t) : CountersBounded t := by
  cases h with
  | wait => exact hc
  | raise | sigRaise | payloadBegins | methodsZero | sizeRaise | sizeFits | request | answerRaise
  | answer | pixel | done => exact { hc with }
  | sigEnd | payloadEmpty => exact { hc with fldK := Nat.zero_le _ }
  | sigByte h hk => exact { hc with sigK := by simp [State.countSig]; omega }
  | sigLast h hk =>
    exact { hc with sigK := by simp [State.countSig]; omega, fldK := Nat.zero_le _ }
  | lenByte h =>
    have hf := ((placeBounded_len h).1 hp).1
    exact { hc with fldK := by dsimp only; split <;> omega }
  | typeByte h hk =>
    have hf := hc.fldK
    exact { hc with fldK := by dsimp only; omega }
  | payloadByte h hty b rest => exact hc.takePayloadByte b rest
  | payloadRaise h hty b rest => exact { hc.takePayloadByte b rest with }
  | payloadLast h hty hne b rest =>
    exact { hc.takePayloadByte b rest with fldK := Nat.zero_le _ }
  | headerLast h hty b rest hr hl hw hh =>
    exact { hc.takePayloadByte b rest with
      fldK := Nat.zero_le _
      header := fun _ => headerKnown_setHeader hw hh }
  | crcByte h hty b rest hr hk => exact { hc with fldK := by simp [State.takeCrcByte]; omega }
  | crcLast h hty b rest hr hk =>
    obtain ⟨hf, ha, hd⟩ := (placeBounded_crc h).1 hp
    exact CountersBounded.chunkComplete (s := State.takeCrcByte b (State.consume rest s))
      { hc with fldK := hf } { ha with } hd
  | recon h p =>
    rw [State.reconstruct]
    rcases advance_cases (State.writeRecon p s) with ⟨-, e⟩ | ⟨-, e⟩ | e <;> rw [e] <;>
      exact { hc with }

/-- At the request and its answer E is known (R131 to R134). -/
theorem PlaceBounded.sizeKnown {s : State} (hp : PlaceBounded s)
    (h : (s.eng.phase = .check ∧ s.eng.stage = .request) ∨ s.eng.phase = .decomp) :
    0 < s.eng.chunkCount.toNat ∧ SizeKnown s := by
  rcases h with ⟨h, hr⟩ | h
  · obtain ⟨hn, hk⟩ := (placeBounded_check h).1 hp
    exact ⟨hn, hk hr⟩
  · exact (placeBounded_decomp h).1 hp

/-- The engine's moves keep the spaces within their sizes (20_memory.md R76). -/
theorem Moved.spacesBounded {s t : State} (hs : SpacesBounded s) (hc : CountersBounded s)
    (hp : PlaceBounded s) (h : Moved s t) : SpacesBounded t := by
  cases h with
  | wait => exact hs
  | raise | sigEnd | sigByte | sigLast | sigRaise | lenByte | typeByte | payloadBegins
  | payloadEmpty | crcByte | methodsZero | sizeRaise | sizeFits | request | answerRaise | done =>
    exact { hs with }
  | payloadByte h hty b rest | payloadRaise h hty b rest | payloadLast h hty hne b rest
  | headerLast h hty b rest =>
    obtain ⟨ha, ho⟩ := (placeBounded_payload h).1 hp
    exact { hs.takePayloadByte ha ho b rest with }
  | crcLast h hty b rest hr hk =>
    obtain ⟨hf, ha, hd⟩ := (placeBounded_crc h).1 hp
    exact SpacesBounded.chunkComplete (s := State.takeCrcByte b (State.consume rest s))
      { hs with } { hc with fldK := hf } { ha with }
  | answer h hpend d ha hd =>
    obtain ⟨-, hk⟩ := hp.sizeKnown h
    have hlen : 0 + d.length ≤ s.params.maxReconBytes.toNat := by
      rw [Nat.zero_add, hd, hk.engine]; exact hk.fits
    exact { hs with decompBuf := Memory.below_writeList hs.decompBuf hlen }
  | recon h p =>
    obtain ⟨-, hk, hrow, hcol⟩ := (placeBounded_filter h).1 hp
    have hlt := (reconAt_lt_expectedSize hrow hcol).trans_le hk.fits
    have hw : SpacesBounded (State.writeRecon p s) :=
      { hs with recon := Memory.below_write hs.recon hlt _ }
    rw [State.reconstruct]
    rcases advance_cases (State.writeRecon p s) with ⟨-, e⟩ | ⟨-, e⟩ | e <;> rw [e] <;>
      exact { hw with }
  | pixel h hn =>
    obtain ⟨-, hk, -⟩ := (placeBounded_pack h).1 hp
    exact { hs with pixel := Memory.below_write hs.pixel (hn.trans_le hk.pixels_le) _ }

/-- The row loop stays within the image (41_scanline_reconstructor.md R135). -/
theorem placeBounded_advance {s : State} (h : s.eng.phase = .filter) (hp : PlaceBounded s)
    (hh : 0 < s.height) (hw : 0 < s.width) : PlaceBounded s.advance := by
  obtain ⟨hn, hk, hrow, hcol⟩ := (placeBounded_filter h).1 hp
  rcases advance_cases s with ⟨hlt, e⟩ | ⟨hlt, e⟩ | e <;> rw [e]
  · have hstride := stride_le_expectedSize hh
    have hfits := hk.fits
    have hmax := s.params.maxReconBytes.isLt
    refine Iff.mpr (placeBounded_filter h) ⟨hn, hk, hrow, ?_⟩
    show (s.eng.col + 1#32).toNat < s.stride
    rw [BitVec.toNat_add_of_lt (by simp; omega)]
    exact hlt
  · have hmax := s.regs.hdrHeight.isLt
    refine Iff.mpr (placeBounded_filter h) ⟨hn, hk, ?_, ?_⟩
    · show (s.eng.row + 1#32).toNat < s.height
      unfold State.height at hlt
      rw [BitVec.toNat_add_of_lt (by simp; omega)]
      exact hlt
    · show 0 < 3 * s.width
      omega
  · exact (placeBounded_pack rfl).2 ⟨hn, hk, Nat.zero_le _⟩

/-- The engine's moves keep the place within its bounds. -/
theorem Moved.placeBounded {s t : State} (hc : CountersBounded s) (hp : PlaceBounded s)
    (h : Moved s t) : PlaceBounded t := by
  cases h with
  | wait => exact hp
  | raise | sigRaise | payloadRaise | sizeRaise | answerRaise => exact placeBounded_error rfl
  | sigEnd | sigLast => exact (placeBounded_len rfl).2 ⟨Nat.zero_lt_succ _, rfl, rfl, rfl⟩
  | sigByte h hk => exact Iff.mpr (placeBounded_sig h) (show s.eng.sigK + 1 < 8 by omega)
  | lenByte h b rest hr =>
    obtain ⟨hf, hn⟩ := (placeBounded_len h).1 hp
    by_cases hk : 3 ≤ s.eng.fldK
    · simp only [hk, if_true]
      exact (placeBounded_type rfl).2 hn
    · simp only [hk, if_false]
      exact (placeBounded_len rfl).2 ⟨show s.eng.fldK + 1 < 4 by omega, hn⟩
  | typeByte h hk b rest hr => exact Iff.mpr (placeBounded_type h) ((placeBounded_type h).1 hp)
  | payloadBegins h hk hty hpass hl =>
    obtain ⟨hoff, -⟩ := (placeBounded_type h).1 hp
    exact (placeBounded_payload rfl).2 ⟨{ hpass.admitted hty with }, by simpa [hoff] using hl⟩
  | payloadEmpty h hk hty hpass hl hz =>
    have hne : s.eng.curType ≠ codeIHDR := fun e => by have := hpass.ihdr e; omega
    have ha := hpass.admitted hty
    exact (placeBounded_crc rfl).2 ⟨Nat.zero_lt_succ _, { ha with }, ha.headerKnown hc hne⟩
  | payloadByte h hty b rest hr hl =>
    obtain ⟨ha, -⟩ := (placeBounded_payload h).1 hp
    exact Iff.mpr (placeBounded_payload (by simp [h]))
      ⟨ha.takePayloadByte b rest, by simpa using hl⟩
  | payloadLast h hty hne b rest hr hl =>
    obtain ⟨ha, -⟩ := (placeBounded_payload h).1 hp
    have ha' := ha.takePayloadByte b rest
    have hd := ha'.headerKnown (hc.takePayloadByte b rest) (by simpa using hne)
    exact (placeBounded_crc rfl).2 ⟨Nat.zero_lt_succ _, { ha' with }, hd⟩
  | headerLast h hty b rest hr hl hw hh =>
    obtain ⟨ha, -⟩ := (placeBounded_payload h).1 hp
    exact (placeBounded_crc rfl).2 ⟨Nat.zero_lt_succ _, { ha.takePayloadByte b rest with },
      headerKnown_setHeader hw hh⟩
  | crcByte h hty b rest hr hk =>
    obtain ⟨-, ha, hd⟩ := (placeBounded_crc h).1 hp
    exact Iff.mpr (placeBounded_crc h)
      ⟨show s.eng.fldK + 1 < 4 by omega, { ha with }, hd⟩
  | crcLast h hty b rest hr hk =>
    obtain ⟨-, ha, -⟩ := (placeBounded_crc h).1 hp
    exact ChunkAdmitted.placeBounded_chunkComplete
      (s := State.takeCrcByte b (State.consume rest s)) { ha with }
  | methodsZero h hst hm hf =>
    exact Iff.mpr (placeBounded_check h) ⟨((placeBounded_check h).1 hp).1, nofun⟩
  | sizeFits h hst hl =>
    have hlt := hl.trans_lt s.params.maxReconBytes.isLt
    refine Iff.mpr (placeBounded_check h) ⟨((placeBounded_check h).1 hp).1, fun _ => ⟨rfl, hl, ?_⟩⟩
    exact (BitVec.toNat_ofNat _ _).trans (Nat.mod_eq_of_lt hlt)
  | request h hpend =>
    obtain ⟨hn, hk⟩ := hp.sizeKnown h
    exact (placeBounded_decomp rfl).2 ⟨hn, hk⟩
  | answer h hpend d ha hd =>
    obtain ⟨hn, hk⟩ := hp.sizeKnown h
    have hdr := hc.header hn
    have hstride : 0 < 3 * s.width := by have := hdr.width; omega
    exact (placeBounded_filter rfl).2 ⟨hn, hk, hdr.height, hstride⟩
  | recon h p =>
    have hpw : PlaceBounded (State.writeRecon p s) := by
      obtain ⟨hn, hk, hrc⟩ := (placeBounded_filter h).1 hp
      exact Iff.mpr (placeBounded_filter h) ⟨hn, hk, hrc⟩
    have hdr := hc.header ((placeBounded_filter h).1 hp).1
    exact placeBounded_advance (s := State.writeRecon p s) h hpw hdr.height hdr.width
  | pixel h hn =>
    obtain ⟨hpos, hk, -⟩ := (placeBounded_pack h).1 hp
    exact Iff.mpr (placeBounded_pack h) ⟨hpos, hk, hn⟩
  | done h hn =>
    obtain ⟨hpos, hk, -⟩ := (placeBounded_pack h).1 hp
    exact (placeBounded_done rfl).2 ⟨hpos, hk⟩

theorem Moved.withinBounds {s t : State} (hs : WithinBounds s) (h : Moved s t) :
    WithinBounds t :=
  withinBounds_of_parts (h.countersBounded hs.counters hs.placeBounded)
    (h.spacesBounded hs.spacesBounded hs.counters hs.placeBounded)
    (h.placeBounded hs.counters hs.placeBounded)

/-! ### The boundary's events -/

theorem WithinBounds.takeTurn {s : State} (h : WithinBounds s) : WithinBounds s.takeTurn :=
  { h with admitted := fun e => { h.admitted e with } }

/-- Nothing is counted and nothing listed after reset (10_state.md R51). -/
theorem countersBounded_of_reset {s : State} (hp : s.params.wf) (he : s.eng = Engine.reset) :
    CountersBounded s where
  params := hp
  sigK := by rw [he]; decide
  fldK := by rw [he]; decide
  chunks := by rw [he]; exact Nat.zero_le _
  idatBytes := by rw [he]; exact Nat.zero_le _
  textBytes := by rw [he]; exact Nat.zero_le _
  textCount := by rw [he]; decide
  header := by rw [he]; nofun

theorem spacesBounded_of_reset {s : State} (h : s.spaces = Spaces.reset) : SpacesBounded s := by
  constructor <;> rw [h] <;> exact nofun

theorem withinBounds_of_reset {s : State} (hp : s.params.wf) (he : s.eng = Engine.reset)
    (hs : s.spaces = Spaces.reset) : WithinBounds s :=
  withinBounds_of_parts (countersBounded_of_reset hp he) (spacesBounded_of_reset hs)
    (by rw [PlaceBounded, he]; trivial)

/-- After START the counters are those of reset, and the spaces hold what they held
(42_host_commands.md R160). -/
theorem WithinBounds.start {s : State} (h : WithinBounds s) : WithinBounds s.start :=
  withinBounds_of_parts
    ⟨h.params, Nat.zero_le _, Nat.zero_le _, Nat.zero_le _, Nat.zero_le _, Nat.zero_le _,
      Nat.zero_le _, nofun⟩
    { h.spacesBounded with } (Iff.mpr (placeBounded_sig rfl) (Nat.zero_lt_succ _))

/-- The boundary's events keep the bounds. -/
theorem Outside.withinBounds {s t : State} (h : WithinBounds s) (ho : Outside s t) :
    WithinBounds t := by
  have hadm := h.admitted
  cases ho with
  | nothing => exact h
  | start => exact h.start
  | reset => exact withinBounds_of_reset h.params rfl rfl
  | read a v => cases v <;> exact { h with admitted := fun e => { hadm e with } }
  | streamByte b =>
    rcases presentByte_cases s b with e | e <;> rw [e]
    · exact h
    · exact { h with admitted := fun e => { hadm e with } }
  | endOfStream => exact { h with admitted := fun e => { hadm e with } }
  | answered =>
    rcases decompressorAnswers_cases s with e | ⟨hp, r, e⟩ <;> rw [e]
    · exact h
    · exact { h with admitted := fun e => { hadm e with } }

/-- Settles O14: the counters, the spaces and the place are each kept by every move of the engine,
and all of them by the boundary's events. -/
theorem stepKeepsBounds : Obligations.StepKeepsBounds := by
  intro s t _ hs h
  exact (step_moved h).elim (Moved.withinBounds hs.takeTurn) (Outside.withinBounds hs.takeTurn)

end Sys2Proof.Machine
end

section
/-! ## The stream and the form of the spaces -/

namespace Sys2Proof.Machine

/-! ### The engine's turn -/

/-- On its own turn the engine makes one of its moves. -/
theorem engine_moved {s t : State} (hE : s.engineTurn) (h : step s = .next t) :
    Moved s.takeTurn t := by
  cases hi : s.engineInstr with
  | some i =>
    rw [step_engine_instr hE hi] at h
    exact moved_of_runs (engineRuns_of_instr (by simpa using hi)) h
  | none =>
    rw [step_engine_other hE hi] at h
    cases h
    rcases engineOther_cases (s := s.takeTurn) (by simpa using hi) with
      ⟨hp, e⟩ | ⟨hp, hk, e⟩ | ⟨-, e⟩ <;> rw [e]
    · exact moved_lengthStep hp
    · exact moved_typeStep hp hk
    · exact .wait

/-- A move consumes the next stream byte and counts it, or consumes none (10_state.md R24). -/
theorem Moved.stream {s t : State} (h : Moved s t) :
    (t.eng.pos = s.eng.pos ∧ t.ports.stream = s.ports.stream) ∨
    (t.eng.pos = s.eng.pos + 1 ∧ ∃ b, s.ports.stream = b :: t.ports.stream) := by
  cases h with
  | wait | raise | sigEnd | payloadBegins | payloadEmpty | methodsZero | sizeRaise | sizeFits
  | request | answerRaise | answer | pixel | done => exact .inl ⟨rfl, rfl⟩
  | sigByte _ _ b _ hr | sigLast _ _ b _ hr | sigRaise _ b _ hr | lenByte _ b _ hr
  | typeByte _ _ b _ hr | crcByte _ _ b _ hr => exact .inr ⟨rfl, b, hr⟩
  | payloadByte _ _ b _ hr | payloadRaise _ _ b _ hr | payloadLast _ _ _ b _ hr =>
    exact .inr ⟨by simp, b, by simp [hr]⟩
  | headerLast _ _ b _ hr =>
    exact .inr ⟨by simp [State.setHeader], b, by simp [State.setHeader, hr]⟩
  | crcLast _ _ b _ hr =>
    exact .inr ⟨by simp [State.takeCrcByte], b, by simp [State.takeCrcByte, hr]⟩
  | recon h p =>
    rw [State.reconstruct]
    rcases advance_cases (State.writeRecon p s) with ⟨-, e⟩ | ⟨-, e⟩ | e <;> rw [e] <;>
      exact .inl ⟨rfl, rfl⟩

/-- Settles O9: the engine's turn by its moves, the host's events by their one equation each. -/
theorem streamIsPresentedAndConsumedInOrder : Obligations.StreamIsPresentedAndConsumedInOrder := by
  refine ⟨fun s t hE h => (engine_moved hE h).stream,
    fun s b rest hs => ⟨fun he => ?_, fun he => ?_⟩, fun s rest hs => ?_⟩
  · rw [step_streamByte hs, takeTurn_of_cons hs, State.presentByte, if_neg (by simp [he])]
  · rw [step_streamByte hs, takeTurn_of_cons hs, State.presentByte, if_pos he]
  · rw [step_endOfStream hs, takeTurn_of_cons hs, State.endStream]

/-! ### The canonical form -/

theorem SpacesCanonical.takeTurn {s : State} (h : SpacesCanonical s) : SpacesCanonical s.takeTurn :=
  { h with }

theorem spacesCanonical_of_reset {s : State} (h : s.spaces = Spaces.reset) : SpacesCanonical s := by
  constructor <;> rw [h] <;> exact Memory.wf_nil

theorem SpacesCanonical.takePayloadByte {s : State} (h : SpacesCanonical s) (b : Byte)
    (rest : List Byte) : SpacesCanonical (State.takePayloadByte b rest s) := by
  unfold State.takePayloadByte State.storeByte
  split
  next => exact { h with }
  next =>
    split
    next => exact { h with idat := Memory.wf_write h.idat _ b }
    next =>
      split
      next => exact { h with text := Memory.wf_write h.text _ b }
      next => exact { h with }

theorem SpacesCanonical.commitType {s : State} (h : SpacesCanonical s) (ty : Word) :
    SpacesCanonical (State.commitType ty s) := by
  rcases commitType_cases ty s with ⟨-, e⟩ | ⟨-, e⟩ | e <;> rw [e]
  · exact { h with }
  · exact { h with text := Memory.wf_write h.text _ _, textdir := Memory.wf_write h.textdir _ _ }
  · exact h

theorem SpacesCanonical.chunkComplete {s : State} (h : SpacesCanonical s) (ty : Word) :
    SpacesCanonical (State.chunkComplete ty s) := by
  have hr : SpacesCanonical (State.writeRecord ty s) :=
    { h with chunk := Memory.wf_write h.chunk _ _ }
  have hc := hr.commitType ty
  unfold State.chunkComplete State.afterChunk
  split <;> exact { hc with }

/-- The engine's moves keep the canonical form. -/
theorem Moved.spacesCanonical {s t : State} (hs : SpacesCanonical s) (h : Moved s t) :
    SpacesCanonical t := by
  cases h with
  | wait => exact hs
  | raise | sigEnd | sigByte | sigLast | sigRaise | lenByte | typeByte | payloadBegins
  | payloadEmpty | crcByte | methodsZero | sizeRaise | sizeFits | request | answerRaise | done =>
    exact { hs with }
  | payloadByte _ _ b rest | payloadRaise _ _ b rest | payloadLast _ _ _ b rest
  | headerLast _ _ b rest => exact { hs.takePayloadByte b rest with }
  | crcLast _ _ b rest =>
    exact SpacesCanonical.chunkComplete (s := State.takeCrcByte b (State.consume rest s))
      { hs with } _
  | answer _ _ d => exact { hs with decompBuf := Memory.wf_writeList hs.decompBuf 0 d }
  | recon h p =>
    have hw : SpacesCanonical (State.writeRecon p s) :=
      { hs with recon := Memory.wf_write hs.recon _ _ }
    rw [State.reconstruct]
    rcases advance_cases (State.writeRecon p s) with ⟨-, e⟩ | ⟨-, e⟩ | e <;> rw [e] <;>
      exact { hw with }
  | pixel => exact { hs with pixel := Memory.wf_write hs.pixel _ _ }

/-- The boundary's events write no element. -/
theorem Outside.spacesCanonical {s t : State} (hs : SpacesCanonical s) (h : Outside s t) :
    SpacesCanonical t := by
  cases h with
  | nothing => exact hs
  | reset => exact spacesCanonical_of_reset rfl
  | start | endOfStream => exact { hs with }
  | read a v => cases v <;> exact { hs with }
  | streamByte b => rcases presentByte_cases s b with e | e <;> rw [e] <;> exact { hs with }
  | answered =>
    rcases decompressorAnswers_cases s with e | ⟨-, r, e⟩ <;> rw [e] <;> exact { hs with }

/-- Settles O13: every write keeps the form, and no move does anything else to a space. -/
theorem stepKeepsSpacesCanonical : Obligations.StepKeepsSpacesCanonical := by
  intro s t hs h
  have hs' := hs.takeTurn
  exact (step_moved h).elim (Moved.spacesCanonical hs') (Outside.spacesCanonical hs')

/-- Settles O16: each invariant holds of the reset values. -/
theorem resetMeetsTheInvariants : Obligations.ResetMeetsTheInvariants :=
  ⟨statusAgrees_of_reset rfl rfl rfl, spacesCanonical_of_reset rfl,
    withinBounds_of_reset (by decide) rfl rfl,
    ⟨nofun, nofun, nofun, nofun, nofun, nofun, nofun, nofun, nofun, nofun⟩⟩

end Sys2Proof.Machine
end

section
/-! ## What a host read returns -/

namespace Sys2Proof.Machine

/-! ### Registers, by offset (10_state.md R31) -/

section
variable (s : State)

@[simp] theorem hostValue_ctrl : s.hostValue (.reg 0x00) = some 0#32 := rfl
@[simp] theorem hostValue_status : s.hostValue (.reg 0x04) = some s.regs.status := rfl
@[simp] theorem hostValue_errOffset : s.hostValue (.reg 0x08) = some s.regs.errOffset := rfl
@[simp] theorem hostValue_errIndex : s.hostValue (.reg 0x0C) = some s.regs.errIndex := rfl
@[simp] theorem hostValue_streamPos :
    s.hostValue (.reg 0x10) = if s.regs.busy then none else some s.regs.streamPos := rfl
@[simp] theorem hostValue_chunkCount :
    s.hostValue (.reg 0x14) = s.regs.whenDone s.regs.chunkCount := rfl
@[simp] theorem hostValue_idatBytes :
    s.hostValue (.reg 0x18) = s.regs.whenDone s.regs.idatBytes := rfl
@[simp] theorem hostValue_textCount :
    s.hostValue (.reg 0x1C) = s.regs.whenDone s.regs.textCount := rfl
@[simp] theorem hostValue_textBytes :
    s.hostValue (.reg 0x20) = s.regs.whenDone s.regs.textBytes := rfl
@[simp] theorem hostValue_hdrWidth :
    s.hostValue (.reg 0x24) = s.regs.whenDone s.regs.hdrWidth := rfl
@[simp] theorem hostValue_hdrHeight :
    s.hostValue (.reg 0x28) = s.regs.whenDone s.regs.hdrHeight := rfl
@[simp] theorem hostValue_hdrFmt : s.hostValue (.reg 0x2C) = s.regs.whenDone s.regs.hdrFmt := rfl
@[simp] theorem hostValue_hdrIlace :
    s.hostValue (.reg 0x30) = s.regs.whenDone (s.regs.interlace.setWidth 32) := rfl
@[simp] theorem hostValue_expSize :
    s.hostValue (.reg 0x34) = s.regs.whenDone s.regs.expSize := rfl
@[simp] theorem hostValue_pixelCount :
    s.hostValue (.reg 0x38) = s.regs.whenDone s.regs.pixelCount := rfl
@[simp] theorem hostValue_capChunks : s.hostValue (.reg 0x40) = some s.params.maxChunks := rfl
@[simp] theorem hostValue_capIdat : s.hostValue (.reg 0x44) = some s.params.maxIdatBytes := rfl
@[simp] theorem hostValue_capText : s.hostValue (.reg 0x48) = some s.params.maxTextBytes := rfl
@[simp] theorem hostValue_capRecon : s.hostValue (.reg 0x4C) = some s.params.maxReconBytes := rfl

/-- The reserved offsets and those beyond the space (10_state.md R41, R52; log entry 18). -/
theorem hostValue_reserved {o : Nat} (h : o = 0x3C ∨ 0x50 ≤ o) :
    s.hostValue (.reg o) = some 0#32 := by
  show s.readReg o = some 0#32
  unfold State.readReg
  repeat rw [if_neg (by omega)]

/-- The result registers (R50). -/
theorem hostValue_result {o : Nat} (h1 : 0x14 ≤ o) (h2 : o ≤ 0x38) (h4 : o % 4 = 0) :
    ∃ w, s.hostValue (.reg o) = s.regs.whenDone w := by
  have ho : o = 0x14 ∨ o = 0x18 ∨ o = 0x1C ∨ o = 0x20 ∨ o = 0x24 ∨ o = 0x28 ∨ o = 0x2C ∨
      o = 0x30 ∨ o = 0x34 ∨ o = 0x38 := by omega
  rcases ho with rfl | rfl | rfl | rfl | rfl | rfl | rfl | rfl | rfl | rfl <;> exact ⟨_, rfl⟩

end

/-! ### The validity rule (R50) -/

theorem whenDone_of_done {r : Regs} (h : r.done = true) (w : Word) : r.whenDone w = some w :=
  if_pos h

theorem whenDone_of_not_done {r : Regs} (h : r.done = false) (w : Word) : r.whenDone w = none :=
  if_neg (by simp [h])

/-- STATUS.DONE shows the DONE phase (10_state.md R34, R48). -/
theorem StatusAgrees.done_eq {s : State} (h : StatusAgrees s) :
    s.regs.done = decide (s.eng.phase = .done) := by
  rw [Regs.done, h.status]
  cases s.eng.phase <;> cases s.eng.err.kind <;> rfl

section
variable {s : State} {size n : Nat} {count : Word} {element : Option Word}

/-- At or beyond a space's size (10_state.md R41). -/
theorem readElement_beyond (h : size ≤ n) : s.readElement size count n element = some 0#32 :=
  if_pos h

theorem readElement_of_not_done (hd : s.regs.done = false) (h : n < size) :
    s.readElement size count n element = none := by
  rw [State.readElement, if_neg (by omega), if_neg (by simp [hd])]

/-- In DONE below the count (42_host_commands.md R166). -/
theorem readElement_of_done (hd : s.regs.done = true) (h : n < size) (hc : n < count.toNat) :
    s.readElement size count n element = element := by
  rw [State.readElement, if_neg (by omega), if_pos ⟨hd, hc⟩]

theorem readElement_isSome (hd : s.regs.done = true) (hc : n < count.toNat)
    (he : element.isSome = true) : (s.readElement size count n element).isSome = true := by
  rcases Nat.lt_or_ge n size with h | h
  · rw [readElement_of_done hd h hc]; exact he
  · rw [readElement_beyond h]; rfl

theorem isSome_ite {α : Type} {c : Prop} [Decidable c] {a b : Option α} (ha : a.isSome = true)
    (hb : b.isSome = true) : (if c then a else b).isSome = true := by
  split
  · exact ha
  · exact hb

/-- In DONE every register has a value. -/
theorem readReg_isSome (hd : s.regs.done = true) (hb : s.regs.busy = false) (o : Nat) :
    (s.readReg o).isSome = true := by
  have hw (w : Word) : (s.regs.whenDone w).isSome = true := by rw [whenDone_of_done hd]; rfl
  have hpos : (if s.regs.busy then none else some s.regs.streamPos).isSome = true := by simp [hb]
  unfold State.readReg
  iterate 3 refine isSome_ite rfl ?_
  refine isSome_ite hpos ?_
  iterate 10 refine isSome_ite (hw _) ?_
  iterate 4 refine isSome_ite rfl ?_
  rfl

end

/-! ### Records -/

/-- A record word other than 0..3 (R41). -/
theorem hostValue_chunk_word {s : State} {k w : Nat} (h : 3 < w) :
    s.hostValue (.chunk k w) = some 0#32 := if_pos h
theorem hostValue_textdir_word {s : State} {k w : Nat} (h : 3 < w) :
    s.hostValue (.textdir k w) = some 0#32 := if_pos h

theorem hostValue_chunk {s : State} {k w : Nat} (h : w ≤ 3) :
    s.hostValue (.chunk k w) = s.readElement s.params.maxChunks.toNat s.regs.chunkCount k
      ((Memory.read? s.spaces.chunk k).map (ChunkRecord.word · w)) := if_neg (by omega)
theorem hostValue_textdir {s : State} {k w : Nat} (h : w ≤ 3) :
    s.hostValue (.textdir k w) = s.readElement s.params.maxChunks.toNat s.regs.textCount k
      ((Memory.read? s.spaces.textdir k).map (TextEntry.word · w)) := if_neg (by omega)

/-! ### The statements -/

/-- Settles O27: every space reads through `readElement`. A record word above 3 and an offset from
256 on are cases of their own. -/
theorem beyondASpaceReadsZero : Obligations.BeyondASpaceReadsZero := by
  refine fun s => ⟨fun k w h => ?_, fun n h => readElement_beyond h,
    fun n h => readElement_beyond h, fun n h => readElement_beyond h,
    fun o h => hostValue_reserved s (.inr (by omega))⟩
  rcases Nat.lt_or_ge 3 w with hw | hw
  · exact ⟨hostValue_chunk_word hw, hostValue_textdir_word hw⟩
  · have hk : s.params.maxChunks.toNat ≤ k := by omega
    rw [hostValue_chunk hw, hostValue_textdir hw]
    exact ⟨readElement_beyond hk, readElement_beyond hk⟩

/-- Settles O25: the registers by offset, and the validity rule with STATUS.DONE 0. -/
theorem whichReadsAreDefinedOutsideDone : Obligations.WhichReadsAreDefinedOutsideDone := by
  intro s hs hp
  have hd : s.regs.done = false := by simp [hs.done_eq, hp]
  refine ⟨hostValue_ctrl s, ?_, ?_, ?_, ?_, hostValue_capChunks s, hostValue_capIdat s,
    hostValue_capText s, hostValue_capRecon s, fun o h1 h2 h4 => ?_,
    fun o h => hostValue_reserved s h, fun n h => readElement_of_not_done hd h,
    fun n h => readElement_of_not_done hd h, fun n h => readElement_of_not_done hd h,
    fun k w h hw => ?_⟩
  · rw [hostValue_status, hs.status]
  · rw [hostValue_errOffset, hs.errOffset]
  · rw [hostValue_errIndex, hs.errIndex]
  · rw [hostValue_streamPos, hs.busy_eq, hs.streamPos]
    revert hp
    cases s.eng.phase <;> simp [Phase.busy]
  · obtain ⟨w, e⟩ := hostValue_result s h1 h2 h4
    rw [e, whenDone_of_not_done hd]
  · rw [hostValue_chunk hw, hostValue_textdir hw]
    exact ⟨readElement_of_not_done hd h, readElement_of_not_done hd h⟩

/-- Settles O26: the registers by offset, and the validity rule with STATUS.DONE 1. -/
theorem doneReadsReturnTheResults : Obligations.DoneReadsReturnTheResults := by
  intro s hst
  have hd : s.regs.done = true := by rw [Regs.done, hst]; rfl
  have hb : s.regs.busy = false := by rw [Regs.busy, hst]; rfl
  have hv := whenDone_of_done hd
  refine ⟨hostValue_ctrl s, by rw [hostValue_status, hst], hostValue_errOffset s,
    hostValue_errIndex s, fun hs => ?_, hostValue_capChunks s, hostValue_capIdat s,
    hostValue_capText s, hostValue_capRecon s, fun o h => ?_, ?_,
    by rw [hostValue_chunkCount, hv], by rw [hostValue_idatBytes, hv],
    by rw [hostValue_textCount, hv], by rw [hostValue_textBytes, hv],
    by rw [hostValue_hdrWidth, hv], by rw [hostValue_hdrHeight, hv],
    by rw [hostValue_hdrFmt, hv], ?_, by rw [hostValue_expSize, hv],
    by rw [hostValue_pixelCount, hv], fun k r hc hk hr => ?_, fun m e hc hm he => ?_,
    fun n b hc hn hr => ?_, fun n b hc hn hr => ?_, fun n w hc hn hr => ?_⟩
  · have hp : s.eng.phase = .done := by simpa [hd] using hs.done_eq
    rw [hostValue_errOffset, hostValue_errIndex, hostValue_streamPos, hs.errOffset, hs.errIndex,
      hs.streamPos, hb, hp]
    exact ⟨rfl, rfl, rfl⟩
  · exact hostValue_reserved s (by omega)
  · rw [hostValue_streamPos, hb]; rfl
  · rw [hostValue_hdrIlace, hv, setWidth_eq_append, Regs.interlace]
  · have hword (w : Nat) (hw : w ≤ 3) : s.hostValue (.chunk k w) = some (r.word w) := by
      rw [hostValue_chunk hw, readElement_of_done hd hk hc, hr, Option.map_some]
    exact ⟨hword 0 (by omega), hword 1 (by omega), hword 2 (by omega), hword 3 (by omega)⟩
  · have hword (w : Nat) (hw : w ≤ 3) : s.hostValue (.textdir m w) = some (e.word w) := by
      rw [hostValue_textdir hw, readElement_of_done hd hm hc, he, Option.map_some]
    exact ⟨hword 0 (by omega), hword 1 (by omega), hword 2 (by omega), hword 3 (by omega)⟩
  · rw [State.hostValue, readElement_of_done hd hn hc, hr, Option.map_some, BitVec.ofNat_toNat]
  · rw [State.hostValue, readElement_of_done hd hn hc, hr, Option.map_some, BitVec.ofNat_toNat]
  · rw [State.hostValue, readElement_of_done hd hn hc, hr]

theorem idatBytes_le_idatWritten (s : State) : s.eng.idatBytes.toNat ≤ s.idatWritten :=
  Nat.le_add_right _ _
theorem textBytes_le_textWritten (s : State) : s.eng.textBytes.toNat ≤ s.textWritten :=
  Nat.le_add_right _ _

/-- Settles O17: in DONE the counts are the engine's, and what lies below them has been written. -/
theorem doneResultsAreDefined : Obligations.DoneResultsAreDefined := by
  intro s hs hw he hp
  have hd : s.regs.done = true := by simp [hs.done_eq, hp]
  have hb : s.regs.busy = false := by rw [hs.busy_eq, hp]; rfl
  obtain ⟨hchunks, hidat, htexts, htext, hpixels⟩ := he.doneCounts hp
  refine ⟨readReg_isSome hd hb, fun k w h => ?_, fun m w h => ?_, fun n h => ?_, fun n h => ?_,
    fun n h => ?_⟩
  · rcases Nat.lt_or_ge 3 w with hw | hw
    · rw [hostValue_chunk_word hw]; rfl
    · rw [hostValue_chunk hw]
      exact readElement_isSome hd (by rw [hchunks]; exact h) (by simpa using he.chunk k h)
  · rcases Nat.lt_or_ge 3 w with hw | hw
    · rw [hostValue_textdir_word hw]; rfl
    · rw [hostValue_textdir hw]
      exact readElement_isSome hd (by rw [htexts]; exact h) (by simpa using he.textdir m h)
  · have hwritten := he.idat n (h.trans_le (idatBytes_le_idatWritten s))
    exact readElement_isSome hd (by rw [hidat]; exact h) (by simpa using hwritten)
  · have hwritten := he.text n (h.trans_le (textBytes_le_textWritten s))
    exact readElement_isSome hd (by rw [htext]; exact h) (by simpa using hwritten)
  · exact readElement_isSome hd (by rw [hpixels]; exact h) (he.donePixels hp n h)

/-- Power-on reset and SOFT_RESET, at the start or in a run, leave the same records
(70_reset_and_hazards.md R190, R191). -/
theorem reset_records {p : Params} {t : State}
    (h : t = State.resetWith p ∨
      (∃ (s : State) (b : Bool) (r : BitVec 30), s.params = p ∧
        exec (.cmdSoftReset b r) s = .next t) ∨
      (∃ (s : State) (rest : List Event), s.params = p ∧ s.schedule = .powerOnReset :: rest ∧
        step s = .next t)) :
    t.params = p ∧ t.regs = Regs.reset ∧ t.eng = Engine.reset ∧ t.ports = Ports.reset ∧
    t.spaces = Spaces.reset := by
  rcases h with rfl | ⟨s, b, r, hp, e⟩ | ⟨s, rest, hp, hs, e⟩
  · exact ⟨rfl, rfl, rfl, rfl, rfl⟩
  · cases e
    exact ⟨hp, rfl, rfl, rfl, rfl⟩
  · rw [step_powerOnReset hs] at e
    cases e
    exact ⟨hp, rfl, rfl, rfl, rfl⟩

/-- Settles O24: the registers by offset, over the reset records. -/
theorem resetValues : Obligations.ResetValues := by
  intro p t h
  obtain ⟨hp, hr, he, hport, hs⟩ := reset_records h
  refine ⟨hostValue_ctrl t, ?_, ?_, ?_, ?_, ?_, ?_, ?_, ?_,
    fun o ho => hostValue_reserved t (by omega), hr, he, by rw [hport]; rfl, hs⟩
  · rw [hostValue_status, hr]; rfl
  · rw [hostValue_errOffset, hr]; rfl
  · rw [hostValue_errIndex, hr]; rfl
  · rw [hostValue_streamPos, hr]; rfl
  · rw [hostValue_capChunks, hp]
  · rw [hostValue_capIdat, hp]
  · rw [hostValue_capText, hp]
  · rw [hostValue_capRecon, hp]

end Sys2Proof.Machine
end

section
/-! ## What has been written, by who reads it: completed chunks, and the place the phase gives -/

namespace Sys2Proof.Machine

/-! ### Writing one element more -/

section
variable {α : Type} {m : Memory α} {n k : Nat}

theorem Memory.writtenBelow_zero : Memory.writtenBelow m 0 := nofun

theorem Memory.writtenBelow.mono (h : Memory.writtenBelow m n) (hk : k ≤ n) :
    Memory.writtenBelow m k := fun a ha => h a (ha.trans_le hk)

/-- A write loses nothing that was written. -/
theorem Memory.writtenBelow.write (h : Memory.writtenBelow m n) (a : Nat) (v : α) :
    Memory.writtenBelow (Memory.write m a v) n := by
  intro b hb
  rw [Memory.read?_write]
  split
  · rfl
  · exact h b hb

/-- Writing the first element not yet known to be written extends what is. -/
theorem Memory.writtenBelow.write_next (h : Memory.writtenBelow m n) (v : α) (hk : k ≤ n + 1) :
    Memory.writtenBelow (Memory.write m n v) k := by
  intro b hb
  rcases Nat.lt_or_ge b n with hlt | hge
  · exact h.write n v b hlt
  · obtain rfl : b = n := by omega
    rw [Memory.read?_write_same]
    rfl

/-- A run of writes from index 0 on writes as many elements as it has. -/
theorem Memory.writtenBelow_writeList (m : Memory α) (vs : List α) :
    Memory.writtenBelow (Memory.writeList m 0 vs) vs.length := by
  intro b hb
  rw [Memory.read?_writeList, if_pos ⟨Nat.zero_le b, by omega⟩, Nat.sub_zero,
    List.getElem?_eq_getElem hb]
  rfl

end

/-- A wrapped sum is no larger than the exact one, so the counters never count past what is
written. -/
theorem toNat_add_le (a b : Word) : (a + b).toNat ≤ a.toNat + b.toNat := by
  rw [BitVec.toNat_add]
  exact Nat.mod_le _ _

/-! ### The two parts of the invariant -/

/-- What the completed chunks of this decode have written (40_container_parser.md R111). -/
structure CompletedWritten (s : State) : Prop where
  chunk : Memory.writtenBelow s.spaces.chunk s.eng.chunkCount.toNat
  idat : Memory.writtenBelow s.spaces.idat s.eng.idatBytes.toNat
  text : Memory.writtenBelow s.spaces.text s.eng.textBytes.toNat
  textdir : Memory.writtenBelow s.spaces.textdir s.eng.textCount.toNat

/-- The first `n` payload bytes of the chunk in hand stand behind those of the completed chunks
(R109, R110). -/
structure PayloadWritten (s : State) (n : Nat) : Prop where
  idat : s.eng.curType = codeIDAT →
    Memory.writtenBelow s.spaces.idat (s.eng.idatBytes.toNat + n)
  text : s.eng.curType = codeTEXt →
    Memory.writtenBelow s.spaces.text (s.eng.textBytes.toNat + n)

/-- The count registers show what the engine has counted (10_state.md R38, R39;
41_scanline_reconstructor.md R148). -/
def CountsShown (s : State) : Prop :=
  s.regs.chunkCount = s.eng.chunkCount ∧ s.regs.idatBytes = s.eng.idatBytes ∧
  s.regs.textCount = s.eng.textCount ∧ s.regs.textBytes = s.eng.textBytes ∧
  s.regs.pixelCount.toNat = s.width * s.height

/-- The part of `ElementsWritten` that depends on the phase. -/
def PlaceWritten (s : State) : Prop :=
  match s.eng.phase with
  | .payload => PayloadWritten s s.eng.curOff
  | .crc => PayloadWritten s s.eng.curLen.toNat
  | .filter => Memory.writtenBelow s.spaces.decompBuf s.expectedSize ∧
      Memory.writtenBelow s.spaces.recon (s.reconAt s.eng.row.toNat s.eng.col.toNat)
  | .pack => Memory.writtenBelow s.spaces.recon (s.height * s.stride) ∧
      Memory.writtenBelow s.spaces.pixel s.eng.packIdx
  | .done => Memory.writtenBelow s.spaces.pixel (s.width * s.height) ∧ CountsShown s
  | .idle | .sig | .len | .type | .check | .decomp | .error => True

section
variable {s : State}

theorem placeWritten_payload (h : s.eng.phase = .payload) :
    PlaceWritten s ↔ PayloadWritten s s.eng.curOff := by simp [PlaceWritten, h]
theorem placeWritten_crc (h : s.eng.phase = .crc) :
    PlaceWritten s ↔ PayloadWritten s s.eng.curLen.toNat := by simp [PlaceWritten, h]
theorem placeWritten_filter (h : s.eng.phase = .filter) :
    PlaceWritten s ↔ Memory.writtenBelow s.spaces.decompBuf s.expectedSize ∧
      Memory.writtenBelow s.spaces.recon (s.reconAt s.eng.row.toNat s.eng.col.toNat) := by
  simp [PlaceWritten, h]
theorem placeWritten_pack (h : s.eng.phase = .pack) :
    PlaceWritten s ↔ Memory.writtenBelow s.spaces.recon (s.height * s.stride) ∧
      Memory.writtenBelow s.spaces.pixel s.eng.packIdx := by simp [PlaceWritten, h]
theorem placeWritten_done (h : s.eng.phase = .done) :
    PlaceWritten s ↔
      Memory.writtenBelow s.spaces.pixel (s.width * s.height) ∧ CountsShown s := by
  simp [PlaceWritten, h]

/-- The phases in which the engine needs no more than what the completed chunks have written. -/
def Phase.needsNoElement : Phase → Bool
  | .idle | .sig | .len | .type | .check | .decomp | .error => true
  | .payload | .crc | .filter | .pack | .done => false

theorem placeWritten_of_needsNoElement (h : s.eng.phase.needsNoElement = true) :
    PlaceWritten s := by
  revert h
  unfold PlaceWritten
  cases s.eng.phase <;> simp [Phase.needsNoElement]

/-- What is written of a payload, as the model counts it. -/
theorem PayloadWritten.of_counted {s : State} {n : Nat}
    (hi : Memory.writtenBelow s.spaces.idat s.idatWritten)
    (ht : Memory.writtenBelow s.spaces.text s.textWritten)
    (h : (s.eng.phase = .payload ∧ n = s.eng.curOff) ∨
      (s.eng.phase = .crc ∧ n = s.eng.curLen.toNat)) : PayloadWritten s n := by
  constructor
  · intro e
    rcases h with ⟨hp, rfl⟩ | ⟨hp, rfl⟩ <;> simpa [State.idatWritten, e, hp] using hi
  · intro e
    rcases h with ⟨hp, rfl⟩ | ⟨hp, rfl⟩ <;> simpa [State.textWritten, e, hp] using ht

theorem ElementsWritten.completed (h : ElementsWritten s) : CompletedWritten s :=
  ⟨h.chunk, h.idat.mono (idatBytes_le_idatWritten s), h.text.mono (textBytes_le_textWritten s),
    h.textdir⟩

theorem ElementsWritten.place (h : ElementsWritten s) : PlaceWritten s := by
  cases e : s.eng.phase with
  | payload => exact (placeWritten_payload e).2 (.of_counted h.idat h.text (.inl ⟨e, rfl⟩))
  | crc => exact (placeWritten_crc e).2 (.of_counted h.idat h.text (.inr ⟨e, rfl⟩))
  | filter => exact (placeWritten_filter e).2 ⟨h.filterScanlines e, h.filterRows e⟩
  | pack => exact (placeWritten_pack e).2 ⟨h.packRows e, h.packPixels e⟩
  | done => exact (placeWritten_done e).2 ⟨h.donePixels e, h.doneCounts e⟩
  | idle | sig | len | type | check | decomp | error =>
    exact placeWritten_of_needsNoElement (by rw [e]; rfl)

/-- The IDAT bytes that stand in IDAT space: those of completed chunks, and those the place adds. -/
theorem CompletedWritten.idatWritten (h : CompletedWritten s) (hp : PlaceWritten s) :
    Memory.writtenBelow s.spaces.idat s.idatWritten := by
  unfold State.idatWritten
  split
  next ht =>
    split
    next e => exact ((placeWritten_payload e).1 hp).idat ht
    next =>
      split
      next e => exact ((placeWritten_crc e).1 hp).idat ht
      next => exact h.idat
  next => exact h.idat

theorem CompletedWritten.textWritten (h : CompletedWritten s) (hp : PlaceWritten s) :
    Memory.writtenBelow s.spaces.text s.textWritten := by
  unfold State.textWritten
  split
  next ht =>
    split
    next e => exact ((placeWritten_payload e).1 hp).text ht
    next =>
      split
      next e => exact ((placeWritten_crc e).1 hp).text ht
      next => exact h.text
  next => exact h.text

/-- The two parts make the whole. -/
theorem elementsWritten_of_parts (h : CompletedWritten s) (hp : PlaceWritten s) :
    ElementsWritten s where
  chunk := h.chunk
  idat := h.idatWritten hp
  text := h.textWritten hp
  textdir := h.textdir
  filterScanlines e := ((placeWritten_filter e).1 hp).1
  filterRows e := ((placeWritten_filter e).1 hp).2
  packRows e := ((placeWritten_pack e).1 hp).1
  packPixels e := ((placeWritten_pack e).1 hp).2
  donePixels e := ((placeWritten_done e).1 hp).1
  doneCounts e := ((placeWritten_done e).1 hp).2

end

/-! ### A payload byte -/

theorem CompletedWritten.takePayloadByte {s : State} (h : CompletedWritten s) (b : Byte)
    (rest : List Byte) : CompletedWritten (State.takePayloadByte b rest s) := by
  unfold State.takePayloadByte State.storeByte
  split
  next => exact { h with }
  next =>
    split
    next => exact { h with idat := h.idat.write _ b }
    next =>
      split
      next => exact { h with text := h.text.write _ b }
      next => exact { h with }

/-- A payload byte goes where the next one of its chunk belongs (40_container_parser.md R109,
R110). -/
theorem PayloadWritten.takePayloadByte {s : State} (h : PayloadWritten s s.eng.curOff) (b : Byte)
    (rest : List Byte) {n : Nat} (hn : n ≤ s.eng.curOff + 1) :
    PayloadWritten (State.takePayloadByte b rest s) n := by
  constructor
  · intro e
    rw [State.takePayloadByte_curType] at e
    rw [State.takePayloadByte_idatBytes]
    have hs : (State.takePayloadByte b rest s).spaces.idat =
        Memory.write s.spaces.idat (s.eng.idatBytes.toNat + s.eng.curOff) b := by
      simp [State.takePayloadByte, State.countByte, State.storeByte, e, codeIDAT_ne_codeIHDR]
    rw [hs]
    exact (h.idat e).write_next b (by omega)
  · intro e
    rw [State.takePayloadByte_curType] at e
    rw [State.takePayloadByte_textBytes]
    have hs : (State.takePayloadByte b rest s).spaces.text =
        Memory.write s.spaces.text (s.eng.textBytes.toNat + s.eng.curOff) b := by
      simp [State.takePayloadByte, State.countByte, State.storeByte, e, codeTEXt_ne_codeIHDR,
        codeTEXt_ne_codeIDAT]
    rw [hs]
    exact (h.text e).write_next b (by omega)

/-- With no payload byte in hand the completed chunks are all there is. -/
theorem CompletedWritten.payloadWritten_zero {s : State} (h : CompletedWritten s) :
    PayloadWritten s 0 := ⟨fun _ => h.idat, fun _ => h.text⟩

/-! ### Chunk completion -/

/-- What the type adds has been written: an IDAT's payload, a tEXt's payload and terminator, and its
TEXTDIR entry (R111). -/
theorem CompletedWritten.commitType {s : State} (h : CompletedWritten s)
    (hp : PayloadWritten s s.eng.curLen.toNat) :
    CompletedWritten (State.commitType s.eng.curType s) := by
  rcases commitType_cases s.eng.curType s with ⟨ht, e⟩ | ⟨ht, e⟩ | e <;> rw [e]
  · have hsum : (s.eng.idatBytes + s.eng.curLen).toNat ≤ _ := toNat_add_le _ _
    exact { h with idat := (hp.idat ht).mono hsum }
  · have hsum : (s.eng.textBytes + s.eng.curLen + 1#32).toNat ≤
        s.eng.textBytes.toNat + s.eng.curLen.toNat + 1 :=
      (toNat_add_le _ _).trans (Nat.add_le_add_right (toNat_add_le _ _) 1)
    exact { h with
      text := (hp.text ht).write_next _ hsum
      textdir := h.textdir.write_next _ (toNat_add_le _ _) }
  · exact h

/-- A completed chunk has its record (R111). -/
theorem CompletedWritten.chunkComplete {s : State} (h : CompletedWritten s)
    (hp : PayloadWritten s s.eng.curLen.toNat) :
    CompletedWritten (State.chunkComplete s.eng.curType s) := by
  have hrecord : Memory.writtenBelow (State.writeRecord s.eng.curType s).spaces.chunk
      (s.eng.chunkCount + 1#32).toNat := h.chunk.write_next _ (toNat_add_le _ _)
  have hr : CompletedWritten (State.writeRecord s.eng.curType s) :=
    { h with chunk := h.chunk.write _ _ }
  have hc := hr.commitType { hp with }
  have hcount : CompletedWritten
      (State.commitType s.eng.curType (State.writeRecord s.eng.curType s)).countChunk := by
    refine { hc with chunk := ?_ }
    rcases commitType_cases s.eng.curType (State.writeRecord s.eng.curType s) with
      ⟨-, e⟩ | ⟨-, e⟩ | e <;> rw [e] <;> exact hrecord
  unfold State.chunkComplete State.afterChunk
  split <;> exact { hcount with }

/-! ### The row loop -/

/-- The row loop goes on to the byte after the one just written, or to PACK with every row written
(41_scanline_reconstructor.md R135). -/
theorem placeWritten_advance {s : State} (h : s.eng.phase = .filter)
    (hd : Memory.writtenBelow s.spaces.decompBuf s.expectedSize)
    (hr : Memory.writtenBelow s.spaces.recon (s.reconAt s.eng.row.toNat s.eng.col.toNat + 1)) :
    PlaceWritten s.advance := by
  unfold State.reconAt at hr
  unfold State.advance
  split
  next =>
    have hnext : s.eng.row.toNat * s.stride + (s.eng.col + 1#32).toNat ≤
        s.eng.row.toNat * s.stride + s.eng.col.toNat + 1 :=
      Nat.add_le_add_left (toNat_add_le _ _) _
    exact Iff.mpr (placeWritten_filter h) ⟨hd, hr.mono hnext⟩
  next hcol =>
    have hrow : (s.eng.row.toNat + 1) * s.stride ≤
        s.eng.row.toNat * s.stride + s.eng.col.toNat + 1 := by
      rw [Nat.succ_mul]; omega
    split
    next =>
      have hnext : (s.eng.row + 1#32).toNat * s.stride + 0 ≤
          s.eng.row.toNat * s.stride + s.eng.col.toNat + 1 :=
        (Nat.mul_le_mul_right _ (toNat_add_le _ _)).trans hrow
      exact Iff.mpr (placeWritten_filter h) ⟨hd, hr.mono hnext⟩
    next hlast =>
      have hall : s.height * s.stride ≤ s.eng.row.toNat * s.stride + s.eng.col.toNat + 1 :=
        (Nat.mul_le_mul_right _ (Nat.le_of_not_lt hlast)).trans hrow
      exact (placeWritten_pack rfl).2 ⟨hr.mono hall, Memory.writtenBelow_zero⟩

/-! ### The moves -/

/-- The engine's moves keep written what completed chunks have written. -/
theorem Moved.completedWritten {s t : State} (hc : CompletedWritten s) (hp : PlaceWritten s)
    (h : Moved s t) : CompletedWritten t := by
  cases h with
  | wait => exact hc
  | raise | sigEnd | sigByte | sigLast | sigRaise | lenByte | typeByte | payloadBegins
  | payloadEmpty | crcByte | methodsZero | sizeRaise | sizeFits | request | answerRaise | answer
  | pixel | done => exact { hc with }
  | payloadByte _ _ b rest | payloadRaise _ _ b rest | payloadLast _ _ _ b rest
  | headerLast _ _ b rest => exact { hc.takePayloadByte b rest with }
  | crcLast h _ b rest =>
    have hpay := (placeWritten_crc h).1 hp
    exact CompletedWritten.chunkComplete (s := State.takeCrcByte b (State.consume rest s))
      { hc with } { hpay with }
  | recon h p =>
    rw [State.reconstruct]
    rcases advance_cases (State.writeRecon p s) with ⟨-, e⟩ | ⟨-, e⟩ | e <;> rw [e] <;>
      exact { hc with }

/-- The engine's moves keep written what their place needs. -/
theorem Moved.placeWritten {s t : State} (hb : WithinBounds s) (hc : CompletedWritten s)
    (hp : PlaceWritten s) (h : Moved s t) : PlaceWritten t := by
  cases h with
  | wait => exact hp
  | raise | sigEnd | sigLast | sigRaise | payloadRaise | sizeRaise | request | answerRaise =>
    exact placeWritten_of_needsNoElement rfl
  | sigByte h | typeByte h | methodsZero h | sizeFits h =>
    exact placeWritten_of_needsNoElement (by simp [h, State.countSig, Phase.needsNoElement])
  | lenByte h =>
    refine placeWritten_of_needsNoElement ?_
    dsimp only
    split <;> rfl
  | payloadBegins h =>
    obtain ⟨hoff, -⟩ := hb.boundary (.inr h)
    have hz := hc.payloadWritten_zero
    rw [← hoff] at hz
    exact (placeWritten_payload rfl).2 { hz with }
  | payloadEmpty _ _ _ _ hl =>
    have hz := hc.payloadWritten_zero
    rw [← hl] at hz
    exact (placeWritten_crc rfl).2 { hz with }
  | payloadByte h _ b rest =>
    refine (placeWritten_payload (by simp [h])).2 ?_
    rw [State.takePayloadByte_curOff]
    exact ((placeWritten_payload h).1 hp).takePayloadByte b rest (Nat.le_refl _)
  | payloadLast h _ _ b rest _ hl | headerLast h _ b rest _ hl =>
    have hall := ((placeWritten_payload h).1 hp).takePayloadByte b rest hl
    rw [← State.takePayloadByte_curLen s b rest] at hall
    exact (placeWritten_crc rfl).2 { hall with }
  | crcByte h =>
    have hpay := (placeWritten_crc h).1 hp
    exact Iff.mpr (placeWritten_crc h) { hpay with }
  | crcLast =>
    refine placeWritten_of_needsNoElement ?_
    rw [State.chunkComplete_phase]
    split <;> rfl
  | answer h _ d _ hd =>
    obtain ⟨-, hk⟩ := hb.placeBounded.sizeKnown h
    have hscan := Memory.writtenBelow_writeList s.spaces.decompBuf d
    rw [hd, hk.engine] at hscan
    have hstart : 0 * s.stride + 0 = 0 := by omega
    exact (placeWritten_filter rfl).2 ⟨hscan, Memory.writtenBelow_zero.mono hstart.le⟩
  | recon h p =>
    obtain ⟨hscan, hrows⟩ := (placeWritten_filter h).1 hp
    exact placeWritten_advance (s := State.writeRecon p s) h hscan
      (hrows.write_next _ (Nat.le_refl _))
  | pixel h =>
    obtain ⟨hrows, hpix⟩ := (placeWritten_pack h).1 hp
    exact Iff.mpr (placeWritten_pack h) ⟨hrows, hpix.write_next _ (Nat.le_refl _)⟩
  | done h hn =>
    obtain ⟨-, hpix⟩ := (placeWritten_pack h).1 hp
    obtain ⟨-, hk, -⟩ := (placeBounded_pack h).1 hb.placeBounded
    have hlt : s.width * s.height < 2 ^ 32 := by
      have hle := hk.pixels_le
      have hmax := s.params.maxReconBytes.isLt
      omega
    exact (placeWritten_done rfl).2 ⟨hpix.mono hn, rfl, rfl, rfl, rfl,
      (BitVec.toNat_ofNat _ _).trans (Nat.mod_eq_of_lt hlt)⟩

theorem Moved.elementsWritten {s t : State} (hb : WithinBounds s) (he : ElementsWritten s)
    (h : Moved s t) : ElementsWritten t :=
  elementsWritten_of_parts (h.completedWritten he.completed he.place)
    (h.placeWritten hb he.completed he.place)

/-! ### The boundary's events -/

theorem ElementsWritten.takeTurn {s : State} (h : ElementsWritten s) :
    ElementsWritten s.takeTurn := { h with }

/-- Where nothing is counted nothing need be written. -/
theorem completedWritten_of_zero {s : State} (hc : s.eng.chunkCount = 0#32)
    (hi : s.eng.idatBytes = 0#32) (hb : s.eng.textBytes = 0#32) (ht : s.eng.textCount = 0#32) :
    CompletedWritten s where
  chunk := by rw [hc]; exact Memory.writtenBelow_zero
  idat := by rw [hi]; exact Memory.writtenBelow_zero
  text := by rw [hb]; exact Memory.writtenBelow_zero
  textdir := by rw [ht]; exact Memory.writtenBelow_zero

/-- The boundary's events keep it: START and the resets set every count to 0, and the others write
no element. -/
theorem Outside.elementsWritten {s t : State} (h : ElementsWritten s) (ho : Outside s t) :
    ElementsWritten t := by
  cases ho with
  | nothing => exact h
  | start | reset =>
    exact elementsWritten_of_parts (completedWritten_of_zero rfl rfl rfl rfl)
      (placeWritten_of_needsNoElement rfl)
  | endOfStream => exact { h with }
  | read a v => cases v <;> exact { h with }
  | streamByte b => rcases presentByte_cases s b with e | e <;> rw [e] <;> exact { h with }
  | answered =>
    rcases decompressorAnswers_cases s with e | ⟨-, r, e⟩ <;> rw [e] <;> exact { h with }

/-- Settles O15: what completed chunks have written and what the place needs are each kept by every
move of the engine, and both by the boundary's events. -/
theorem stepKeepsElementsWritten : Obligations.StepKeepsElementsWritten := by
  intro s t _ hb he h
  exact (step_moved h).elim (Moved.elementsWritten hb.takeTurn he.takeTurn)
    (Outside.elementsWritten he.takeTurn)

end Sys2Proof.Machine
end

section
/-! ## What host reads leave does not influence a step -/

namespace Sys2Proof.Machine

/-- Of two states with the same block, the second is the first with other draws and read data. -/
theorem SameBlock.eq_withOutside {s s' : State} (h : SameBlock s s') :
    s' = State.withOutside s.schedule s'.draws s'.readData s := by
  obtain ⟨hparams, heng, hregs, hspaces, hports, hschedule, hepoch⟩ := h
  cases s
  cases s'
  simp_all [State.withOutside]

theorem sameBlock_withOutside {s : State} {sch : List Event} (d : Nat) (r : Option Word)
    (h : s.schedule = sch) : SameBlock s (State.withOutside sch d r s) :=
  ⟨rfl, rfl, rfl, rfl, rfl, h, rfl⟩

theorem SameBlock.takeTurn {s s' : State} (h : SameBlock s s') :
    SameBlock s.takeTurn s'.takeTurn :=
  { h with schedule := congrArg List.tail h.schedule }

/-! ### Operations that neither read nor write what lies outside -/

/-- The operation does the same whatever lies outside, and leaves it as it was. -/
def IgnoresOutside (f : State → Host.Outcome State Fault Refusal) : Prop :=
  ∀ (sch : List Event) (d : Nat) (r : Option Word) (s : State),
    f (State.withOutside sch d r s) = mapNext (State.withOutside sch d r) (f s)

/-- Such an operation leads two states with the same block to two states with the same block. -/
theorem IgnoresOutside.sameBlock {f : State → Host.Outcome State Fault Refusal}
    (hf : IgnoresOutside f) {s s' t : State} (h : SameBlock s s') (e : f s = .next t) :
    ∃ t', f s' = .next t' ∧ SameBlock t t' := by
  have hschedule : t.schedule = s.schedule := by
    have hown : f s = mapNext (State.withOutside s.schedule s.draws s.readData) (f s) :=
      hf s.schedule s.draws s.readData s
    rw [e] at hown
    injection hown with ht
    exact (congrArg State.schedule ht :)
  refine ⟨State.withOutside s.schedule s'.draws s'.readData t, ?_,
    sameBlock_withOutside _ _ hschedule⟩
  rw [h.eq_withOutside, hf, e]
  rfl

theorem exec_ignoresOutside (i : Instr) : IgnoresOutside (exec i) :=
  fun sch d r s => exec_withOutside sch d r i s

theorem hostWriteIgnored_ignoresOutside (a : HostAddr) (n : Nat) :
    IgnoresOutside (hostWriteIgnored a n) := by
  intro sch d r s
  unfold hostWriteIgnored
  cases accessRefusal a n <;> rfl

theorem presentByte_withOutside (sch : List Event) (d : Nat) (r : Option Word) (b : Byte)
    (s : State) : State.presentByte b (State.withOutside sch d r s) =
      State.withOutside sch d r (State.presentByte b s) := by
  unfold State.presentByte
  rw [withOutside_ite]
  rfl

theorem decompressorAnswers_withOutside (sch : List Event) (d : Nat) (r : Option Word)
    (s : State) : (State.withOutside sch d r s).decompressorAnswers =
      State.withOutside sch d r s.decompressorAnswers := by
  have hp : (State.withOutside sch d r s).eng.decPending = s.eng.decPending := rfl
  have hq : (State.withOutside sch d r s).ports = s.ports := rfl
  unfold State.decompressorAnswers
  rw [hp, hq]
  cases s.eng.decPending <;> cases s.ports.request <;> cases s.ports.answer <;> rfl

/-! ### A read, and the step -/

/-- A read with a defined effect delivers a value (42_host_commands.md R164, R166). -/
theorem hostRead_next_iff {s t : State} {a : HostAddr} {n : Nat} :
    hostRead a n s = .next t ↔ accessRefusal a n = none ∧ t = s.deliver a (s.hostValue a) := by
  unfold hostRead
  cases accessRefusal a n <;> simp [eq_comm]

/-- A write that is no command, where it is not refused, changes nothing (R165). -/
theorem hostWriteIgnored_next_iff {s t : State} {a : HostAddr} {n : Nat} :
    hostWriteIgnored a n s = .next t ↔ accessRefusal a n = none ∧ t = s := by
  unfold hostWriteIgnored
  cases accessRefusal a n <;> simp [eq_comm]

/-- Whatever the two reads return, the block stays the same. -/
theorem SameBlock.deliver {s s' : State} (h : SameBlock s s') (a : HostAddr)
    (v v' : Option Word) : SameBlock (s.deliver a v) (s'.deliver a v') where
  params := by simp [h.params]
  eng := by simp [h.eng]
  regs := by simp [h.regs]
  spaces := by simp [h.spaces]
  ports := by simp [h.ports]
  schedule := by simp [h.schedule]
  epoch := by simp [h.epoch]

theorem SameBlock.hostRead {s s' t : State} (h : SameBlock s s') {a : HostAddr} {n : Nat}
    (e : hostRead a n s = .next t) : ∃ t', hostRead a n s' = .next t' ∧ SameBlock t t' := by
  obtain ⟨hr, rfl⟩ := hostRead_next_iff.1 e
  exact ⟨_, hostRead_next_iff.2 ⟨hr, rfl⟩, h.deliver a _ _⟩

/-- Every step without an instruction but a host read ignores what lies outside. -/
theorem otherStep_ignoresOutside {e : Event} (h : ∀ a n, e ≠ .hostRead a n) :
    IgnoresOutside (otherStep e) := by
  intro sch d r s
  cases e with
  | hostRead a n => exact absurd rfl (h a n)
  | hostWrite a n v => exact hostWriteIgnored_ignoresOutside a n sch d r s
  | engine => exact congrArg Host.Outcome.next (engineOther_withOutside sch d r s)
  | streamByte b => exact congrArg Host.Outcome.next (presentByte_withOutside sch d r b s)
  | decompressorAnswers =>
    exact congrArg Host.Outcome.next (decompressorAnswers_withOutside sch d r s)
  | endOfStream | powerOnReset => rfl

theorem SameBlock.otherStep {s s' t : State} (h : SameBlock s s') {e : Event}
    (hs : otherStep e s = .next t) : ∃ t', otherStep e s' = .next t' ∧ SameBlock t t' := by
  by_cases he : ∃ a n, e = .hostRead a n
  · obtain ⟨a, n, rfl⟩ := he
    exact h.hostRead hs
  · exact (otherStep_ignoresOutside fun a n ha => he ⟨a, n, ha⟩).sameBlock h hs

/-- Which instruction comes next does not depend on what host reads leave. -/
theorem SameBlock.fetch_eq {s s' : State} (h : SameBlock s s') : s'.fetch = s.fetch := by
  rw [h.eq_withOutside]
  rfl

theorem SameBlock.nextEvent_eq {s s' : State} (h : SameBlock s s') :
    s'.nextEvent = s.nextEvent := by
  rw [State.nextEvent, State.nextEvent, h.schedule]

/-- Settles O19: the two states run the same instruction or take the same event, and only a host
read touches what they may differ in. -/
theorem hostReadsDoNotInfluenceTheBlock : Obligations.HostReadsDoNotInfluenceTheBlock := by
  intro s s' t h hs
  unfold step at hs ⊢
  rw [h.fetch_eq, h.nextEvent_eq]
  cases hf : s.fetch with
  | some i =>
    rw [hf] at hs
    exact (exec_ignoresOutside i).sameBlock h.takeTurn hs
  | none =>
    rw [hf] at hs
    exact h.takeTurn.otherStep hs

end Sys2Proof.Machine
end

section
/-! ## What stops a step, and what changes nothing in DONE -/

namespace Sys2Proof.Machine

/-! ### Every instruction goes on -/

theorem next_of_ite {c : Prop} [Decidable c] {a b : Host.Outcome State Fault Refusal}
    (ha : ∃ t, a = .next t) (hb : ∃ t, b = .next t) : ∃ t, (if c then a else b) = .next t := by
  split
  · exact ha
  · exact hb

theorem execSignature_next (s : State) : ∃ t, execSignature s = .next t := by
  unfold execSignature
  cases signatureList[s.eng.sigK]? with
  | none => exact ⟨_, rfl⟩
  | some want => cases s.nextByte <;> exact ⟨_, rfl⟩

theorem execDecompress_next (s : State) : ∃ t, execDecompress s = .next t := by
  unfold execDecompress
  refine next_of_ite ?_ ⟨_, rfl⟩
  cases s.ports.answer <;> exact ⟨_, rfl⟩

/-- exec is total, and answers a next state only. -/
theorem exec_next (i : Instr) (s : State) : ∃ t, exec i s = .next t := by
  cases i with
  | signature => exact execSignature_next s
  | decompress => exact execDecompress_next s
  | methodCheck | size | pack | cmdStart => exact next_of_ite ⟨_, rfl⟩ ⟨_, rfl⟩
  | ihdr | idat | text | iend | unknownChunk | filtNone | filtSub | filtUp | filtAvg | filtPaeth
  | filtInvalid | cmdSoftReset => exact ⟨_, rfl⟩

/-! ### Refused accesses -/

/-- The accesses without a defined effect (20_memory.md R62). -/
theorem accessRefusal_iff {a : HostAddr} {n : Nat} {r : Refusal} :
    accessRefusal a n = some r ↔
      (n ≠ 4 ∧ r = .hostAccessWidth) ∨
      (n = 4 ∧ r = .hostAccessMisaligned ∧ ∃ o, a = .reg o ∧ o % 4 ≠ 0) := by
  unfold accessRefusal
  by_cases hn : n = 4
  · cases a with
    | reg o => by_cases ho : o % 4 = 0 <;> simp [hn, ho, eq_comm (a := r)]
    | chunk | textdir | idat | text | pixel => simp [hn]
  · simp [hn, eq_comm (a := r)]

/-- Without an instruction a step is refused for its host access alone. -/
theorem otherStep_refused_iff {e : Event} {u : State} {r : Refusal} :
    otherStep e u = .refused r ↔
      ∃ a n, (e = .hostRead a n ∨ ∃ v, e = .hostWrite a n v) ∧ accessRefusal a n = some r := by
  cases e with
  | hostRead a n => cases h : accessRefusal a n <;> simp [otherStep, hostRead, h]
  | hostWrite a n v => cases h : accessRefusal a n <;> simp [otherStep, hostWriteIgnored, h]
  | engine | streamByte | endOfStream | decompressorAnswers | powerOnReset => simp [otherStep]

/-! ### What a scheduled event fetches -/

theorem schedule_of_nextEvent {s : State} {e : Event} (h : s.nextEvent = e) (he : e ≠ .engine) :
    ∃ r, s.schedule = e :: r := by
  unfold State.nextEvent at h
  cases hs : s.schedule with
  | nil => rw [hs] at h; exact absurd h.symm he
  | cons e' r => rw [hs] at h; exact ⟨r, by rw [← h]; rfl⟩

/-- What is fetched, by the event that comes next (30_encoding.md R80, R94). -/
theorem fetch_cases (s : State) :
    (s.nextEvent = .engine ∧ s.fetch = s.engineInstr) ∨
    (∃ a n v, s.nextEvent = .hostWrite a n v ∧ s.fetch = fetchCode (ctrlCode a n v)) ∨
    s.fetch = none := by
  cases he : s.nextEvent with
  | engine => exact .inl ⟨rfl, fetch_of_engineTurn he⟩
  | hostWrite a n v =>
    obtain ⟨r, hs⟩ := schedule_of_nextEvent he nofun
    exact .inr (.inl ⟨a, n, v, rfl, by rw [State.fetch, hs]⟩)
  | hostRead | streamByte | endOfStream | decompressorAnswers | powerOnReset =>
    obtain ⟨r, hs⟩ := schedule_of_nextEvent he nofun
    exact .inr (.inr (by rw [State.fetch, hs]))

/-- A step that runs an instruction is no refused access: it is the engine's turn, or a 32-bit write
of CTRL. -/
theorem accessRefusal_of_fetch {s : State} {i : Instr} (h : s.fetch = some i) {a : HostAddr}
    {n : Nat} (he : s.nextEvent = .hostRead a n ∨ ∃ v, s.nextEvent = .hostWrite a n v) :
    accessRefusal a n = none := by
  rcases fetch_cases s with ⟨hE, -⟩ | ⟨a', n', v, hw, hf⟩ | hf
  · rw [hE] at he
    rcases he with he | ⟨v, he⟩ <;> cases he
  · obtain ⟨rfl, rfl, -⟩ := fetchCode_ctrl (hf.symm.trans h)
    rw [hw] at he
    rcases he with he | ⟨v', he⟩ <;> cases he
    rfl
  · rw [hf] at h
    cases h

theorem step_of_fetch_none {s : State} (h : s.fetch = none) :
    step s = otherStep s.nextEvent s.takeTurn := by rw [step, h]

theorem step_refused_iff {s : State} {r : Refusal} :
    step s = .refused r ↔
      ∃ a n, (s.nextEvent = .hostRead a n ∨ ∃ v, s.nextEvent = .hostWrite a n v) ∧
        accessRefusal a n = some r := by
  cases hf : s.fetch with
  | none => rw [step_of_fetch_none hf, otherStep_refused_iff]
  | some i =>
    obtain ⟨t, ht⟩ := exec_next i s.takeTurn
    have hstep : step s = .next t := by rw [step, hf]; exact ht
    constructor
    · intro h
      rw [hstep] at h
      cases h
    · rintro ⟨a, n, he, hr⟩
      rw [accessRefusal_of_fetch hf he] at hr
      cases hr

/-- Settles O7: instructions go on, a fault has no kind, and an access is refused as R62 says. -/
theorem onlyUndefinedHostAccessesStop : Obligations.OnlyUndefinedHostAccessesStop := by
  refine ⟨exec_next, fun s => ⟨nofun, fun r => ?_⟩⟩
  rw [step_refused_iff]
  simp only [accessRefusal_iff]

/-! ### Nothing changes in DONE -/

/-- The part of the block that holds results is the same. -/
structure SameResults (s t : State) : Prop where
  eng : t.eng = s.eng
  regs : t.regs = s.regs
  spaces : t.spaces = s.spaces
  params : t.params = s.params

/-- In DONE only the engine's turn and a command's write could run an instruction, and the engine
rests there (60_exceptions.md R188). -/
theorem fetch_none_of_done {s : State} (hp : s.eng.phase = .done)
    (hcmd : ∀ a n v, s.nextEvent = .hostWrite a n v → a = .reg 0x00 →
      v.getLsbD 0 = false ∧ v.getLsbD 1 = false) : s.fetch = none := by
  rcases fetch_cases s with ⟨-, hf⟩ | ⟨a, n, v, hw, hf⟩ | hf
  · rw [hf, engineInstr_rest (.inr (.inl hp))]
  · cases hc : fetchCode (ctrlCode a n v) with
    | none => rw [hf, hc]
    | some i =>
      obtain ⟨ha, -, hd⟩ := fetchCode_ctrl hc
      obtain ⟨h0, h1⟩ := hcmd a n v hw ha
      rw [decodeCtrl_of_bits h1 h0] at hd
      cases hd
  · exact hf

/-- In DONE an event that is no power-on reset changes a port, the read data or nothing. -/
theorem sameResults_otherStep {e : Event} {u t : State} (hp : u.eng.phase = .done)
    (he : e ≠ .powerOnReset) (h : otherStep e u = .next t) : SameResults u t := by
  cases e with
  | engine =>
    cases h
    rw [State.engineOther, hp]
    exact ⟨rfl, rfl, rfl, rfl⟩
  | hostWrite a n v =>
    obtain ⟨-, rfl⟩ := hostWriteIgnored_next_iff.1 h
    exact ⟨rfl, rfl, rfl, rfl⟩
  | hostRead a n =>
    obtain ⟨-, rfl⟩ := hostRead_next_iff.1 h
    exact ⟨by simp, by simp, by simp, by simp⟩
  | streamByte b => cases h; exact ⟨by simp, by simp, by simp, by simp⟩
  | endOfStream => cases h; exact ⟨rfl, rfl, rfl, rfl⟩
  | decompressorAnswers => cases h; exact ⟨by simp, by simp, by simp, by simp⟩
  | powerOnReset => exact absurd rfl he

/-- Settles O18: in DONE no instruction runs, and an event without one changes no result. -/
theorem resultsAreFrozenInDone : Obligations.ResultsAreFrozenInDone := by
  intro s t hp h hcmd hreset
  rw [step_of_fetch_none (fetch_none_of_done hp hcmd)] at h
  obtain ⟨heng, hregs, hspaces, hparams⟩ := sameResults_otherStep (u := s.takeTurn) hp hreset h
  exact ⟨heng, hregs, hspaces, hparams⟩

end Sys2Proof.Machine
end

section
/-! ## The encoding -/

namespace Sys2Proof

/-! ### Every code of a place is the encoding of what it decodes to (30_encoding.md R91, R94) -/

theorem decodeSignature_eq_ok_iff {w : BitVec 64} {i : Instr} :
    decodeSignature w = .ok i ↔ w = signatureCode ∧ i = .signature := by
  unfold decodeSignature
  by_cases h : w = signatureCode <;> simp [h, eq_comm]

theorem encode_decodeTypeCode (w : Word) :
    (decodeTypeCode w).WellFormed ∧ encode (decodeTypeCode w) = some (.tag w) := by
  rcases decodeTypeCode_cases w with ⟨h, d⟩ | ⟨h, d⟩ | ⟨h, d⟩ | ⟨h, d⟩ | ⟨h, d⟩
  case inr.inr.inr.inr => rw [d]; exact ⟨wellFormed_unknownChunk.2 h, rfl⟩
  all_goals rw [d, h]; exact ⟨rfl, rfl⟩

theorem encode_decodeFilterByte (b : Byte) :
    (decodeFilterByte b).WellFormed ∧ encode (decodeFilterByte b) = some (.filter b) := by
  rcases decodeFilterByte_cases b with ⟨h, d⟩ | ⟨h, d⟩ | ⟨h, d⟩ | ⟨h, d⟩ | ⟨h, d⟩ | ⟨h, d⟩
  case inr.inr.inr.inr.inr => rw [d]; exact ⟨wellFormed_filtInvalid.2 h, rfl⟩
  all_goals rw [d, h]; exact ⟨rfl, rfl⟩

/-- No bit of a command's word is lost: bits 31:2 and, for SOFT_RESET, bit 0 stand in the command's
operands, and the other bits are what selects it. -/
theorem encode_of_decodeCtrl {w : Word} {i : Instr} (h : decodeCtrl w = .ok i) :
    i.WellFormed ∧ encode i = some (.ctrl w) := by
  have hw := ctrl_split w
  cases h1 : w.getLsbD 1 with
  | true =>
    rw [decodeCtrl_of_bits h1 rfl] at h
    cases h
    rw [h1] at hw
    exact ⟨rfl, congrArg (some ∘ Code.ctrl) hw.symm⟩
  | false =>
    cases h0 : w.getLsbD 0 with
    | true =>
      rw [decodeCtrl_of_bits h1 h0] at h
      cases h
      rw [h1, h0] at hw
      exact ⟨rfl, congrArg (some ∘ Code.ctrl) hw.symm⟩
    | false =>
      rw [decodeCtrl_of_bits h1 h0] at h
      cases h

/-! ### The filter-type bytes as numbers -/

/-- The filter decode by the byte's number (R89). -/
theorem decodeFilterByte_eq_toNat (b : Byte) :
    decodeFilterByte b =
      if b.toNat = 0 then .filtNone else if b.toNat = 1 then .filtSub
      else if b.toNat = 2 then .filtUp else if b.toNat = 3 then .filtAvg
      else if b.toNat = 4 then .filtPaeth else .filtInvalid b := by
  simp only [decodeFilterByte, ← BitVec.toNat_inj]
  rfl

/-! ### The round trip of every instruction -/

/-- What the encoder writes for an instruction, the decoder reads back. -/
theorem roundTrip (i : Instr) : Laws.RoundTrip.Statement i := by
  cases i with
  | signature => exact Laws.RoundTrip.signature
  | ihdr => exact Laws.RoundTrip.ihdr
  | idat => exact Laws.RoundTrip.idat
  | text => exact Laws.RoundTrip.text
  | iend => exact Laws.RoundTrip.iend
  | unknownChunk code => exact Laws.RoundTrip.unknownChunk code
  | methodCheck => exact Laws.RoundTrip.methodCheck
  | size => exact Laws.RoundTrip.size
  | decompress => exact Laws.RoundTrip.decompress
  | filtNone => exact Laws.RoundTrip.filtNone
  | filtSub => exact Laws.RoundTrip.filtSub
  | filtUp => exact Laws.RoundTrip.filtUp
  | filtAvg => exact Laws.RoundTrip.filtAvg
  | filtPaeth => exact Laws.RoundTrip.filtPaeth
  | filtInvalid ft => exact Laws.RoundTrip.filtInvalid ft
  | pack => exact Laws.RoundTrip.pack
  | cmdStart reserved => exact Laws.RoundTrip.cmdStart reserved
  | cmdSoftReset start reserved => exact Laws.RoundTrip.cmdSoftReset start reserved

end Sys2Proof

namespace Sys2Proof.Machine

/-! ### An unknown tag, and a CTRL word that is no command -/

theorem exec_unknownChunk (w : Word) (s : State) :
    exec (.unknownChunk w) s = .next (s.raiseAtChunk .unsupportedChunkType) := rfl

/-- A CTRL word with bits 1:0 = 00 is no command (30_encoding.md R94). -/
theorem fetchCode_ctrl_none {w : Word} (h1 : w.getLsbD 1 = false) (h0 : w.getLsbD 0 = false) :
    fetchCode (ctrlCode (.reg 0x00) 4 w) = none := by
  have hd : decode (.ctrl w) = .error .noCommand := decodeCtrl_of_bits h1 h0
  simp [ctrlCode, fetchCode, hd]

/-- A CTRL write that is no command takes its event and changes nothing else (42_host_commands.md
R163). -/
theorem step_ctrl_noCommand {s : State} {w : Word} {rest : List Event}
    (h : s.schedule = .hostWrite (.reg 0x00) 4 w :: rest) (h1 : w.getLsbD 1 = false)
    (h0 : w.getLsbD 0 = false) : step s = .next { s with schedule := rest } := by
  rw [step_hostWrite_ignored h (fetchCode_ctrl_none h1 h0)]
  exact hostWriteIgnored_next_iff.2 ⟨rfl, (takeTurn_of_cons h).symm⟩

/-! ### The statements -/

/-- Settles O1, by the round trip of each instruction. -/
theorem decodeOfEncode : Obligations.DecodeOfEncode :=
  fun i c hw hc => roundTrip i hw c hc

/-- Settles O2, by the place of the code. -/
theorem encodeOfDecode : Obligations.EncodeOfDecode := by
  intro c i h
  cases c with
  | sig w =>
    obtain ⟨rfl, rfl⟩ := decodeSignature_eq_ok_iff.1 h
    exact ⟨rfl, rfl⟩
  | tag w => cases h; exact encode_decodeTypeCode w
  | filter b => cases h; exact encode_decodeFilterByte b
  | ctrl w => exact encode_of_decodeCtrl h

/-- Settles O3: the type codes are those of the model, and UNKNOWN raises in every state. -/
theorem everyCodeSelectsOneRow : Obligations.EveryCodeSelectsOneRow :=
  ⟨fun _ => rfl, fun b => congrArg Except.ok (decodeFilterByte_eq_toNat b),
    fun w s => ⟨_, exec_unknownChunk w s, rfl, rfl⟩⟩

/-- Settles O4, by the two command bits of the word. -/
theorem ctrlWordsAndTheirCommands : Obligations.CtrlWordsAndTheirCommands := by
  refine ⟨rfl, rfl, rfl, ?_, ?_, ?_⟩
  · exact fun w h1 => ⟨_, _, decodeCtrl_of_bits h1 rfl⟩
  · exact fun w h1 h0 => ⟨_, decodeCtrl_of_bits h1 h0⟩
  · exact fun w s rest h1 h0 h => step_ctrl_noCommand h h1 h0

/-- Settles O5: each word is a closed one, so the decoder is evaluated on it. -/
theorem specWordsDecode : Obligations.SpecWordsDecode :=
  ⟨rfl, rfl, rfl, rfl, rfl, rfl, rfl, rfl, rfl, rfl, rfl⟩

/-- Settles O6, by the place the engine stands at (30_encoding.md R80), or by the CTRL write. -/
theorem stepRunsDecodedInstruction : Obligations.StepRunsDecodedInstruction := by
  intro s i
  refine ⟨fun hE => ⟨?chunk, ?filter, ?sig, ?method, ?size, ?decompress, ?pack⟩, ?ctrl⟩
  case chunk =>
    intro hp hd
    cases hd
    exact step_engine_instr hE (engineInstr_chunk hp)
  case filter =>
    intro hp hd
    cases hd
    exact step_engine_instr hE (engineInstr_filter hp)
  case sig => exact fun hp => step_engine_instr hE (engineInstr_sig hp)
  case method => exact fun hp hs => step_engine_instr hE (engineInstr_method hp hs)
  case size => exact fun hp hs => step_engine_instr hE (engineInstr_size hp hs)
  case decompress => exact fun hp => step_engine_instr hE (engineInstr_decompress hp)
  case pack => exact fun hp => step_engine_instr hE (engineInstr_pack hp)
  case ctrl =>
    intro v rest h hd
    rw [step_ctrl h hd, takeTurn_of_cons h]

end Sys2Proof.Machine
end

section
/-! ## The parser's instructions, by the point a chunk has reached -/

namespace Sys2Proof.Machine

/-- The instruction of a recognised chunk, with its code, where it stores a payload byte and what
ends its payload (40_container_parser.md R105, R109, R110, R113). -/
inductive ChunkInstr : Instr → Word → (Byte → State → State) → (State → State) → Prop where
  | ihdr : ChunkInstr .ihdr codeIHDR State.storeHeaderByte State.ihdrComplete
  | idat : ChunkInstr .idat codeIDAT State.storeIdatByte State.enterCrc
  | text : ChunkInstr .text codeTEXt State.storeTextByte State.textComplete
  | iend : ChunkInstr .iend codeIEND State.storeNothing State.enterCrc

theorem chunkInstr_of_known {ty : Word} (h : ty ∈ knownCodes) :
    ∃ store complete, ChunkInstr (decodeTypeCode ty) ty store complete := by
  rcases decodeTypeCode_cases ty with ⟨e, d⟩ | ⟨e, d⟩ | ⟨e, d⟩ | ⟨e, d⟩ | ⟨hne, -⟩
  · rw [d, e]; exact ⟨_, _, .ihdr⟩
  · rw [d, e]; exact ⟨_, _, .idat⟩
  · rw [d, e]; exact ⟨_, _, .text⟩
  · rw [d, e]; exact ⟨_, _, .iend⟩
  · exact absurd h hne

section
variable {s : State} {i : Instr} {ty : Word} {store : Byte → State → State}
  {complete : State → State}

theorem ChunkInstr.exec_eq (h : ChunkInstr i ty store complete) (s : State) :
    exec i s = .next (State.chunkStep ty store complete s) := by
  cases h <;> rfl

theorem ChunkInstr.exec_type (h : ChunkInstr i ty store complete) (hp : s.eng.phase = .type) :
    exec i s = .next (State.typeCompletion ty complete s) := by
  rw [h.exec_eq, chunkStep_type hp]

theorem ChunkInstr.exec_payload (h : ChunkInstr i ty store complete)
    (hp : s.eng.phase = .payload) :
    exec i s = .next (State.payloadStep store complete s) := by
  rw [h.exec_eq, chunkStep_payload hp]

theorem ChunkInstr.exec_crc (h : ChunkInstr i ty store complete) (hp : s.eng.phase = .crc) :
    exec i s = .next (State.crcStep ty s) := by
  rw [h.exec_eq, chunkStep_crc hp]

/-- A chunk that fails a type check raises its error at the chunk's place (R104). -/
theorem ChunkInstr.exec_raise (h : ChunkInstr i ty store complete) (hp : s.eng.phase = .type)
    {k : ErrKind} (hc : s.typeChecks ty = some k) : exec i s = .next (s.raiseAtChunk k) := by
  rw [h.exec_type hp, typeCompletion_raise hc]

/-- A chunk that passes them and has a payload goes on to it (R103). -/
theorem ChunkInstr.exec_begin (h : ChunkInstr i ty store complete) (hp : s.eng.phase = .type)
    (hc : ChecksPass s ty) (hl : s.eng.curLen ≠ 0#32) : exec i s = .next (s.setPhase .payload) := by
  rw [h.exec_type hp, typeCompletion_pass hc, if_pos (BitVec.toNat_pos_of_ne_zero hl)]

/-- With no payload its completion comes at once (R103). -/
theorem ChunkInstr.exec_empty (h : ChunkInstr i ty store complete) (hp : s.eng.phase = .type)
    (hc : ChecksPass s ty) (hl : s.eng.curLen = 0#32) : exec i s = .next (complete s) := by
  rw [h.exec_type hp, typeCompletion_pass hc, if_neg (by simp [hl])]

end

/-! ### The type checks in their order (R104, R108, R113) -/

/-- The chunk is one that may stand here, and of the length its type demands: the checks before
those of the capacities. -/
structure InPlace (s : State) (ty : Word) : Prop where
  first : s.eng.chunkCount.toNat = 0 ↔ ty = codeIHDR
  ihdr : ty = codeIHDR → s.eng.curLen.toNat = 13
  iend : ty = codeIEND → s.eng.curLen.toNat = 0

/-- There is room for the chunk: the checks of the capacities (R108). -/
structure Fits (s : State) (ty : Word) : Prop where
  chunks : s.eng.chunkCount.toNat + 1 ≤ s.params.maxChunks.toNat
  idat : ty = codeIDAT →
    s.eng.idatBytes.toNat + s.eng.curLen.toNat ≤ s.params.maxIdatBytes.toNat
  text : ty = codeTEXt →
    s.eng.textBytes.toNat + s.eng.curLen.toNat + 1 ≤ s.params.maxTextBytes.toNat

section
variable {s : State} {ty : Word}

theorem InPlace.checksPass (h : InPlace s ty) (hf : Fits s ty) : ChecksPass s ty :=
  { h, hf with }

theorem toNat_eq_zero_iff {w : Word} : w.toNat = 0 ↔ w = 0#32 :=
  BitVec.toNat_inj (y := 0#32)

theorem inPlace_ihdr (hc : s.eng.chunkCount = 0#32) (hl : s.eng.curLen = 13#32) :
    InPlace s codeIHDR :=
  ⟨by simp [hc], fun _ => by simp [hl], fun e => absurd e.symm codeIEND_ne_codeIHDR⟩

/-- A later chunk other than IHDR may stand anywhere; only an IEND must have length 0. -/
theorem inPlace_later (hc : s.eng.chunkCount ≠ 0#32) (hty : ty ≠ codeIHDR)
    (hl : ty = codeIEND → s.eng.curLen = 0#32) : InPlace s ty :=
  ⟨by simp [toNat_eq_zero_iff, hc, hty], fun e => absurd e hty, fun e => by simp [hl e]⟩

theorem inPlace_idat (hc : s.eng.chunkCount ≠ 0#32) : InPlace s codeIDAT :=
  inPlace_later hc codeIDAT_ne_codeIHDR (fun e => absurd e.symm codeIEND_ne_codeIDAT)

theorem inPlace_text (hc : s.eng.chunkCount ≠ 0#32) : InPlace s codeTEXt :=
  inPlace_later hc codeTEXt_ne_codeIHDR (fun e => absurd e.symm codeIEND_ne_codeTEXt)

theorem inPlace_iend (hc : s.eng.chunkCount ≠ 0#32) (hl : s.eng.curLen = 0#32) :
    InPlace s codeIEND :=
  inPlace_later hc codeIEND_ne_codeIHDR (fun _ => hl)

theorem fits_ihdr (hm : s.eng.chunkCount.toNat + 1 ≤ s.params.maxChunks.toNat) :
    Fits s codeIHDR :=
  ⟨hm, fun e => absurd e.symm codeIDAT_ne_codeIHDR, fun e => absurd e.symm codeTEXt_ne_codeIHDR⟩

theorem fits_idat (hm : s.eng.chunkCount.toNat + 1 ≤ s.params.maxChunks.toNat)
    (hi : s.eng.idatBytes.toNat + s.eng.curLen.toNat ≤ s.params.maxIdatBytes.toNat) :
    Fits s codeIDAT :=
  ⟨hm, fun _ => hi, fun e => absurd e codeIDAT_ne_codeTEXt⟩

theorem fits_text (hm : s.eng.chunkCount.toNat + 1 ≤ s.params.maxChunks.toNat)
    (ht : s.eng.textBytes.toNat + s.eng.curLen.toNat + 1 ≤ s.params.maxTextBytes.toNat) :
    Fits s codeTEXt :=
  ⟨hm, fun e => absurd e codeTEXt_ne_codeIDAT, fun _ => ht⟩

theorem fits_iend (hm : s.eng.chunkCount.toNat + 1 ≤ s.params.maxChunks.toNat) :
    Fits s codeIEND :=
  ⟨hm, fun e => absurd e codeIEND_ne_codeIDAT, fun e => absurd e codeIEND_ne_codeTEXt⟩

theorem typeChecks_first (hc : s.eng.chunkCount = 0#32) (hty : ty ≠ codeIHDR) :
    s.typeChecks ty = some .sequenceError := by
  rw [State.typeChecks, if_pos ⟨by simp [hc], hty⟩]

theorem typeChecks_second_ihdr (hc : s.eng.chunkCount ≠ 0#32) :
    s.typeChecks codeIHDR = some .sequenceError := by
  rw [State.typeChecks, if_neg (fun h => h.2 rfl), if_pos ⟨BitVec.toNat_pos_of_ne_zero hc, rfl⟩]

theorem typeChecks_ihdr_length (hc : s.eng.chunkCount = 0#32) (hl : s.eng.curLen ≠ 13#32) :
    s.typeChecks codeIHDR = some .malformedChunk := by
  rw [State.typeChecks, if_neg (fun h => h.2 rfl), if_neg (by simp [hc]),
    if_pos ⟨rfl, by bv_omega⟩]

theorem typeChecks_iend_length (hc : s.eng.chunkCount ≠ 0#32) (hl : s.eng.curLen ≠ 0#32) :
    s.typeChecks codeIEND = some .malformedChunk := by
  rw [State.typeChecks, if_neg (by simp [toNat_eq_zero_iff, hc]),
    if_neg (fun h => codeIEND_ne_codeIHDR h.2), if_neg (fun h => codeIEND_ne_codeIHDR h.1),
    if_pos ⟨rfl, by bv_omega⟩]

/-- A chunk in its place that does not fit exceeds a capacity, whichever it is. -/
theorem InPlace.typeChecks_full (h : InPlace s ty) (hf : ¬ Fits s ty) :
    s.typeChecks ty = some .capacityExceeded := by
  rw [State.typeChecks, if_neg (fun c => c.2 (h.first.1 c.1)),
    if_neg (fun c => by have := h.first.2 c.2; omega), if_neg (fun c => c.2 (h.ihdr c.1)),
    if_neg (fun c => c.2 (h.iend c.1))]
  split
  next => rfl
  next hchunks =>
    split
    next => rfl
    next hidat =>
      split
      next => rfl
      next htext =>
        have fits : Fits s ty :=
          ⟨by omega, fun e => not_lt.1 fun hlt => hidat ⟨e, hlt⟩,
            fun e => not_lt.1 fun hlt => htext ⟨e, hlt⟩⟩
        exact absurd fits hf

end

/-! ### A tEXt's payload completion (R110) -/

theorem textComplete_of_seen {s : State} (h : s.eng.zeroSeen = true) :
    s.textComplete = s.enterCrc := if_pos h

theorem textComplete_of_not_seen {s : State} (h : s.eng.zeroSeen = false) :
    s.textComplete = s.raiseAtChunk .malformedChunk := if_neg (by simp [h])

/-! ### The statements on the type completion -/

/-- Settles O34: the failed check of each clause. -/
theorem typeChecksRaiseInOrder : Obligations.TypeChecksRaiseInOrder := by
  intro s hp
  refine ⟨?_, ?_, ?_, ?_, fun hm => ⟨?_, ?_, ?_⟩, ?_, ?_⟩
  · intro hc i hi
    simp only [List.mem_cons, List.not_mem_nil, or_false] at hi
    rcases hi with rfl | rfl | rfl
    · exact ChunkInstr.idat.exec_raise hp (typeChecks_first hc codeIDAT_ne_codeIHDR)
    · exact ChunkInstr.text.exec_raise hp (typeChecks_first hc codeTEXt_ne_codeIHDR)
    · exact ChunkInstr.iend.exec_raise hp (typeChecks_first hc codeIEND_ne_codeIHDR)
  · exact fun hc => ChunkInstr.ihdr.exec_raise hp (typeChecks_second_ihdr hc)
  · exact fun hc hl => ChunkInstr.ihdr.exec_raise hp (typeChecks_ihdr_length hc hl)
  · exact fun hc hl => ChunkInstr.iend.exec_raise hp (typeChecks_iend_length hc hl)
  · exact fun hc hl => ChunkInstr.ihdr.exec_raise hp
      ((inPlace_ihdr hc hl).typeChecks_full fun hf => hf.chunks.not_gt hm)
  · exact fun hc =>
      ⟨ChunkInstr.idat.exec_raise hp
        ((inPlace_idat hc).typeChecks_full fun hf => hf.chunks.not_gt hm),
       ChunkInstr.text.exec_raise hp
        ((inPlace_text hc).typeChecks_full fun hf => hf.chunks.not_gt hm)⟩
  · exact fun hc hl => ChunkInstr.iend.exec_raise hp
      ((inPlace_iend hc hl).typeChecks_full fun hf => hf.chunks.not_gt hm)
  · exact fun hc hm => ChunkInstr.idat.exec_raise hp
      ((inPlace_idat hc).typeChecks_full fun hf => (hf.idat rfl).not_gt hm)
  · exact fun hc hm => ChunkInstr.text.exec_raise hp
      ((inPlace_text hc).typeChecks_full fun hf => (hf.text rfl).not_gt hm)

/-- Settles O33: each chunk is in its place and fits, and goes on by its length. -/
theorem admittedChunkGoesOn : Obligations.AdmittedChunkGoesOn := by
  intro s hp hm
  refine ⟨?_, ?_, ?_, ?_⟩
  · intro hc hl
    exact ChunkInstr.ihdr.exec_begin hp ((inPlace_ihdr hc hl).checksPass (fits_ihdr hm))
      (by simp [hl])
  · intro hc hi
    have pass := (inPlace_idat hc).checksPass (fits_idat hm hi)
    split
    next hl => exact ChunkInstr.idat.exec_empty hp pass hl
    next hl => exact ChunkInstr.idat.exec_begin hp pass hl
  · intro hc hl ht
    exact ChunkInstr.text.exec_begin hp ((inPlace_text hc).checksPass (fits_text hm ht)) hl
  · intro hc hl
    exact ChunkInstr.iend.exec_empty hp ((inPlace_iend hc hl).checksPass (fits_iend hm)) hl

/-- Settles O39: the checks pass, and the payload completes with no 0x00 seen. -/
theorem emptyTextIsMalformed : Obligations.EmptyTextIsMalformed := by
  intro s hp hz hl hc hm ht
  have pass := (inPlace_text hc).checksPass (fits_text hm (by simpa [hl] using ht))
  rw [ChunkInstr.text.exec_empty hp pass hl, textComplete_of_not_seen hz]
  rfl

/-- Settles O35, by the instruction's one equation: it reads nothing but the chunk's place. -/
theorem unknownChunkIsFatal : Obligations.UnknownChunkIsFatal := exec_unknownChunk

end Sys2Proof.Machine
end

section
/-! ## The chunk parser's single steps -/

namespace Sys2Proof.Machine

/-! ### A payload byte (R105, R106, R109, R110) -/

/-- Settles O37: the byte is stored and counted, and after the last one the CRC follows. -/
theorem idatPayloadIsAppended : Obligations.IdatPayloadIsAppended := by
  intro s b rest hp hs
  refine ⟨_, ChunkInstr.idat.exec_payload hp, ?_⟩
  rw [idatStep_cons hs]
  have hread (a : Nat) : Memory.read?
      (Memory.write s.spaces.idat (s.eng.idatBytes.toNat + s.eng.curOff) b) a =
      if a = s.eng.idatBytes.toNat + s.eng.curOff then some b
      else Memory.read? s.spaces.idat a := Memory.read?_write _ _ _ _
  by_cases hl : s.eng.curLen.toNat ≤ s.eng.curOff + 1
  · rw [if_pos hl, if_neg (by omega), if_neg (by omega)]
    exact ⟨hread, rfl⟩
  · rw [if_neg hl, if_pos (by omega), if_pos (by omega), ← hp]
    exact ⟨hread, rfl⟩

/-- Settles O38: the byte is stored and counted, and after the last one the completion checks that a
0x00 was seen. -/
theorem textPayloadIsStoredAndSplit : Obligations.TextPayloadIsStoredAndSplit := by
  intro s b rest hp hs
  refine ⟨State.countByte (State.storeTextByte b (State.consume rest s)), _,
    fun _ => Memory.read?_write _ _ _ _, rfl, ?_, ?_, ?_⟩
  all_goals rw [ChunkInstr.text.exec_payload hp, textStep_cons hs]
  · intro hl
    rw [if_neg (by omega)]
  · intro hl hz
    rw [if_pos hl, textComplete_of_seen hz]
    rfl
  · intro hl hz
    rw [if_pos hl, textComplete_of_not_seen hz]
    rfl

theorem ihdrComplete_zero {s : State} (h : s.eng.ihdrWidth = 0#32 ∨ s.eng.ihdrHeight = 0#32) :
    s.ihdrComplete = s.raise .malformedChunk s.eng.curStart 0#32 := if_pos h

theorem ihdrComplete_nonzero {s : State} (hw : s.eng.ihdrWidth ≠ 0#32)
    (hh : s.eng.ihdrHeight ≠ 0#32) : s.ihdrComplete = s.setHeader.enterCrc :=
  if_neg (not_or.2 ⟨hw, hh⟩)

/-! The header fields as the bytes of the buffer (30_encoding.md R84). -/

theorem ihdrWidth_eq (e : Engine) :
    e.ihdrWidth = e.hdrBuf[0] ++ e.hdrBuf[1] ++ e.hdrBuf[2] ++ e.hdrBuf[3] := be32_eq_append ..

theorem ihdrHeight_eq (e : Engine) :
    e.ihdrHeight = e.hdrBuf[4] ++ e.hdrBuf[5] ++ e.hdrBuf[6] ++ e.hdrBuf[7] := be32_eq_append ..

theorem ihdrFmt_eq (e : Engine) :
    e.ihdrFmt = e.hdrBuf[11] ++ e.hdrBuf[10] ++ e.hdrBuf[9] ++ e.hdrBuf[8] := be32_eq_append ..

theorem ihdrIlace_eq (e : Engine) : e.ihdrIlace = 0#24 ++ e.hdrBuf[12] := setWidth_eq_append _

/-- Settles O36: a byte is put at its own place, and the last of the 13 completes the header. -/
theorem ihdrPayloadFillsTheHeader : Obligations.IhdrPayloadFillsTheHeader := by
  intro s b rest hp hl hs
  have hexec := ChunkInstr.ihdr.exec_payload hp
  rw [headerStep_cons hs] at hexec
  have hlen : s.eng.curLen.toNat = 13 := by simp [hl]
  constructor
  · intro hk
    rw [if_neg (by omega)] at hexec
    rw [hexec, ← hdrBuf_setIfInBounds (by omega)]
    rfl
  · intro hk w h hw hh
    rw [if_pos (by omega)] at hexec
    have hlast : State.countByte (State.storeHeaderByte b (State.consume rest s)) = { s with
        eng := { s.eng with
          pos := s.eng.pos + 1, curOff := 13, hdrBuf := s.eng.hdrBuf.set 12 b }
        ports := { s.ports with stream := rest } } := by
      rw [← hdrBuf_setIfInBounds (by omega)]
      simp [State.countByte, State.storeHeaderByte, State.consume, hk]
    rw [hlast] at hexec
    rw [hexec]
    constructor
    · intro hw0 hh0
      rw [ihdrComplete_nonzero (by simpa [ihdrWidth_eq, ← hw] using hw0)
        (by simpa [ihdrHeight_eq, ← hh] using hh0)]
      simp [State.setHeader, State.enterCrc, ihdrWidth_eq, ihdrHeight_eq, ihdrFmt_eq,
        ihdrIlace_eq, hw, hh]
    · intro h0
      rw [ihdrComplete_zero (by simpa [ihdrWidth_eq, ihdrHeight_eq, ← hw, ← hh] using h0)]

/-! ### A byte of the CRC field (R111) -/

theorem takeCrcByte_consume (s : State) (b : Byte) (rest : List Byte) :
    State.takeCrcByte b (State.consume rest s) = { s with
      eng := { s.eng with
        pos := s.eng.pos + 1, fldK := s.eng.fldK + 1
        curCrc := s.eng.curCrc.extractLsb' 0 24 ++ b }
      ports := { s.ports with stream := rest } } := by
  rw [← appendByte_eq_extract]
  rfl

section
variable {s : State} {b : Byte} {rest : List Byte} {i : Instr} {ty : Word}
  {store : Byte → State → State} {complete : State → State}

theorem ChunkInstr.exec_crc_byte (h : ChunkInstr i ty store complete) (hp : s.eng.phase = .crc)
    (hk : s.eng.fldK < 3) (hs : s.ports.stream = b :: rest) :
    exec i s = .next (State.takeCrcByte b (State.consume rest s)) := by
  rw [h.exec_crc hp, crcStep_cons hs, if_neg (by omega)]

theorem ChunkInstr.exec_crc_last (h : ChunkInstr i ty store complete) (hp : s.eng.phase = .crc)
    (hk : s.eng.fldK = 3) (hs : s.ports.stream = b :: rest) :
    exec i s = .next (State.chunkComplete ty (State.takeCrcByte b (State.consume rest s))) := by
  rw [h.exec_crc hp, crcStep_cons hs, if_pos (by omega)]

end

/-- Settles O40: whatever the chunk, the byte is shifted in and counted. -/
theorem crcBytesAreCollected : Obligations.CrcBytesAreCollected := by
  intro s b rest hp hk hs i hi
  rw [← takeCrcByte_consume]
  simp only [List.mem_cons, List.not_mem_nil, or_false] at hi
  rcases hi with rfl | rfl | rfl | rfl
  · exact ChunkInstr.ihdr.exec_crc_byte hp hk hs
  · exact ChunkInstr.idat.exec_crc_byte hp hk hs
  · exact ChunkInstr.text.exec_crc_byte hp hk hs
  · exact ChunkInstr.iend.exec_crc_byte hp hk hs

/-! ### Chunk completion (R111) -/

theorem chunkComplete_ihdr (s : State) : State.chunkComplete codeIHDR s =
    (State.writeRecord codeIHDR s).countChunk.chunkBoundary := rfl

theorem chunkComplete_idat (s : State) : State.chunkComplete codeIDAT s =
    (State.writeRecord codeIDAT s).commitIdat.countChunk.chunkBoundary := rfl

theorem chunkComplete_text (s : State) : State.chunkComplete codeTEXt s =
    (State.writeRecord codeTEXt s).commitText.countChunk.chunkBoundary := rfl

@[simp] theorem State.commitType_chunk (ty : Word) (s : State) :
    (State.commitType ty s).spaces.chunk = s.spaces.chunk := by
  unfold State.commitType; repeat' split
  all_goals rfl

/-- Completing a chunk writes its record at `chunk_count` and no other. -/
theorem read?_chunkComplete (ty : Word) (s : State) (k : Nat) :
    Memory.read? (State.chunkComplete ty s).spaces.chunk k =
      if k = s.eng.chunkCount.toNat then some (s.chunkRecord ty)
      else Memory.read? s.spaces.chunk k := by
  simp [State.chunkComplete, Memory.read?_write]

/-- Settles O41: the record, what an IDAT adds, and where the engine goes. -/
theorem chunkCompletionIsRecorded : Obligations.ChunkCompletionIsRecorded := by
  intro s b rest hp hk hs p hi
  simp only [List.mem_cons, List.not_mem_nil, or_false] at hi
  rcases hi with rfl | rfl | rfl
  · refine ⟨_, ChunkInstr.ihdr.exec_crc_last hp hk hs, fun k => ?_, ?_⟩
    · rw [read?_chunkComplete, takeCrcByte_consume]
      rfl
    · rw [takeCrcByte_consume, chunkComplete_ihdr, if_neg nofun, BitVec.add_zero]
      rfl
  · refine ⟨_, ChunkInstr.idat.exec_crc_last hp hk hs, fun k => ?_, ?_⟩
    · rw [read?_chunkComplete, takeCrcByte_consume]
      rfl
    · rw [takeCrcByte_consume, chunkComplete_idat, if_neg nofun]
      rfl
  · refine ⟨_, ChunkInstr.iend.exec_crc_last hp hk hs, fun k => ?_, ?_⟩
    · rw [read?_chunkComplete, takeCrcByte_consume]
      rfl
    · rw [takeCrcByte_consume, chunkComplete_iend, if_pos rfl, hk]
      rfl

/-- Settles O42: the record, the terminator and the directory entry. -/
theorem textCompletionIsRecorded : Obligations.TextCompletionIsRecorded := by
  intro s b rest hp hk hs
  refine ⟨_, ChunkInstr.text.exec_crc_last hp hk hs, fun k => ?_, ?_⟩
  · rw [read?_chunkComplete, takeCrcByte_consume]
    rfl
  · rw [takeCrcByte_consume, chunkComplete_text]
    exact ⟨fun _ => Memory.read?_write _ _ _ _, fun _ => Memory.read?_write _ _ _ _, rfl⟩

end Sys2Proof.Machine
end

section
/-! ## The stream before a chunk's type completion, and its end -/

namespace Sys2Proof.Machine

/-! ### The signature (R100, R101) -/

theorem exec_signature (s : State) : exec .signature s = execSignature s := rfl

section
variable {s : State} {b : Byte} {rest : List Byte}

theorem execSignature_next_byte (hw : signatureList[s.eng.sigK]? = some b)
    (hs : s.ports.stream = b :: rest) (hk : s.eng.sigK < 7) :
    execSignature s = .next (State.consume rest s).countSig := by
  rw [execSignature_cons hw hs, matchSignature_next (by simpa using hk)]
  rfl

theorem execSignature_last_byte (hw : signatureList[s.eng.sigK]? = some b)
    (hs : s.ports.stream = b :: rest) (hk : s.eng.sigK = 7) :
    execSignature s = .next (State.consume rest s).countSig.chunkBoundary := by
  rw [execSignature_cons hw hs, matchSignature_last (by simpa using hk)]
  rfl

end

/-- Settles O31: the four outcomes of one byte. -/
theorem signatureByteIsCompared : Obligations.SignatureByteIsCompared := by
  intro s k want hk hwant
  have hw : signatureList[s.eng.sigK]? = some want := by rw [hk]; exact hwant
  rw [exec_signature]
  refine ⟨fun rest hs h7 => ?_, fun rest hs h7 => ?_, fun got rest hs hne => ?_,
    fun hs he => execSignature_ended hw hs he⟩
  · rw [execSignature_next_byte hw hs (by omega), ← hk]
    rfl
  · rw [execSignature_last_byte hw hs (by omega)]
    simp only [State.countSig, State.chunkBoundary, State.consume, hk, h7]
  · rw [execSignature_cons hw hs, matchSignature_differs hne]
    rfl

theorem step_sig {s : State} (hq : s.schedule = []) (hp : s.eng.phase = .sig) :
    step s = execSignature s := by
  rw [step_engine_instr (engineTurn_of_quiet hq) (engineInstr_sig hp), takeTurn_of_quiet hq,
    exec_signature]

/-- The signature from its byte number `sig_k` to its end, by induction on the bytes still to
come. -/
theorem signature_runs {s : State} {l rest : List Byte} (hq : s.schedule = [])
    (hp : s.eng.phase = .sig) (hl : signatureList.drop s.eng.sigK = l) (hne : l ≠ [])
    (hs : s.ports.stream = l ++ rest) :
    Runs l.length s (State.chunkBoundary { s with
      eng := { s.eng with pos := s.eng.pos + l.length, sigK := 8 }
      ports := { s.ports with stream := rest } }) := by
  induction l generalizing s with
  | nil => exact absurd rfl hne
  | cons b l ih =>
    have hw : signatureList[s.eng.sigK]? = some b := by
      rw [← List.head?_drop, hl, List.head?_cons]
    have htail : signatureList.drop (s.eng.sigK + 1) = l := by
      rw [← List.tail_drop, hl, List.tail_cons]
    have hlen : 8 - (s.eng.sigK + 1) = l.length := by rw [← htail, List.length_drop]; rfl
    have hlt : s.eng.sigK < 8 := (List.getElem?_eq_some_iff.1 hw).1
    have h1 := step_sig hq hp
    cases l with
    | nil =>
      have h7 : s.eng.sigK = 7 := by rw [List.length_nil] at hlen; omega
      rw [execSignature_last_byte (rest := rest) hw hs h7] at h1
      refine Runs.succ h1 ?_
      rw [List.length_nil, runs_zero_iff]
      simp only [State.countSig, State.chunkBoundary, State.consume, h7, List.length_singleton]
    | cons c l =>
      rw [execSignature_next_byte hw hs (by rw [List.length_cons] at hlen; omega)] at h1
      refine Runs.succ h1 ?_
      have hrest := ih (s := (State.consume (c :: l ++ rest) s).countSig) hq hp htail
        (List.cons_ne_nil _ _) rfl
      simp only [State.countSig, State.consume, Nat.add_assoc, List.length_cons,
        Nat.add_comm 1 (l.length + 1)] at hrest ⊢
      exact hrest

/-- Settles O30: the whole signature, from its first byte. -/
theorem signatureIsAccepted : Obligations.SignatureIsAccepted := by
  intro s rest hq hp hk hs
  exact signature_runs (l := signatureList) hq hp (by rw [hk]; rfl) (List.cons_ne_nil _ _) hs

/-! ### The length and the type (R103) -/

theorem engineOther_len {s : State} (hp : s.eng.phase = .len) : s.engineOther = s.lengthStep := by
  simp [State.engineOther, hp]

theorem engineOther_type {s : State} (hp : s.eng.phase = .type) : s.engineOther = s.typeStep := by
  simp [State.engineOther, hp]

theorem step_len {s : State} (hE : s.engineTurn) (hp : s.eng.phase = .len) :
    step s = .next s.takeTurn.lengthStep := by
  rw [step_engine_other hE (engineInstr_len hp), engineOther_len (s := s.takeTurn) hp]

theorem step_type {s : State} (hE : s.engineTurn) (hp : s.eng.phase = .type)
    (hk : s.eng.fldK ≠ 4) : step s = .next s.takeTurn.typeStep := by
  rw [step_engine_other hE (engineInstr_type_other hp hk), engineOther_type (s := s.takeTurn) hp]

section
variable {s : State} {b : Byte} {rest : List Byte}

theorem step_len_byte (hq : s.schedule = []) (hp : s.eng.phase = .len) (hk : s.eng.fldK < 3)
    (hs : s.ports.stream = b :: rest) :
    step s = .next { s with
      eng := { s.eng with
        pos := s.eng.pos + 1, curLen := appendByte s.eng.curLen b, fldK := s.eng.fldK + 1 }
      ports := { s.ports with stream := rest } } := by
  rw [step_len (engineTurn_of_quiet hq) hp, takeTurn_of_quiet hq, lengthStep_cons hs,
    if_neg (by omega), if_neg (by omega), ← hp]
  rfl

theorem step_len_last (hq : s.schedule = []) (hp : s.eng.phase = .len) (hk : s.eng.fldK = 3)
    (hs : s.ports.stream = b :: rest) :
    step s = .next { s with
      eng := { s.eng with
        pos := s.eng.pos + 1, curLen := appendByte s.eng.curLen b, fldK := 0, phase := .type }
      ports := { s.ports with stream := rest } } := by
  rw [step_len (engineTurn_of_quiet hq) hp, takeTurn_of_quiet hq, lengthStep_cons hs,
    if_pos (by omega), if_pos (by omega)]
  rfl

theorem step_type_byte (hq : s.schedule = []) (hp : s.eng.phase = .type) (hk : s.eng.fldK < 4)
    (hs : s.ports.stream = b :: rest) :
    step s = .next { s with
      eng := { s.eng with
        pos := s.eng.pos + 1, curType := appendByte s.eng.curType b, fldK := s.eng.fldK + 1 }
      ports := { s.ports with stream := rest } } := by
  rw [step_type (engineTurn_of_quiet hq) hp (by omega), takeTurn_of_quiet hq, typeStep_cons hs]
  rfl

end

/-- Four steps assemble the length, whatever stood in `cur_len` before. -/
theorem length_runs {s : State} {len : Word} {rest : List Byte} (hq : s.schedule = [])
    (hp : s.eng.phase = .len) (hk : s.eng.fldK = 0) (hs : s.ports.stream = be32Bytes len ++ rest) :
    Runs 4 s { s with
      eng := { s.eng with phase := .type, pos := s.eng.pos + 4, curLen := len }
      ports := { s.ports with stream := rest } } := by
  simp only [be32Bytes, List.cons_append, List.nil_append] at hs
  refine Runs.succ (step_len_byte hq hp (by omega) hs) ?_
  refine Runs.succ (step_len_byte hq hp (by show s.eng.fldK + 1 < 3; omega) rfl) ?_
  refine Runs.succ (step_len_byte hq hp (by show s.eng.fldK + 1 + 1 < 3; omega) rfl) ?_
  refine Runs.succ (step_len_last hq hp (by show s.eng.fldK + 1 + 1 + 1 = 3; omega) rfl) ?_
  rw [runs_zero_iff]
  simp only [appendByte_four, extract_append, hk]

/-- Four steps assemble the type code and stand at the type completion. -/
theorem type_runs {s : State} {code : Word} {rest : List Byte} (hq : s.schedule = [])
    (hp : s.eng.phase = .type) (hk : s.eng.fldK = 0)
    (hs : s.ports.stream = be32Bytes code ++ rest) :
    Runs 4 s { s with
      eng := { s.eng with pos := s.eng.pos + 4, curType := code, fldK := 4 }
      ports := { s.ports with stream := rest } } := by
  simp only [be32Bytes, List.cons_append, List.nil_append] at hs
  refine Runs.succ (step_type_byte hq hp (by omega) hs) ?_
  refine Runs.succ (step_type_byte hq hp (by show s.eng.fldK + 1 < 4; omega) rfl) ?_
  refine Runs.succ (step_type_byte hq hp (by show s.eng.fldK + 1 + 1 < 4; omega) rfl) ?_
  refine Runs.succ (step_type_byte hq hp (by show s.eng.fldK + 1 + 1 + 1 < 4; omega) rfl) ?_
  rw [runs_zero_iff]
  simp only [appendByte_four, extract_append, hk]

/-- Settles O32: the length field, then the type field. -/
theorem chunkHeaderIsAssembledBigEndian : Obligations.ChunkHeaderIsAssembledBigEndian := by
  intro s len code rest hq hp hk hs
  rw [List.append_assoc] at hs
  exact (length_runs hq hp hk hs).trans (type_runs hq rfl hk rfl)

/-! ### The end of the stream (R116) -/

/-- A recognised chunk in its payload or CRC finds the end of the stream. -/
theorem ChunkInstr.exec_ended {s : State} {i : Instr} {ty : Word} {store : Byte → State → State}
    {complete : State → State} (h : ChunkInstr i ty store complete)
    (hp : s.eng.phase = .payload ∨ s.eng.phase = .crc) (hs : s.ports.stream = [])
    (he : s.ports.streamEnded = true) : exec i s = .next s.raiseTruncated := by
  rcases hp with hp | hp
  · rw [h.exec_payload hp, payloadStep_ended hs he]
  · rw [h.exec_crc hp, crcStep_ended hs he]

/-- Settles O21: the framing and the chunk in hand read the same port. -/
theorem endOfStreamInAChunkIsTruncated : Obligations.EndOfStreamInAChunkIsTruncated := by
  intro s hE hs he h
  show step s = .next s.takeTurn.raiseTruncated
  rcases h with hp | ⟨hp, hk⟩ | ⟨hp, hty⟩
  · rw [step_len hE hp, lengthStep_ended (s := s.takeTurn) hs he]
  · rw [step_type hE hp hk, typeStep_ended (s := s.takeTurn) hs he]
  · obtain ⟨store, complete, hi⟩ := chunkInstr_of_known hty
    rw [step_engine_instr hE (engineInstr_chunk (.inr hp))]
    exact hi.exec_ended hp hs he

end Sys2Proof.Machine
end

section
/-! ## Whole chunks, from the type completion to the next boundary -/

namespace Sys2Proof.Machine

/-! ### The type completion and the CRC field around a payload -/

section
variable {s : State} {i : Instr} {ty : Word} {store : Byte → State → State}
  {complete : State → State}

theorem ChunkInstr.decode_eq (h : ChunkInstr i ty store complete) : decodeTypeCode ty = i := by
  cases h <;> decide

theorem ChunkInstr.step_type (h : ChunkInstr i ty store complete) (hq : s.schedule = [])
    (hp : s.eng.phase = .type) (hk : s.eng.fldK = 4) (hty : s.eng.curType = ty) :
    step s = exec i s := by
  rw [step_chunk hq (.inl ⟨hp, hk⟩), hty, h.decode_eq]

end

/-- A chunk that has reached its CRC field in `n` steps completes in four more (R111). -/
theorem Runs.chunkComplete {s u : State} {n : Nat} {ty crc : Word} {rest : List Byte}
    (h : Runs n s u.enterCrc) (hq : u.schedule = []) (hty : u.eng.curType = ty)
    (hk : ty ∈ knownCodes) (hs : u.ports.stream = be32Bytes crc ++ rest) :
    Runs (n + 4) s (State.chunkComplete ty (State.crcTaken crc rest u.enterCrc)) := by
  subst hty
  exact h.trans (crc_runs (s := u.enterCrc) hq rfl rfl hk hs)

/-! ### IDAT (R109, R111) -/

/-- The state after an IDAT payload, its CRC field still to come. -/
def State.idatTaken (p rest : List Byte) (s : State) : State :=
  { s with
    spaces := { s.spaces with
      idat := Memory.writeList s.spaces.idat (s.eng.idatBytes.toNat + s.eng.curOff) p }
    eng := { s.eng with pos := s.eng.pos + p.length, curOff := s.eng.curOff + p.length }
    ports := { s.ports with stream := rest } }

/-- The type completion and the payload, which may be empty. -/
theorem idat_runs_to_crc {s : State} {p rest : List Byte} (hq : s.schedule = [])
    (hp : s.eng.phase = .type) (hk : s.eng.fldK = 4) (hty : s.eng.curType = codeIDAT)
    (hc : ChecksPass s codeIDAT) (hl : p.length = s.eng.curLen.toNat) (h0 : s.eng.curOff = 0)
    (hs : s.ports.stream = p ++ rest) :
    Runs (p.length + 1) s (State.idatTaken p rest s).enterCrc := by
  have h1 := ChunkInstr.idat.step_type hq hp hk hty
  cases p with
  | nil =>
    rw [ChunkInstr.idat.exec_empty hp hc (toNat_eq_zero_iff.1 hl.symm)] at h1
    rw [List.nil_append] at hs
    subst hs
    exact Runs.single h1
  | cons b p =>
    have hne : s.eng.curLen ≠ 0#32 := by rintro e; simp [e] at hl
    rw [ChunkInstr.idat.exec_begin hp hc hne] at h1
    exact Runs.succ h1 (idat_payload_runs (s := s.setPhase .payload) hq rfl hty
      (List.cons_ne_nil b p) (by simp only [State.setPhase_eng, h0, Nat.zero_add, hl]) hs)

/-- Settles O44: the type completion, the payload, the CRC field, and what completion writes. -/
theorem idatChunkRuns : Obligations.IdatChunkRuns := by
  intro s p crc rest hq hp hk hty hl h0 hc hm hi hs
  rw [List.append_assoc] at hs
  have pass := (inPlace_idat hc).checksPass (fits_idat hm (by rwa [← hl]))
  have hrun := (idat_runs_to_crc hq hp hk hty pass hl h0 hs).chunkComplete
    (ty := codeIDAT) (crc := crc) (rest := rest) hq hty (by decide) rfl
  refine ⟨_, hrun, rfl, rfl, rfl, rfl, rfl, rfl, rfl, ?chunks, ?bytes, rfl, rfl, rfl, ?idat,
    ?chunk, rfl, rfl, rfl, hq⟩
  case chunks =>
    show (s.eng.chunkCount + 1#32).toNat = _
    bv_omega
  case bytes =>
    show (s.eng.idatBytes + s.eng.curLen).toNat = _
    bv_omega
  case idat =>
    intro a
    show Memory.read? (Memory.writeList s.spaces.idat (_ + s.eng.curOff) p) a = _
    rw [Memory.read?_writeList, h0, Nat.add_zero]
  case chunk =>
    intro k
    rw [read?_chunkComplete, ← hty]
    rfl

/-! ### tEXt (R110, R111) -/

/-- The type completion and the payload, whose first 0x00 is byte `k`. -/
theorem text_runs_to_crc {s : State} {p rest : List Byte} {k : Nat} (hq : s.schedule = [])
    (hp : s.eng.phase = .type) (hk : s.eng.fldK = 4) (hty : s.eng.curType = codeTEXt)
    (hc : ChecksPass s codeTEXt) (hl : p.length = s.eng.curLen.toNat) (h0 : s.eng.curOff = 0)
    (hz : s.eng.zeroSeen = false) (hfound : p[k]? = some 0#8)
    (hfirst : ∀ n < k, p[n]? ≠ some 0#8) (hs : s.ports.stream = p ++ rest) :
    Runs (p.length + 1) s (State.textTaken p rest s).enterCrc := by
  have hne : p ≠ [] := by rintro rfl; simp at hfound
  have hlen : s.eng.curLen ≠ 0#32 := by rintro e; simp [e, hne] at hl
  have h1 := ChunkInstr.text.step_type hq hp hk hty
  rw [ChunkInstr.text.exec_begin hp hc hlen] at h1
  have hseen : (State.textTaken p rest (s.setPhase .payload)).eng.zeroSeen = true := by
    show (firstZero s.eng.zeroSeen s.eng.keyLen s.eng.curOff p).1 = true
    rw [hz, firstZero_found _ _ hfound hfirst]
  have hpay := text_payload_runs (s := s.setPhase .payload) hq rfl hty hne
    (by simp only [State.setPhase_eng, h0, Nat.zero_add, hl]) hs
  rw [textComplete_of_seen hseen] at hpay
  exact Runs.succ h1 hpay

/-- The payload with the added terminator behind it. -/
theorem read?_text_terminated (m : List Host.Cell) (n : Nat) (p : List Byte) (a : Nat) :
    Memory.read? (Memory.write (Memory.writeList m n p) (n + p.length) 0#8) a =
      if n ≤ a ∧ a ≤ n + p.length then (p ++ [0#8])[a - n]? else Memory.read? m a := by
  rw [Memory.read?_write, Memory.read?_writeList]
  by_cases hend : a = n + p.length
  · subst hend
    simp
  · rw [if_neg hend]
    by_cases hin : n ≤ a ∧ a < n + p.length
    · rw [if_pos hin, if_pos (by omega), List.getElem?_append_left (by omega)]
    · rw [if_neg hin, if_neg (by omega)]

/-- Settles O45: the type completion, the payload, the CRC field, and what completion writes. -/
theorem textChunkRuns : Obligations.TextChunkRuns := by
  intro s p k crc rest hq hp hk hty hl h0 hz hc htc hm ht hfound hfirst hs
  rw [List.append_assoc] at hs
  have pass := (inPlace_text hc).checksPass (fits_text hm (by rwa [← hl]))
  have hrun := (text_runs_to_crc hq hp hk hty pass hl h0 hz hfound hfirst hs).chunkComplete
    (ty := codeTEXt) (crc := crc) (rest := rest) hq hty (by decide) rfl
  have hkp : k < p.length := (List.getElem?_eq_some_iff.1 hfound).1
  refine ⟨_, hrun, rfl, rfl, rfl, rfl, rfl, rfl, rfl, ?chunks, ?count, ?bytes, rfl, rfl, ?text,
    ?dir, ?chunk, rfl, rfl, rfl, hq⟩
  case chunks =>
    show (s.eng.chunkCount + 1#32).toNat = _
    bv_omega
  case count =>
    show (s.eng.textCount + 1#32).toNat = _
    bv_omega
  case bytes =>
    show (s.eng.textBytes + s.eng.curLen + 1#32).toNat = _
    bv_omega
  case text =>
    intro a
    show Memory.read? (Memory.write (Memory.writeList s.spaces.text
      (s.eng.textBytes.toNat + s.eng.curOff) p) (s.eng.textBytes.toNat + s.eng.curLen.toNat) 0#8)
      a = _
    rw [h0, ← hl, Nat.add_zero, read?_text_terminated]
  case dir =>
    intro m
    show Memory.read? (Memory.write s.spaces.textdir s.eng.textCount.toNat ⟨s.eng.chunkCount,
      s.eng.textBytes, (firstZero s.eng.zeroSeen s.eng.keyLen s.eng.curOff p).2,
      s.eng.curLen - (firstZero s.eng.zeroSeen s.eng.keyLen s.eng.curOff p).2 - 1#32⟩) m = _
    have hrest : s.eng.curLen - BitVec.ofNat 32 k - 1#32 = BitVec.ofNat 32 (p.length - k - 1) := by
      bv_omega
    rw [hz, firstZero_found _ _ hfound hfirst, h0, Nat.zero_add, hrest, Memory.read?_write]
  case chunk =>
    intro n
    rw [read?_chunkComplete, ← hty]
    rfl

/-! ### IHDR (R105, R106, R111) -/

/-- The header fields of a buffer filled with the 13 bytes of an IHDR payload (30_encoding.md
R84). -/
theorem header_of_payload {e : Engine} {v : Vector Byte 13} {w h : Word} {bd ct cm fm im : Byte}
    (he : e.hdrBuf = hdrWrite v 0 (be32Bytes w ++ be32Bytes h ++ [bd, ct, cm, fm, im])) :
    e.ihdrWidth = w ∧ e.ihdrHeight = h ∧ e.ihdrFmt = fm ++ cm ++ ct ++ bd ∧
      e.ihdrIlace = 0#24 ++ im := by
  rw [ihdrWidth_eq, ihdrHeight_eq, ihdrFmt_eq, ihdrIlace_eq]
  simp only [he, hdrWrite_get]
  exact ⟨extract_append w, extract_append h, rfl, rfl⟩

theorem setHeader_regs {s : State} {w h f l : Word} (ew : s.eng.ihdrWidth = w)
    (eh : s.eng.ihdrHeight = h) (ef : s.eng.ihdrFmt = f) (el : s.eng.ihdrIlace = l) :
    s.setHeader.regs =
      { s.regs with hdrWidth := w, hdrHeight := h, hdrFmt := f, hdrIlace := l } := by
  rw [← ew, ← eh, ← ef, ← el]
  rfl

/-- Settles O43: the type completion, the 13 bytes of the header, the CRC field, and what completion
writes. -/
theorem ihdrChunkRuns : Obligations.IhdrChunkRuns := by
  intro s w h crc bd ct cm fm im rest hq hp hk hty hl h0 hc hm hw hh hs
  rw [List.append_assoc] at hs
  have pass := (inPlace_ihdr hc hl).checksPass (fits_ihdr (by simpa [hc] using hm))
  have h1 := ChunkInstr.ihdr.step_type hq hp hk hty
  rw [ChunkInstr.ihdr.exec_begin hp pass (by simp [hl])] at h1
  have hpay := header_payload_runs (s := s.setPhase .payload) hq rfl hty (by simp [be32Bytes])
    (by simp [h0, hl, be32Bytes]) hs
  obtain ⟨ew, eh, ef, ei⟩ := header_of_payload (v := s.eng.hdrBuf) (e := (State.headerTaken
    (be32Bytes w ++ be32Bytes h ++ [bd, ct, cm, fm, im]) (be32Bytes crc ++ rest)
    (s.setPhase .payload)).eng) (by rw [← h0]; rfl)
  rw [ihdrComplete_nonzero (by rwa [ew]) (by rwa [eh])] at hpay
  have hrun := (Runs.succ h1 hpay).chunkComplete (ty := codeIHDR) (crc := crc) (rest := rest) hq hty
    (by decide) rfl
  refine ⟨_, hrun, rfl, rfl, rfl, rfl, rfl, rfl, rfl, ?count, rfl, rfl, rfl, ?regs, ?chunk,
    rfl, rfl, rfl, hq⟩
  case count =>
    show s.eng.chunkCount + 1#32 = 1#32
    rw [hc, BitVec.zero_add]
  case regs => exact (State.chunkComplete_regs _ _).trans (setHeader_regs ew eh ef ei)
  case chunk =>
    intro k
    rw [read?_chunkComplete]
    show (if k = s.eng.chunkCount.toNat then some ⟨s.eng.curLen, s.eng.curType, crc, 0#32⟩
      else Memory.read? s.spaces.chunk k) = _
    rw [hc, hl, hty]
    rfl

end Sys2Proof.Machine
end

section
/-! ## The reconstructor's single steps -/

namespace Sys2Proof.Machine

/-! ### The image size, as the registers give it (41_scanline_reconstructor.md R131) -/

theorem width_eq (s : State) : s.width = s.regs.hdrWidth.toNat := rfl
theorem height_eq (s : State) : s.height = s.regs.hdrHeight.toNat := rfl

/-! ### METHOD_CHECK, SIZE and DECOMPRESS -/

/-- Settles O46: the two branches of the check. -/
theorem methodsMustBeZero : Obligations.MethodsMustBeZero := by
  intro s
  refine ⟨fun hc hf => ?_, fun h => if_pos h⟩
  exact if_neg (by rw [not_or, not_not, not_not]; exact ⟨hc, hf⟩)

/-- Settles O47: the two sides of the capacity. -/
theorem sizeIsExactAndChecked : Obligations.SizeIsExactAndChecked := by
  rintro s e rfl
  exact ⟨fun h => if_neg (Nat.not_lt.2 h), fun h => if_pos h⟩

theorem exec_decompress_idle {s : State} (h : s.eng.decPending = false) :
    exec .decompress s = .next s.issueRequest := by
  simp [exec, execDecompress, h]

theorem exec_decompress_answered {s : State} {r : Option (List Byte)}
    (h : s.eng.decPending = true) (ha : s.ports.answer = some r) :
    exec .decompress s = .next (State.decompCheck r s.takeAnswer) := by
  simp [exec, execDecompress, h, ha]

/-- Settles O48: the request carries the bytes that stand in IDAT space. -/
theorem decompressIssuesTheRequest : Obligations.DecompressIssuesTheRequest := by
  intro s src hp hl hsrc
  have hread : s.readBytes .idat 0 s.eng.idatBytes.toNat = src := by
    rw [← hl]
    exact State.readBytes_eq s .idat 0 src (fun n hn => by simpa [Spaces.bytes] using hsrc n hn)
  rw [exec_decompress_idle hp, State.issueRequest, hread]

/-- An answer of the expected size opens the rows (R134). -/
theorem decompCheck_fits {s : State} {d : List Byte} (h : d.length = s.eng.expSize) :
    State.decompCheck (some d) s = s.enterFilter d := if_pos h

/-- Err, or an answer of another size, ends the decode (R134). -/
theorem decompCheck_fails {s : State} {r : Option (List Byte)}
    (h : r = none ∨ ∃ d, r = some d ∧ d.length ≠ s.eng.expSize) :
    State.decompCheck r s = s.raiseAtEnd .decompressionFailed := by
  rcases h with rfl | ⟨d, rfl, h⟩
  · rfl
  · exact if_neg h

/-- Settles O49: the answer by its length. -/
theorem answerMustHaveTheExpectedSize : Obligations.AnswerMustHaveTheExpectedSize := by
  intro s r hp ha
  rw [exec_decompress_answered hp ha]
  refine ⟨fun d hr hd => ?_, fun h => congrArg _ (decompCheck_fails h)⟩
  subst hr
  refine ⟨_, congrArg _ (decompCheck_fits hd), fun a => ?_, rfl⟩
  simp [Memory.read?_writeList]

/-! ### The predictors (R137 to R143) -/

theorem add_ofNat_eq (x : Byte) (n : Nat) :
    x + BitVec.ofNat 8 n = BitVec.ofNat 8 (x.toNat + n) := by
  rw [BitVec.ofNat_add, BitVec.ofNat_toNat, BitVec.setWidth_eq]

/-- PaethPredictor with the distances as absolute values of exact integers (R143). -/
theorem paethPredictor_eq {a b c : Byte} {p : Int} (hp : p = a.toNat + b.toNat - c.toNat) :
    paethPredictor a b c =
      if |p - a.toNat| ≤ |p - b.toNat| ∧ |p - a.toNat| ≤ |p - c.toNat| then a
      else if |p - b.toNat| ≤ |p - c.toNat| then b else c := by
  subst hp
  simp only [paethPredictor, Int.abs_eq_natAbs, Int.ofNat_le]

/-- Settles O52: the three outcomes of the comparison. -/
theorem paethPicksTheNearestNeighbour : Obligations.PaethPicksTheNearestNeighbour := by
  intro a b c r hr p
  have hpick := hr.trans (paethPredictor_eq (p := p) rfl)
  clear_value p
  split at hpick
  next h =>
    subst hpick
    exact ⟨.inl rfl, le_refl _, h.1, h.2, fun _ _ => rfl, fun hb _ => absurd h.1 (not_le.2 hb)⟩
  next ha =>
    split at hpick
    next hb =>
      subst hpick
      exact ⟨.inr (.inl rfl), by omega, le_refl _, hb, fun h h' => absurd ⟨h, h'⟩ ha,
        fun _ _ => rfl⟩
    next hb =>
      subst hpick
      exact ⟨.inr (.inr rfl), by omega, by omega, le_refl _, fun h h' => absurd ⟨h, h'⟩ ha,
        fun _ h => absurd h hb⟩

/-! ### A reconstructed byte (R135, R137) -/

/-- The five filter instructions with what each adds to x, on exact integers. -/
def filterInstrs (a b c : Byte) : List (Instr × Nat) :=
  [(.filtNone, 0), (.filtSub, a.toNat), (.filtUp, b.toNat), (.filtAvg, (a.toNat + b.toNat) / 2),
    (.filtPaeth, (paethPredictor a b c).toNat)]

/-- Every filter is one reconstruction step with the byte of its predictor. -/
theorem exec_filterInstr {s : State} {p : Instr × Nat} (h : p ∈ filterInstrs s.a s.b s.c) :
    exec p.1 s = .next (s.reconstruct (BitVec.ofNat 8 p.2)) := by
  simp only [filterInstrs, List.mem_cons, List.not_mem_nil, or_false] at h
  rcases h with rfl | rfl | rfl | rfl | rfl
  · rfl
  · simp only [BitVec.ofNat_toNat, BitVec.setWidth_eq]; rfl
  · simp only [BitVec.ofNat_toNat, BitVec.setWidth_eq]; rfl
  · rfl
  · simp only [BitVec.ofNat_toNat, BitVec.setWidth_eq]; rfl

/-- The row loop's advance changes the engine's place and nothing else (R135). -/
theorem advance_eq (s : State) : s.advance = { s with eng :=
    if s.eng.col.toNat + 1 < s.stride then { s.eng with col := s.eng.col + 1#32 }
    else if s.eng.row.toNat + 1 < s.height then
      { s.eng with row := s.eng.row + 1#32, col := 0#32 }
    else { s.eng with phase := .pack, packIdx := 0 } } := by
  unfold State.advance
  by_cases hc : s.eng.col.toNat + 1 < s.stride
  · rw [if_pos hc, if_pos hc]
  · rw [if_neg hc, if_neg hc]
    by_cases hr : s.eng.row.toNat + 1 < s.height
    · rw [if_pos hr, if_pos hr]
    · rw [if_neg hr, if_neg hr]

/-- What a reconstruction step leaves in RECON. -/
theorem read?_reconstruct (s : State) (v : Byte) (n : Nat) :
    Memory.read? (s.reconstruct v).spaces.recon n =
      if n = s.reconAt s.eng.row.toNat s.eng.col.toNat then
        some (s.filtered s.eng.row.toNat s.eng.col.toNat + v)
      else Memory.read? s.spaces.recon n := by
  simp [State.reconstruct, Memory.read?_write]

/-- Settles O51: the byte written, and where the row loop goes. -/
theorem filterWritesOneByte : Obligations.FilterWritesOneByte := by
  rintro s i j x a b c rfl rfl rfl rfl rfl rfl p hp
  refine ⟨_, exec_filterInstr hp, fun n => ?_, ?_⟩
  · rw [read?_reconstruct, add_ofNat_eq]
    rfl
  · rw [State.reconstruct, advance_eq]
    rfl

/-- With the neighbours it reads zero, PaethPredictor is zero (R146). -/
theorem paethPredictor_zero : paethPredictor 0#8 0#8 0#8 = 0#8 := by decide

/-- Settles O53: each predictor is 0. -/
theorem zeroNeighboursLeaveTheByte : Obligations.ZeroNeighboursLeaveTheByte := by
  rintro s i j rfl rfl f hf hz
  have hpred : (f.1, 0) ∈ filterInstrs s.a s.b s.c := by
    simp only [List.mem_cons, List.not_mem_nil, or_false] at hf
    rcases hf with rfl | rfl | rfl | rfl | rfl
    · simp [filterInstrs]
    · have ha : s.a = 0#8 := of_decide_eq_true hz
      simp [filterInstrs, ha]
    · have hb : s.b = 0#8 := of_decide_eq_true hz
      simp [filterInstrs, hb]
    · have hab : s.a = 0#8 ∧ s.b = 0#8 := of_decide_eq_true hz
      simp [filterInstrs, hab]
    · have habc : s.a = 0#8 ∧ s.b = 0#8 ∧ s.c = 0#8 := of_decide_eq_true hz
      simp [filterInstrs, habc, paethPredictor_zero]
  refine ⟨_, exec_filterInstr hpred, ?_⟩
  rw [read?_reconstruct, BitVec.add_zero]
  exact if_pos rfl

/-- FILT_INVALID raises at the row in hand, whatever the byte (R144). -/
theorem exec_filtInvalid (ft : Byte) (s : State) : exec (.filtInvalid ft) s =
    .next (s.raise .unknownFilterType s.eng.pos s.eng.row) := rfl

/-- Settles O54: the raise of FILT_INVALID. -/
theorem invalidFilterIsFatal : Obligations.InvalidFilterIsFatal := exec_filtInvalid

/-! ### PACK (R147, R148) -/

theorem exec_pack_pixel {s : State} (h : s.eng.packIdx < s.width * s.height) :
    exec .pack s = .next s.packPixel := if_pos h

theorem exec_pack_done {s : State} (h : s.width * s.height ≤ s.eng.packIdx) :
    exec .pack s = .next s.enterDone := if_neg (Nat.not_lt.2 h)

/-- The pixel as its four bytes (10_state.md R45). -/
theorem packedPixel_eq (s : State) (x y : Nat) : s.packedPixel x y =
    0xFF#8 ++ s.reconByte y (3 * x + 2) ++ s.reconByte y (3 * x + 1) ++ s.reconByte y (3 * x) :=
  be32_eq_append _ _ _ _

/-- PIXEL_COUNT as a 32-bit product (10_state.md R38). -/
theorem ofNat_pixels (s : State) :
    BitVec.ofNat 32 (s.width * s.height) = s.regs.hdrWidth * s.regs.hdrHeight := by
  rw [BitVec.ofNat_mul, width_eq, height_eq]
  simp

/-- Settles O55: PACK with a pixel left. -/
theorem packWritesOnePixel : Obligations.PackWritesOnePixel := by
  rintro s n x y r g b rfl hn rfl rfl rfl rfl rfl
  refine ⟨_, exec_pack_pixel hn, fun m => ?_, rfl⟩
  simp only [State.packPixel_spaces, Memory.read?_write, packedPixel_eq, width_eq]

/-- Settles O56: PACK with none left. -/
theorem packEndsInDone : Obligations.PackEndsInDone := by
  intro s h
  rw [exec_pack_done h, State.enterDone, ofNat_pixels]
  rfl

end Sys2Proof.Machine
end

section
/-! ## The row loop -/

namespace Sys2Proof.Machine

/-! ### A space that holds a list from index 0 on -/

/-- The elements 0 .. |l| - 1 of the space are those of `l`. -/
def Memory.Holds {α : Type} (m : Memory α) (l : List α) : Prop :=
  ∀ n (hn : n < l.length), Memory.read? m n = some l[n]

theorem Memory.Holds.nil {α : Type} (m : Memory α) : Memory.Holds m [] := nofun

/-- Writing on behind what the space holds. -/
theorem Memory.Holds.append {α : Type} {m : Memory α} {l : List α} (h : Memory.Holds m l)
    (p : List α) : Memory.Holds (Memory.writeList m l.length p) (l ++ p) := by
  intro n hn
  rw [Memory.read?_writeList]
  rw [List.length_append] at hn
  rcases Nat.lt_or_ge n l.length with hlt | hge
  · rw [if_neg (by omega), List.getElem_append_left hlt, h n hlt]
  · rw [if_pos ⟨hge, hn⟩, List.getElem_append_right hge, List.getElem?_eq_getElem]


/-! ### The value of a byte, from its row's filter and its reconstructed neighbours (R136, R137) -/

/-- The filter-type byte of row `i` (41_scanline_reconstructor.md R135). -/
def State.filterType (s : State) (i : Nat) : Byte := s.readByteAt .decompBuf (s.scanlineAt i)

/-- What byte `j` of row `i` is to hold, given what its neighbours hold (R137). -/
def State.reconValue (s : State) (i j : Nat) : Byte :=
  s.filtered i j + BitVec.ofNat 8 (predictorOf (s.filterType i)
    (s.neighbourA i j) (s.neighbourB i j) (s.neighbourC i j))

/-- Byte `j` of row `i` has been reconstructed. -/
def Reconstructed (s : State) (i j : Nat) : Prop :=
  Memory.read? s.spaces.recon (s.reconAt i j) = some (s.reconValue i j)

/-- With nothing scheduled, a row with a valid filter type gets its next byte. -/
theorem step_filter_valid {s : State} (hq : s.schedule = []) (hp : s.eng.phase = .filter)
    (hf : (s.filterType s.eng.row.toNat).toNat ≤ 4) :
    step s = .next (s.reconstruct (BitVec.ofNat 8
      (predictorOf (s.filterType s.eng.row.toNat) s.a s.b s.c))) := by
  rw [step_filter hq hp]
  exact exec_filter hf

/-- A row with an invalid one ends the decode (R144). -/
theorem step_filter_invalid {s : State} (hq : s.schedule = []) (hp : s.eng.phase = .filter)
    (hf : 4 < (s.filterType s.eng.row.toNat).toNat) :
    step s = .next (s.raise .unknownFilterType s.eng.pos s.eng.row) := by
  rw [step_filter hq hp, decodeFilterByte_invalid (b := s.filterByte) hf, exec_filtInvalid]

/-! ### A byte written leaves those before it, and their values, as they were -/

section
variable {s : State} {i j : Nat} (v : Byte)

/-- Where the row loop writes next. -/
def State.place (s : State) : Nat := s.reconAt s.eng.row.toNat s.eng.col.toNat

@[simp] theorem State.reconstruct_regs : (s.reconstruct v).regs = s.regs := by
  simp [State.reconstruct]
@[simp] theorem State.reconstruct_reconAt (i j : Nat) :
    (s.reconstruct v).reconAt i j = s.reconAt i j := by
  simp [State.reconAt, State.stride, State.width]
@[simp] theorem State.reconstruct_readDecomp (a : Nat) :
    (s.reconstruct v).readByteAt .decompBuf a = s.readByteAt .decompBuf a := by
  simp [State.readByteAt, Spaces.bytes, State.reconstruct]
@[simp] theorem State.reconstruct_filterType (i : Nat) :
    (s.reconstruct v).filterType i = s.filterType i := by
  simp [State.filterType, State.scanlineAt, State.stride, State.width]
@[simp] theorem State.reconstruct_filtered (i j : Nat) :
    (s.reconstruct v).filtered i j = s.filtered i j := by
  simp [State.filtered, State.filteredAt, State.scanlineAt, State.stride, State.width]

theorem reconByte_reconstruct (h : s.reconAt i j < s.place) :
    (s.reconstruct v).reconByte i j = s.reconByte i j := by
  unfold State.place at h
  simp only [State.reconByte, State.readByteAt, Spaces.bytes, State.reconstruct_reconAt,
    read?_reconstruct, if_neg h.ne]
  simp [State.reconstruct]

theorem reconAt_left_lt (h : 3 ≤ j) : s.reconAt i (j - 3) < s.reconAt i j := by
  unfold State.reconAt
  omega

theorem reconAt_above_lt (h : 0 < i) (hj : j < s.stride) : s.reconAt (i - 1) j < s.reconAt i j := by
  obtain ⟨k, rfl⟩ : ∃ k, i = k + 1 := ⟨i - 1, by omega⟩
  have hrow : (k + 1) * s.stride = k * s.stride + s.stride := Nat.succ_mul _ _
  unfold State.reconAt
  rw [Nat.add_sub_cancel]
  omega

/-- The neighbours of a byte lie before it in raster order (R136). -/
theorem reconValue_reconstruct (hj : j < s.stride) (h : s.reconAt i j ≤ s.place) :
    (s.reconstruct v).reconValue i j = s.reconValue i j := by
  have ha : (s.reconstruct v).neighbourA i j = s.neighbourA i j := by
    unfold State.neighbourA
    split
    next h3 => exact reconByte_reconstruct v ((reconAt_left_lt h3).trans_le h)
    next => rfl
  have hb : (s.reconstruct v).neighbourB i j = s.neighbourB i j := by
    unfold State.neighbourB
    split
    next h0 => exact reconByte_reconstruct v ((reconAt_above_lt h0 hj).trans_le h)
    next => rfl
  have hc : (s.reconstruct v).neighbourC i j = s.neighbourC i j := by
    unfold State.neighbourC
    split
    next h30 =>
      exact reconByte_reconstruct v ((reconAt_left_lt h30.1).trans
        ((reconAt_above_lt h30.2 hj).trans_le h))
    next => rfl
  simp only [State.reconValue, State.reconstruct_filtered, State.reconstruct_filterType, ha, hb, hc]

/-- A byte before the place stays reconstructed. -/
theorem Reconstructed.reconstruct (hr : Reconstructed s i j) (hj : j < s.stride)
    (h : s.reconAt i j < s.place) : Reconstructed (s.reconstruct v) i j := by
  unfold Reconstructed
  rw [reconValue_reconstruct v hj h.le, State.reconstruct_reconAt, read?_reconstruct]
  exact (if_neg h.ne).trans hr

end

/-- The byte at the place is reconstructed by its row's filter. -/
theorem reconstructed_place {s : State} (hj : s.eng.col.toNat < s.stride) :
    Reconstructed (s.reconstruct (BitVec.ofNat 8
      (predictorOf (s.filterType s.eng.row.toNat) s.a s.b s.c)))
      s.eng.row.toNat s.eng.col.toNat := by
  unfold Reconstructed
  rw [reconValue_reconstruct _ hj le_rfl, State.reconstruct_reconAt, read?_reconstruct]
  exact if_pos rfl

/-- Two bytes of rows at one address are one byte. -/
theorem reconAt_inj {s : State} {i j i' j' : Nat} (hj : j < s.stride) (hj' : j' < s.stride)
    (h : s.reconAt i j = s.reconAt i' j') : i = i' ∧ j = j' := by
  unfold State.reconAt at h
  have hi : (i * s.stride + j) / s.stride = i := by
    rw [Nat.mul_comm, Nat.mul_add_div (by omega), Nat.div_eq_of_lt hj, Nat.add_zero]
  have hi' : (i' * s.stride + j') / s.stride = i' := by
    rw [Nat.mul_comm, Nat.mul_add_div (by omega), Nat.div_eq_of_lt hj', Nat.add_zero]
  have : i = i' := by rw [← hi, ← hi', h]
  subst this
  exact ⟨rfl, by omega⟩

/-- The first `r` rows lie below row `r`. -/
theorem reconAt_lt_rows {s : State} {i j r : Nat} (hi : i < r) (hj : j < s.stride) :
    s.reconAt i j < r * s.stride := by
  have hle : (i + 1) * s.stride ≤ r * s.stride := Nat.mul_le_mul_right _ hi
  rw [Nat.succ_mul] at hle
  unfold State.reconAt
  omega

/-! ### The loop (R135) -/

/-- `s` with RECON and the engine's place as in `t`: all that the loop writes. -/
def State.loopAs (s t : State) : State :=
  { s with
    spaces := { s.spaces with recon := t.spaces.recon }
    eng := { s.eng with
      phase := t.eng.phase, row := t.eng.row, col := t.eng.col, packIdx := t.eng.packIdx } }

theorem reconstruct_eq_loopAs (s : State) (v : Byte) :
    s.reconstruct v = s.loopAs (s.reconstruct v) := by
  rw [State.reconstruct]
  rcases advance_cases (s.writeRecon v) with ⟨-, e⟩ | ⟨-, e⟩ | e <;> rw [e] <;> rfl

/-- An engine with `n` bytes of the image of `s` behind it stands at the next one in raster order,
or in PACK with none left. -/
def StandsAt (s : State) (n : Nat) (e : Engine) : Prop :=
  (e.phase = .filter ∧ s.reconAt e.row.toNat e.col.toNat = n ∧ e.row.toNat < s.height ∧
    e.col.toNat < s.stride) ∨
  (e.phase = .pack ∧ e.packIdx = 0 ∧ n = s.height * s.stride)

/-- `n` bytes after FILTER entry at `s`: what the loop keeps, and where it stands. -/
structure RowLoop (s : State) (n : Nat) (t : State) : Prop where
  frame : t = s.loopAs t
  rows : ∀ i j, j < s.stride → s.reconAt i j < n → Reconstructed t i j
  place : StandsAt s n t.eng

section
variable {s t : State} {n : Nat}

theorem RowLoop.regs (h : RowLoop s n t) : t.regs = s.regs := by rw [h.frame]; rfl
theorem RowLoop.schedule (h : RowLoop s n t) : t.schedule = s.schedule := by
  rw [h.frame]; rfl
theorem RowLoop.loopAs (h : RowLoop s n t) (u : State) : t.loopAs u = s.loopAs u := by
  rw [h.frame]; rfl
theorem RowLoop.params (h : RowLoop s n t) : t.params = s.params := by rw [h.frame]; rfl
theorem RowLoop.ports (h : RowLoop s n t) : t.ports = s.ports := by rw [h.frame]; rfl
theorem RowLoop.pos (h : RowLoop s n t) : t.eng.pos = s.eng.pos := by rw [h.frame]; rfl
theorem RowLoop.spaces (h : RowLoop s n t) :
    t.spaces = { s.spaces with recon := t.spaces.recon } := congrArg State.spaces h.frame
theorem RowLoop.filtered (h : RowLoop s n t) (i j : Nat) : t.filtered i j = s.filtered i j := by
  rw [h.frame]; rfl
theorem RowLoop.reconAt (h : RowLoop s n t) (i j : Nat) : t.reconAt i j = s.reconAt i j := by
  rw [h.frame]; rfl
theorem RowLoop.stride (h : RowLoop s n t) : t.stride = s.stride := by rw [h.frame]; rfl
theorem RowLoop.height (h : RowLoop s n t) : t.height = s.height := by rw [h.frame]; rfl
theorem RowLoop.filterType (h : RowLoop s n t) (i : Nat) : t.filterType i = s.filterType i := by
  rw [h.frame]; rfl

theorem RowLoop.standsAt_eq (h : RowLoop s n t) : StandsAt t = StandsAt s := by rw [h.frame]; rfl

/-- At FILTER entry. -/
theorem RowLoop.entry (hp : s.eng.phase = .filter) (hr : s.eng.row = 0#32) (hc : s.eng.col = 0#32)
    (hw : 0 < s.stride) (hh : 0 < s.height) : RowLoop s 0 s :=
  ⟨rfl, fun _ _ _ h => absurd h (Nat.not_lt_zero _),
    .inl ⟨hp, by simp [State.reconAt, hr, hc], by simpa [hr] using hh,
      by simpa [hc] using hw⟩⟩

/-- Where the loop goes from a place: to the next byte, in this row or the next, or to PACK. -/
theorem standsAt_advance (hp : s.eng.phase = .filter) (hr : s.eng.row.toNat < s.height)
    (hc : s.eng.col.toNat < s.stride) (hw : s.stride < 2 ^ 32) :
    StandsAt s (s.place + 1) s.advance.eng := by
  have hH : s.height < 2 ^ 32 := s.regs.hdrHeight.isLt
  unfold State.advance
  split
  next hcol =>
    have e : (s.eng.col + 1#32).toNat = s.eng.col.toNat + 1 := by bv_omega
    refine .inl ⟨hp, ?_, hr, ?_⟩
    · show s.eng.row.toNat * s.stride + (s.eng.col + 1#32).toNat = s.place + 1
      rw [e]; rfl
    · show (s.eng.col + 1#32).toNat < s.stride
      omega
  next hcol =>
    have hend : s.place + 1 = (s.eng.row.toNat + 1) * s.stride := by
      rw [Nat.succ_mul]
      unfold State.place State.reconAt
      omega
    split
    next hrow =>
      have e : (s.eng.row + 1#32).toNat = s.eng.row.toNat + 1 := by bv_omega
      refine .inl ⟨hp, ?_, ?_, ?_⟩
      · show (s.eng.row + 1#32).toNat * s.stride + 0 = s.place + 1
        rw [e, hend]; rfl
      · show (s.eng.row + 1#32).toNat < s.height
        omega
      · show 0 < s.stride
        omega
    next hrow =>
      have e : s.eng.row.toNat + 1 = s.height := by omega
      exact .inr ⟨rfl, rfl, by rw [hend, e]⟩

theorem standsAt_reconstruct (v : Byte) (hp : s.eng.phase = .filter)
    (hr : s.eng.row.toNat < s.height) (hc : s.eng.col.toNat < s.stride) (hw : s.stride < 2 ^ 32) :
    StandsAt s (s.place + 1) (s.reconstruct v).eng :=
  standsAt_advance (s := s.writeRecon v) hp hr hc hw

/-- One byte more. -/
theorem RowLoop.next (h : RowLoop s n t) (hq : s.schedule = []) (hw : s.stride < 2 ^ 32)
    (hp : t.eng.phase = .filter) (hf : (s.filterType t.eng.row.toNat).toNat ≤ 4) :
    ∃ u, step t = .next u ∧ RowLoop s (n + 1) u := by
  obtain ⟨-, hn, hrow, hcol⟩ := h.place.resolve_right (by simp [hp])
  have hplace : t.place = n := (h.reconAt _ _).trans hn
  rw [← h.filterType] at hf
  rw [← h.stride] at hcol hw
  rw [← h.height] at hrow
  refine ⟨_, step_filter_valid (h.schedule.trans hq) hp hf, ?_, fun i j hj hij => ?_, ?_⟩
  · exact (reconstruct_eq_loopAs t _).trans (h.loopAs _)
  · rw [← h.reconAt] at hij
    rcases Nat.lt_or_ge (t.reconAt i j) n with hlt | hge
    · exact (h.rows i j hj (h.reconAt i j ▸ hlt)).reconstruct _ (h.stride ▸ hj) (hplace ▸ hlt)
    · obtain ⟨rfl, rfl⟩ := reconAt_inj (h.stride ▸ hj) hcol (show t.reconAt i j = t.place by omega)
      exact reconstructed_place hcol
  · rw [← h.standsAt_eq, ← hplace]
    exact standsAt_reconstruct _ hp hrow hcol hw

/-- The first `r` rows, of valid filter types, are reconstructed byte by byte. -/
theorem RowLoop.runs (h0 : RowLoop s 0 s) (hq : s.schedule = []) (hw : s.stride < 2 ^ 32)
    {r : Nat} (hr : r ≤ s.height) (hf : ∀ i < r, (s.filterType i).toNat ≤ 4)
    (hn : n ≤ r * s.stride) : ∃ t, Runs n s t ∧ RowLoop s n t := by
  induction n with
  | zero => exact ⟨s, Runs.zero s, h0⟩
  | succ n ih =>
    obtain ⟨t, hrun, ht⟩ := ih (by omega)
    have hlt : n < s.height * s.stride := Nat.lt_of_lt_of_le hn (Nat.mul_le_mul_right _ hr)
    obtain ⟨hp, hplace, -, -⟩ := ht.place.resolve_right (by rintro ⟨-, -, e⟩; omega)
    have hrow : t.eng.row.toNat < r := by
      refine Nat.lt_of_mul_lt_mul_right (a := s.stride) ?_
      unfold State.reconAt at hplace
      omega
    obtain ⟨u, hstep, hu⟩ := ht.next hq hw hp (hf _ hrow)
    exact ⟨u, hrun.trans (Runs.single hstep), hu⟩

end

/-! ### The statements -/

section
variable {s : State} {d : List Byte} {i j n : Nat}

/-- A byte of DECOMP_BUF, by the list of what stands there. -/
theorem getElem?_eq_readDecomp (hd : Memory.Holds s.spaces.decompBuf d) (hn : n < d.length) :
    d[n]? = some (s.readByteAt .decompBuf n) := by
  rw [List.getElem?_eq_getElem hn, State.readByteAt, Spaces.bytes, hd n hn, Option.getD_some]

/-- A byte of a scanline, its filter type at `j` = 0, is within E (30_encoding.md R88). -/
theorem scanline_lt_expectedSize (hi : i < s.height) (hj : j ≤ s.stride) :
    s.scanlineAt i + j < s.expectedSize := by
  have hrow : (i + 1) * (s.stride + 1) ≤ s.height * (s.stride + 1) := Nat.mul_le_mul_right _ hi
  have hnext : (i + 1) * (s.stride + 1) = s.scanlineAt i + (s.stride + 1) := Nat.succ_mul _ _
  have hE : s.height * (s.stride + 1) = s.expectedSize := by
    unfold State.stride State.expectedSize; ring
  omega

theorem filteredAt_lt_expectedSize (hi : i < s.height) (hj : j < s.stride) :
    s.filteredAt i j < s.expectedSize := by
  rw [State.filteredAt, Nat.add_assoc]
  exact scanline_lt_expectedSize hi (by rw [Nat.add_comm]; exact hj)

/-- The filter type of a row, by that list. -/
theorem filterType_eq (hd : Memory.Holds s.spaces.decompBuf d) {ft : Byte}
    (h : d[i * (3 * s.width + 1)]? = some ft) : s.filterType i = ft := by
  have hlt := (List.getElem?_eq_some_iff.1 h).1
  exact Option.some.inj ((getElem?_eq_readDecomp hd hlt).symm.trans h)

theorem filterTypes_valid {r : Nat} (hd : Memory.Holds s.spaces.decompBuf d)
    (hf : ∀ i < r, ∃ ft, d[i * (3 * s.width + 1)]? = some ft ∧ ft.toNat ≤ 4) :
    ∀ i < r, (s.filterType i).toNat ≤ 4 := by
  intro i hi
  obtain ⟨ft, hget, hle⟩ := hf i hi
  rwa [filterType_eq hd hget]

theorem Reconstructed.reconByte (h : Reconstructed s i j) : s.reconByte i j = s.reconValue i j := by
  unfold Reconstructed at h
  rw [State.reconByte, State.readByteAt, Spaces.bytes, h, Option.getD_some]

theorem toNat_reconValue (s : State) (i j : Nat) : (s.reconValue i j).toNat =
    ((s.filtered i j).toNat + predictorOf (s.filterType i)
      (s.neighbourA i j) (s.neighbourB i j) (s.neighbourC i j)) % 256 := by
  rw [State.reconValue, add_ofNat_eq, BitVec.toNat_ofNat]

end

/-- With every row done the loop has gone on to PACK. -/
theorem RowLoop.finished {s t : State} (h : RowLoop s (s.height * s.stride) t) :
    t.eng.phase = .pack ∧ t.eng.packIdx = 0 := by
  rcases h.place with ⟨-, hplace, hrow, hcol⟩ | ⟨hp, hidx, -⟩
  · have hle : (t.eng.row.toNat + 1) * s.stride ≤ s.height * s.stride :=
      Nat.mul_le_mul_right _ hrow
    rw [Nat.succ_mul] at hle
    unfold State.reconAt at hplace
    omega
  · exact ⟨hp, hidx⟩

/-- With the first `r` rows done and one left, it stands at row `r`. -/
theorem RowLoop.atRow {s t : State} {r : Nat} (h : RowLoop s (r * s.stride) t) (hr : r < s.height)
    (hw : 0 < s.stride) : t.eng.phase = .filter ∧ t.eng.row.toNat = r := by
  rcases h.place with ⟨hp, hplace, -, hcol⟩ | ⟨-, -, hn⟩
  · exact ⟨hp, (reconAt_inj (j' := 0) hcol hw hplace).1⟩
  · exact absurd (Nat.eq_of_mul_eq_mul_right hw hn) hr.ne

/-- Settles O57: the loop over all rows, its image read off RECON at the end. -/
theorem rowLoopReconstructsTheImage : Obligations.RowLoopReconstructsTheImage := by
  rintro s w h d hq hp hr hc rfl rfl hw hh hlen hlim hd hft
  have hstride : s.stride < 2 ^ 32 :=
    ((stride_le_expectedSize hh).trans_eq hlen.symm).trans_lt hlim
  have h0 := RowLoop.entry hp hr hc (Nat.mul_pos (by decide) hw) hh
  obtain ⟨t, hrun, ht⟩ := h0.runs hq hstride le_rfl (filterTypes_valid hd hft) le_rfl
  obtain ⟨hpack, hidx⟩ := ht.finished
  have heng : t.eng = (s.loopAs t).eng := congrArg State.eng ht.frame
  rw [State.loopAs, hpack, hidx] at heng
  refine ⟨t, t.reconByte, hrun, hpack, hidx, fun i j hi hj => ?_, ht.spaces,
    ht.regs, ht.ports, ht.params, ht.schedule.trans hq, heng⟩
  have hrec : Reconstructed t i j := ht.rows i j hj (reconAt_lt_rows hi hj)
  refine ⟨?_, t.filterType i, t.filtered i j, ?_, ?_, ?_⟩
  · have hread : Memory.read? t.spaces.recon (t.reconAt i j) = some (t.reconByte i j) := by
      rw [hrec.reconByte]
      exact hrec
    rwa [ht.reconAt] at hread
  · rw [ht.filterType]
    exact getElem?_eq_readDecomp hd
      ((scanline_lt_expectedSize (j := 0) hi (Nat.zero_le _)).trans_eq hlen.symm)
  · rw [ht.filtered]
    exact getElem?_eq_readDecomp hd ((filteredAt_lt_expectedSize hi hj).trans_eq hlen.symm)
  · rw [hrec.reconByte, toNat_reconValue]
    rfl

/-- Settles O58: the loop over the rows before `r`, and one step more. -/
theorem lowestBadRowIsReported : Obligations.LowestBadRowIsReported := by
  rintro s w h r d hq hp hr hc rfl rfl hw hrh hlen hlim hd hft ⟨ft, hget, hbad⟩
  have hstride : s.stride < 2 ^ 32 :=
    ((stride_le_expectedSize (Nat.zero_lt_of_lt hrh)).trans_eq hlen.symm).trans_lt hlim
  have hw' : 0 < s.stride := Nat.mul_pos (by decide) hw
  have h0 := RowLoop.entry hp hr hc hw' (Nat.zero_lt_of_lt hrh)
  obtain ⟨t, hrun, ht⟩ := h0.runs hq hstride hrh.le (filterTypes_valid hd hft) le_rfl
  obtain ⟨hpt, hrow⟩ := ht.atRow hrh hw'
  have hinvalid : 4 < (t.filterType t.eng.row.toNat).toNat := by
    rwa [hrow, ht.filterType, filterType_eq hd hget]
  have hrow' : t.eng.row = BitVec.ofNat 32 r := by
    rw [← hrow, BitVec.ofNat_toNat, BitVec.setWidth_eq]
  have hlast := step_filter_invalid (ht.schedule.trans hq) hpt hinvalid
  rw [hrow'] at hlast
  refine ⟨_, hrun.trans (Runs.single hlast), rfl, ?_, rfl, rfl, ?_⟩
  · rw [← ht.pos]
    rfl
  · rw [State.raise_spaces, ht.spaces]

end Sys2Proof.Machine
end

section
/-! ## The PACK phase -/

namespace Sys2Proof.Machine

section
variable {s t : State} {n : Nat}

/-- `s` with PIXEL and the pixel index as in `t`: all that the packing writes. -/
def State.pixelsAs (s t : State) : State :=
  { s with
    spaces := { s.spaces with pixel := t.spaces.pixel }
    eng := { s.eng with packIdx := t.eng.packIdx } }

/-- `n` pixels after PACK entry at `s` (41_scanline_reconstructor.md R147). -/
structure PackLoop (s : State) (n : Nat) (t : State) : Prop where
  frame : t = s.pixelsAs t
  packIdx : t.eng.packIdx = n
  pixels : ∀ m < n, Memory.read? t.spaces.pixel m =
    some (s.packedPixel (m % s.width) (m / s.width))

theorem PackLoop.schedule (h : PackLoop s n t) : t.schedule = s.schedule := by
  rw [h.frame]; rfl
theorem PackLoop.params (h : PackLoop s n t) : t.params = s.params := by
  rw [h.frame]; rfl
theorem PackLoop.regs (h : PackLoop s n t) : t.regs = s.regs := by
  rw [h.frame]; rfl
theorem PackLoop.ports (h : PackLoop s n t) : t.ports = s.ports := by
  rw [h.frame]; rfl
theorem PackLoop.pos (h : PackLoop s n t) : t.eng.pos = s.eng.pos := by
  rw [h.frame]; rfl
theorem PackLoop.phase (h : PackLoop s n t) : t.eng.phase = s.eng.phase := by
  rw [h.frame]; rfl
theorem PackLoop.pixelsAs (h : PackLoop s n t) (u : State) : t.pixelsAs u = s.pixelsAs u := by
  rw [h.frame]; rfl
theorem PackLoop.spaces (h : PackLoop s n t) :
    t.spaces = { s.spaces with pixel := t.spaces.pixel } := congrArg State.spaces h.frame
theorem PackLoop.size (h : PackLoop s n t) : t.width * t.height = s.width * s.height := by
  rw [h.frame]; rfl
theorem PackLoop.packedPixel (h : PackLoop s n t) (m : Nat) :
    t.packedPixel (m % t.width) (m / t.width) = s.packedPixel (m % s.width) (m / s.width) := by
  rw [h.frame]; rfl

/-- One pixel more. -/
theorem PackLoop.next (h : PackLoop s n t) : PackLoop s (n + 1) t.packPixel where
  frame := h.pixelsAs t.packPixel
  packIdx := by rw [State.packPixel_eng, h.packIdx]
  pixels m hm := by
    rw [State.packPixel_spaces, h.packIdx, h.packedPixel, Memory.read?_write]
    split
    next e => rw [e]
    next hne => exact h.pixels m (by omega)

/-- The first `n` pixels, one a step. -/
theorem PackLoop.runs (hq : s.schedule = []) (hp : s.eng.phase = .pack) (h0 : s.eng.packIdx = 0)
    (hn : n ≤ s.width * s.height) : ∃ t, Runs n s t ∧ PackLoop s n t := by
  induction n with
  | zero => exact ⟨s, Runs.zero s, rfl, h0, nofun⟩
  | succ n ih =>
    obtain ⟨t, hrun, ht⟩ := ih (by omega)
    have hstep : step t = .next t.packPixel := by
      rw [step_pack (ht.schedule.trans hq) (ht.phase.trans hp)]
      exact exec_pack_pixel (by rw [ht.packIdx, ht.size]; omega)
    exact ⟨t.packPixel, hrun.trans (Runs.single hstep), ht.next⟩

/-- Every pixel, and DONE entry (R148). -/
theorem pack_runs (hq : s.schedule = []) (hp : s.eng.phase = .pack) (h0 : s.eng.packIdx = 0) :
    ∃ t, PackLoop s (s.width * s.height) t ∧ Runs (s.width * s.height + 1) s t.enterDone := by
  obtain ⟨t, hrun, ht⟩ := PackLoop.runs hq hp h0 le_rfl
  have hstep : step t = .next t.enterDone := by
    rw [step_pack (ht.schedule.trans hq) (ht.phase.trans hp)]
    exact exec_pack_done (by rw [ht.packIdx, ht.size])
  exact ⟨t, ht, hrun.trans (Runs.single hstep)⟩

/-- The pixel at column `x`, row `y`, of an image that stands in RECON (10_state.md R45, R47). -/
theorem PackLoop.pixel {img : Nat → Nat → Byte} {w h : Nat}
    (ht : PackLoop s (s.width * s.height) t) (hw : w = s.width) (hh : h = s.height)
    (hr : ∀ i j, i < h → j < 3 * w →
      Memory.read? s.spaces.recon (i * (3 * w) + j) = some (img i j))
    {x y : Nat} (hx : x < w) (hy : y < h) : Memory.read? t.spaces.pixel (y * w + x) =
      some (0xFF#8 ++ img y (3 * x + 2) ++ img y (3 * x + 1) ++ img y (3 * x)) := by
  subst hw hh
  have hbyte (j : Nat) (hj : j < s.stride) : s.reconByte y j = img y j := by
    rw [State.reconByte, State.readByteAt, Spaces.bytes, State.reconAt, State.stride, hr y j hy hj,
      Option.getD_some]
  have hlt : (y + 1) * s.width ≤ s.height * s.width := Nat.mul_le_mul_right _ hy
  rw [Nat.succ_mul, Nat.mul_comm s.height] at hlt
  have hmod : (y * s.width + x) % s.width = x := by
    rw [Nat.mul_comm, Nat.mul_add_mod, Nat.mod_eq_of_lt hx]
  have hdiv : (y * s.width + x) / s.width = y := by
    rw [Nat.mul_comm, Nat.mul_add_div (by omega), Nat.div_eq_of_lt hx, Nat.add_zero]
  have hstride : s.stride = 3 * s.width := rfl
  rw [ht.pixels _ (by omega), hmod, hdiv, packedPixel_eq, hbyte _ (by omega), hbyte _ (by omega),
    hbyte _ (by omega)]

end

/-- Settles O59: the loop over all pixels, and DONE entry. -/
theorem packPhasePacksEveryPixel : Obligations.PackPhasePacksEveryPixel := by
  rintro s w h img hq hp h0 rfl rfl hr
  obtain ⟨t, ht, hrun⟩ := pack_runs hq hp h0
  refine ⟨_, hrun, rfl, rfl, ?_, ?_, fun x y hx hy => ht.pixel rfl rfl hr hx hy, ht.spaces,
    ht.params, ht.schedule.trans hq⟩
  · rw [← ht.regs]
    exact ofNat_pixels t
  · rw [← ht.pos]
    rfl

end Sys2Proof.Machine
end

section
/-! ## The parse of a stream of IHDR, IDAT chunks and IEND -/

namespace Sys2Proof.Machine

/-- Inside a decode that reads `rest` next: `pos` bytes are consumed, the IDAT payloads so far are
`data`, and no request is outstanding. -/
structure Parsing (pos : Nat) (data rest : List Byte) (s : State) : Prop where
  quiet : s.schedule = []
  pos : s.eng.pos = pos
  bytes : s.eng.idatBytes.toNat = data.length
  stored : Memory.Holds s.spaces.idat data
  pending : s.eng.decPending = false
  stream : s.ports.stream = rest

/-- A parse at a chunk boundary, with `k` chunks completed (40_container_parser.md R103). -/
structure AtBoundary (k pos : Nat) (data rest : List Byte) (s : State) : Prop
    extends Parsing pos data rest s where
  phase : s.eng.phase = .len
  fldK : s.eng.fldK = 0
  curOff : s.eng.curOff = 0
  chunks : s.eng.chunkCount.toNat = k

/-- A parse at the type completion of a chunk with this length and code (R103). -/
structure AtType (len code : Word) (k pos : Nat) (data rest : List Byte) (s : State) : Prop
    extends Parsing pos data rest s where
  phase : s.eng.phase = .type
  fldK : s.eng.fldK = 4
  curLen : s.eng.curLen = len
  curType : s.eng.curType = code
  curOff : s.eng.curOff = 0
  chunks : s.eng.chunkCount.toNat = k

/-- What no part of a chunk but an IHDR's payload changes. -/
structure SameHeader (s t : State) : Prop where
  regs : t.regs = s.regs
  params : t.params = s.params

theorem SameHeader.trans {s t u : State} (h : SameHeader s t) (h' : SameHeader t u) :
    SameHeader s u := ⟨h'.regs.trans h.regs, h'.params.trans h.params⟩

@[simp] theorem chunkBytes_length (len code : Word) (p : List Byte) (crc : Word) :
    (chunkBytes len code p crc).length = p.length + 12 := by
  simp only [chunkBytes, List.length_append, be32Bytes_length]
  omega

section
variable {s : State} {k pos : Nat} {data rest p : List Byte} {len code crc : Word}

/-- From a boundary the length and the type are read first. -/
theorem AtBoundary.header_runs (h : AtBoundary k pos data (chunkBytes len code p crc ++ rest) s) :
    ∃ t, Runs 8 s t ∧ AtType len code k (pos + 8) data (p ++ (be32Bytes crc ++ rest)) t ∧
      SameHeader s t := by
  have hs : s.ports.stream = be32Bytes len ++ be32Bytes code ++ (p ++ (be32Bytes crc ++ rest)) := by
    rw [h.stream, chunkBytes]
    simp only [List.append_assoc]
  refine ⟨_, chunkHeaderIsAssembledBigEndian s len code _ h.quiet h.phase h.fldK hs,
    ⟨⟨h.quiet, ?_, h.bytes, h.stored, h.pending, rfl⟩, rfl, rfl, rfl, rfl, h.curOff, h.chunks⟩,
    rfl, rfl⟩
  show s.eng.pos + 8 = pos + 8
  rw [h.pos]

theorem AtType.chunkCount_ne (h : AtType len code k pos data rest s) (hk : k ≠ 0) :
    s.eng.chunkCount ≠ 0#32 := by
  rintro e
  exact hk (by rw [← h.chunks, e]; rfl)

/-- An IDAT from its type completion adds its payload (R109, R111). -/
theorem AtType.idat_runs
    (h : AtType len codeIDAT k pos data (p ++ (be32Bytes crc ++ rest)) s)
    (hl : p.length = len.toNat) (hk : k ≠ 0) (hm : k + 1 ≤ s.params.maxChunks.toNat)
    (hi : data.length + p.length ≤ s.params.maxIdatBytes.toNat) :
    ∃ t, Runs (p.length + 5) s t ∧ AtBoundary (k + 1) (pos + p.length + 4) (data ++ p) rest t ∧
      SameHeader s t := by
  have hbytes := h.bytes
  have hcount := h.chunks
  have hcur := h.curLen
  have pass := (inPlace_idat (h.chunkCount_ne hk)).checksPass
    (fits_idat (by omega) (by rw [hcur]; omega))
  have hrun := (idat_runs_to_crc h.quiet h.phase h.fldK h.curType pass (by rw [hcur, hl]) h.curOff
    h.stream).chunkComplete (ty := codeIDAT) (crc := crc) (rest := rest) h.quiet h.curType
    (by decide) rfl
  refine ⟨_, hrun, ⟨⟨h.quiet, ?_, ?_, ?_, h.pending, rfl⟩, rfl, rfl, rfl, ?_⟩, rfl, rfl⟩
  · show s.eng.pos + p.length + 4 = _
    rw [h.pos]
  · show (s.eng.idatBytes + s.eng.curLen).toNat = _
    rw [List.length_append, hcur]
    bv_omega
  · show Memory.Holds (Memory.writeList s.spaces.idat
      (s.eng.idatBytes.toNat + s.eng.curOff) p) (data ++ p)
    rw [h.curOff, hbytes]
    exact h.stored.append p
  · show (s.eng.chunkCount + 1#32).toNat = _
    bv_omega

/-- The bytes of a sequence of IDAT chunks (30_encoding.md R96). -/
def idatStream (idats : List (List Byte × Word)) : List Byte :=
  idats.flatMap fun c => chunkBytes (BitVec.ofNat 32 c.1.length) codeIDAT c.1 c.2

/-- Any number of IDAT chunks, by induction on them. -/
theorem AtBoundary.idats_runs {idats : List (List Byte × Word)}
    (h : AtBoundary k pos data (idatStream idats ++ rest) s) (hk : k ≠ 0)
    (hm : k + idats.length ≤ s.params.maxChunks.toNat)
    (hi : data.length + (idats.flatMap Prod.fst).length ≤ s.params.maxIdatBytes.toNat) :
    ∃ t, Runs ((idatStream idats).length + idats.length) s t ∧
      AtBoundary (k + idats.length) (pos + (idatStream idats).length)
        (data ++ idats.flatMap Prod.fst) rest t ∧ SameHeader s t := by
  induction idats generalizing s k pos data with
  | nil => exact ⟨s, Runs.zero s, by simpa [idatStream] using h, rfl, rfl⟩
  | cons c idats ih =>
    have hstream : idatStream (c :: idats) =
      chunkBytes (BitVec.ofNat 32 c.1.length) codeIDAT c.1 c.2 ++ idatStream idats := rfl
    rw [List.flatMap_cons, List.length_append] at hi
    rw [List.length_cons] at hm
    rw [hstream, List.append_assoc] at h
    have hlen : c.1.length = (BitVec.ofNat 32 c.1.length).toNat := by bv_omega
    obtain ⟨t, hrun, ht, hst⟩ := h.header_runs
    obtain ⟨u, hrun', hu, htu⟩ := ht.idat_runs hlen hk (by rw [hst.params]; omega)
      (by rw [hst.params]; omega)
    have hsu := hst.trans htu
    obtain ⟨v, hrun'', hv, huv⟩ := ih hu (by omega) (by rw [hsu.params]; omega)
      (by rw [hsu.params, List.length_append]; omega)
    refine ⟨v, ?_, ?_, hsu.trans huv⟩
    · convert hrun.trans (hrun'.trans hrun'') using 1
      rw [hstream, List.length_append, chunkBytes_length, List.length_cons]
      omega
    · rw [hstream, List.length_append, chunkBytes_length, List.length_cons, List.flatMap_cons,
        ← List.append_assoc]
      convert hv using 1 <;> omega

/-- An IEND from its type completion ends the parse (R113, R114). -/
theorem AtType.iend_runs (h : AtType 0#32 codeIEND k pos data (be32Bytes crc ++ rest) s)
    (hk : k ≠ 0) (hm : k + 1 ≤ s.params.maxChunks.toNat) :
    ∃ t, Runs 5 s t ∧ Parsing (pos + 4) data rest t ∧ t.eng.phase = .check ∧
      t.eng.stage = .method ∧ SameHeader s t := by
  have hcount := h.chunks
  have pass := (inPlace_iend (h.chunkCount_ne hk) h.curLen).checksPass (fits_iend (by omega))
  have h1 := ChunkInstr.iend.step_type h.quiet h.phase h.fldK h.curType
  rw [ChunkInstr.iend.exec_empty h.phase pass h.curLen] at h1
  have hrun := (Runs.single h1).chunkComplete (ty := codeIEND) (crc := crc) (rest := rest) h.quiet
    h.curType (by decide) h.stream
  refine ⟨_, hrun, ⟨h.quiet, ?_, h.bytes, h.stored, h.pending, rfl⟩, rfl, rfl, rfl, rfl⟩
  show s.eng.pos + 4 = _
  rw [h.pos]

/-- An IHDR from its type completion shows its fields in the header registers (R105, R106). Beside
what O43 states, no request becomes outstanding. -/
theorem AtType.ihdr_runs {w h : Word} {bd ct cm fm im : Byte}
    (hs : AtType 13#32 codeIHDR 0 pos data
      (be32Bytes w ++ be32Bytes h ++ [bd, ct, cm, fm, im] ++ (be32Bytes crc ++ rest)) s)
    (hm : 1 ≤ s.params.maxChunks.toNat) (hw : w ≠ 0#32) (hh : h ≠ 0#32) :
    ∃ t, Runs 18 s t ∧ AtBoundary 1 (pos + 17) data rest t ∧
      t.regs = { s.regs with
        hdrWidth := w, hdrHeight := h, hdrFmt := fm ++ cm ++ ct ++ bd, hdrIlace := 0#24 ++ im } ∧
      t.params = s.params := by
  have hcount : s.eng.chunkCount = 0#32 := toNat_eq_zero_iff.1 hs.chunks
  have pass := (inPlace_ihdr hcount hs.curLen).checksPass (fits_ihdr (by simpa [hcount] using hm))
  have h1 := ChunkInstr.ihdr.step_type hs.quiet hs.phase hs.fldK hs.curType
  rw [ChunkInstr.ihdr.exec_begin hs.phase pass (by simp [hs.curLen])] at h1
  have hpay := header_payload_runs (s := s.setPhase .payload) hs.quiet rfl hs.curType
    (by simp [be32Bytes]) (by simp [hs.curOff, hs.curLen, be32Bytes]) hs.stream
  obtain ⟨ew, eh, ef, ei⟩ := header_of_payload (v := s.eng.hdrBuf) (e := (State.headerTaken
    (be32Bytes w ++ be32Bytes h ++ [bd, ct, cm, fm, im]) (be32Bytes crc ++ rest)
    (s.setPhase .payload)).eng) (by rw [← hs.curOff]; rfl)
  rw [ihdrComplete_nonzero (by rwa [ew]) (by rwa [eh])] at hpay
  have hrun := (Runs.succ h1 hpay).chunkComplete (ty := codeIHDR) (crc := crc) (rest := rest)
    hs.quiet hs.curType (by decide) rfl
  refine ⟨_, hrun, ⟨⟨hs.quiet, ?_, hs.bytes, hs.stored, hs.pending, rfl⟩, rfl, rfl, rfl, ?_⟩,
    (State.chunkComplete_regs _ _).trans (setHeader_regs ew eh ef ei), rfl⟩
  · show s.eng.pos + 13 + 4 = _
    rw [hs.pos]
  · show (s.eng.chunkCount + 1#32).toNat = 1
    rw [hcount]
    rfl

end

end Sys2Proof.Machine
end

section
/-! ## The round trip: an encoded image comes back pixel for pixel -/

namespace Sys2Proof.Machine

/-! ### From the signature to the request -/

/-- The decompressor has been asked for the `e` bytes behind `data`, and `pos` bytes of the stream
are consumed (41_scanline_reconstructor.md R133). -/
structure Requested (data : List Byte) (e pos : Nat) (rest : List Byte) (s : State) : Prop where
  phase : s.eng.phase = .decomp
  pending : s.eng.decPending = true
  request : s.ports.request = some ⟨data, e⟩
  answer : s.ports.answer = none
  expSize : s.eng.expSize = e
  pos : s.eng.pos = pos
  stream : s.ports.stream = rest

/-- The header registers show a `w` by `h` image, and the parameters are `p`. -/
structure Sized (w h : Word) (p : Params) (s : State) : Prop where
  width : s.regs.hdrWidth = w
  height : s.regs.hdrHeight = h
  params : s.params = p

section
variable {s : State} {pos e : Nat} {data rest : List Byte}

theorem step_engine {i : Instr} (hq : s.schedule = []) (hi : s.engineInstr = some i) :
    step s = exec i s := by
  rw [step_engine_instr (engineTurn_of_quiet hq) hi, takeTurn_of_quiet hq]

theorem step_method (hq : s.schedule = []) (hp : s.eng.phase = .check)
    (hst : s.eng.stage = .method) (hc : s.regs.compression = 0#8)
    (hf : s.regs.filterMethod = 0#8) :
    step s = .next { s with eng := { s.eng with stage := .size } } :=
  (step_engine hq (engineInstr_method hp hst)).trans ((methodsMustBeZero s).1 hc hf)

theorem step_size (hq : s.schedule = []) (hp : s.eng.phase = .check) (hst : s.eng.stage = .size)
    (he : e = s.expectedSize) (hm : e ≤ s.params.maxReconBytes.toNat) :
    step s = .next { s with
      eng := { s.eng with expSize := e, stage := .request }
      regs := { s.regs with expSize := BitVec.ofNat 32 e } } :=
  (step_engine hq (engineInstr_size hp hst)).trans ((sizeIsExactAndChecked s e he).1 hm)

theorem step_request (hq : s.schedule = []) (hp : s.eng.phase = .check)
    (hst : s.eng.stage = .request) (hd : s.eng.decPending = false)
    (hb : data.length = s.eng.idatBytes.toNat) (hi : Memory.Holds s.spaces.idat data) :
    step s = .next { s with
      eng := { s.eng with phase := .decomp, decPending := true }
      ports := { s.ports with request := some ⟨data, s.eng.expSize⟩, answer := none } } :=
  (step_engine hq (engineInstr_decompress (.inl ⟨hp, hst⟩))).trans
    (decompressIssuesTheRequest s data hd hb hi)

/-- The three steps of CHECK (R130 to R133). -/
theorem Parsing.check_runs (h : Parsing pos data rest s) (hp : s.eng.phase = .check)
    (hst : s.eng.stage = .method) (hc : s.regs.compression = 0#8)
    (hf : s.regs.filterMethod = 0#8) (he : e = s.expectedSize)
    (hm : e ≤ s.params.maxReconBytes.toNat) :
    ∃ t, Runs 3 s t ∧ Requested data e pos rest t ∧
      Sized s.regs.hdrWidth s.regs.hdrHeight s.params t :=
  ⟨_, Runs.succ (step_method h.quiet hp hst hc hf) (Runs.succ (step_size h.quiet hp rfl he hm)
      (Runs.single (step_request h.quiet hp rfl h.pending h.bytes.symm h.stored))),
    ⟨rfl, rfl, rfl, rfl, rfl, h.pos, h.stream⟩, rfl, rfl, rfl⟩

/-- The signature, right after START (40_container_parser.md R100). -/
theorem signature_runs_to_boundary (hq : s.schedule = [])
    (he : s.eng = { Engine.reset with phase := .sig })
    (hs : s.ports.stream = signatureList ++ rest) :
    ∃ t, Runs 8 s t ∧ AtBoundary 0 8 [] rest t ∧ SameHeader s t := by
  refine ⟨_, signatureIsAccepted s rest hq (by rw [he]) (by rw [he]; rfl) hs, ?_, rfl, rfl⟩
  rw [he]
  exact ⟨⟨hq, rfl, rfl, Memory.Holds.nil _, rfl, rfl⟩, rfl, rfl, rfl, rfl⟩

end

/-- The method fields of HDR_FMT (10_state.md R33). -/
theorem methods_of_hdrFmt (fm cm ct bd : Byte) :
    (fm ++ cm ++ ct ++ bd).extractLsb' 16 8 = cm ∧
    (fm ++ cm ++ ct ++ bd).extractLsb' 24 8 = fm := by
  constructor
  · rw [BitVec.extractLsb'_append_eq_of_le (by decide), BitVec.extractLsb'_append_eq_of_le
      (by decide), BitVec.extractLsb'_append_eq_of_add_le (by decide), BitVec.extractLsb'_eq_self]
  · rw [BitVec.extractLsb'_append_eq_of_le (by decide), BitVec.extractLsb'_append_eq_of_le
      (by decide), BitVec.extractLsb'_append_eq_of_le (by decide), BitVec.extractLsb'_eq_self]

/-- The stream in the parser's terms. -/
theorem imageStream_eq (w h : Word) (bd ct im : Byte) (crc0 crc1 : Word)
    (idats : List (List Byte × Word)) (rest : List Byte) :
    imageStream w h bd ct im crc0 crc1 idats ++ rest = signatureList ++
      (chunkBytes 13#32 codeIHDR (be32Bytes w ++ be32Bytes h ++ [bd, ct, 0#8, 0#8, im]) crc0 ++
        (idatStream idats ++ (chunkBytes 0#32 codeIEND [] crc1 ++ rest))) := by
  have hsig : sigBytes 0x89504E470D0A1A0A#64 = signatureList := by decide
  rw [imageStream, hsig]
  simp only [List.append_assoc]
  rfl

theorem imageStream_length (w h : Word) (bd ct im : Byte) (crc0 crc1 : Word)
    (idats : List (List Byte × Word)) :
    (imageStream w h bd ct im crc0 crc1 idats).length = (idatStream idats).length + 45 := by
  have := congrArg List.length (imageStream_eq w h bd ct im crc0 crc1 idats [])
  simp only [List.append_nil, List.length_append, chunkBytes_length, be32Bytes_length,
    signatureList_length, List.length_cons, List.length_nil] at this
  omega

/-- The engine alone reads the whole stream and asks the decompressor for the rows. -/
theorem parse_runs {s : State} {w h : Word} {bd ct im : Byte} {crc0 crc1 : Word}
    {idats : List (List Byte × Word)} {rest : List Byte} (hq : s.schedule = [])
    (he : s.eng = { Engine.reset with phase := .sig }) (hw : w ≠ 0#32) (hh : h ≠ 0#32)
    (hE : w.toNat * h.toNat * 3 + h.toNat ≤ s.params.maxReconBytes.toNat)
    (hm : idats.length + 2 ≤ s.params.maxChunks.toNat)
    (hi : (idats.flatMap Prod.fst).length ≤ s.params.maxIdatBytes.toNat)
    (hs : s.ports.stream = imageStream w h bd ct im crc0 crc1 idats ++ rest) :
    ∃ t, Runs ((imageStream w h bd ct im crc0 crc1 idats).length + (idats.length + 2) + 3) s t ∧
      Requested (idats.flatMap Prod.fst) (w.toNat * h.toNat * 3 + h.toNat)
        (imageStream w h bd ct im crc0 crc1 idats).length rest t ∧
      Sized w h s.params t := by
  rw [imageStream_eq] at hs
  rw [imageStream_length]
  obtain ⟨t₁, hrun₁, h₁, hdr₁⟩ := signature_runs_to_boundary hq he hs
  obtain ⟨t₂, hrun₂, h₂, hdr₂⟩ := h₁.header_runs
  obtain ⟨t₃, hrun₃, h₃, hregs, hparams⟩ := h₂.ihdr_runs
    (by rw [hdr₂.params, hdr₁.params]; omega) hw hh
  rw [hdr₂.params, hdr₁.params] at hparams
  obtain ⟨t₄, hrun₄, h₄, hdr₄⟩ := h₃.idats_runs one_ne_zero (by rw [hparams]; omega)
    (by rw [hparams]; simpa using hi)
  obtain ⟨t₅, hrun₅, h₅, hdr₅⟩ := h₄.header_runs
  have hdr := hdr₄.trans hdr₅
  obtain ⟨t₆, hrun₆, h₆, hp₆, hst₆, hdr₆⟩ := h₅.iend_runs (by omega)
    (by rw [hdr.params, hparams]; omega)
  have hdr' := hdr.trans hdr₆
  have hregs' := hdr'.regs.trans hregs
  have hparams' := hdr'.params.trans hparams
  obtain ⟨hcm, hfm⟩ := methods_of_hdrFmt 0#8 0#8 ct bd
  obtain ⟨t, hrun, ht, hsize⟩ := h₆.check_runs hp₆ hst₆ (e := w.toNat * h.toNat * 3 + h.toNat)
    (by rw [Regs.compression, hregs', hcm]) (by rw [Regs.filterMethod, hregs', hfm])
    (by rw [State.expectedSize, State.width, State.height, hregs']) (by rw [hparams']; exact hE)
  refine ⟨t, ?_, ?_, ?_⟩
  · convert hrun₁.trans (hrun₂.trans (hrun₃.trans (hrun₄.trans (hrun₅.trans
      (hrun₆.trans hrun))))) using 1
    omega
  · have hpos : 8 + 8 + 17 + (idatStream idats).length + 8 + 4 =
        (idatStream idats).length + 45 := by omega
    rw [← hpos]
    exact ht
  · rw [hregs', hparams'] at hsize
    exact hsize

/-! ### The rows of the image (R151) -/

section
variable {α : Type} {L : Nat}

theorem length_flatMap_range (f : Nat → List α) (hf : ∀ y, (f y).length = L) (n : Nat) :
    ((List.range n).flatMap f).length = n * L := by
  simp [List.length_flatMap, hf]

/-- Element `k` of block `y` of a list of blocks of one length. -/
theorem getElem?_flatMap_range (f : Nat → List α) (hf : ∀ y, (f y).length = L) {n y k : Nat}
    (hy : y < n) (hk : k < L) : ((List.range n).flatMap f)[y * L + k]? = (f y)[k]? := by
  induction n with
  | zero => omega
  | succ n ih =>
    have hlen := length_flatMap_range f hf n
    rw [List.range_succ, List.flatMap_append, List.flatMap_singleton]
    rcases Nat.lt_or_ge y n with hlt | hge
    · have hle : (y + 1) * L ≤ n * L := Nat.mul_le_mul_right _ hlt
      rw [Nat.succ_mul] at hle
      rw [List.getElem?_append_left (by omega), ih hlt]
    · obtain rfl : y = n := by omega
      rw [List.getElem?_append_right (by omega), hlen, Nat.add_sub_cancel_left]

end

section
variable {w h : Nat} {px : Nat → Nat → Byte × Byte × Byte}

/-- A scanline with filter type 0: r, g, b of each pixel behind it. -/
def filterZeroRow (w : Nat) (px : Nat → Nat → Byte × Byte × Byte) (y : Nat) : List Byte :=
  0#8 :: (List.range w).flatMap fun x => [(px x y).1, (px x y).2.1, (px x y).2.2]

theorem filterZeroRow_length (y : Nat) : (filterZeroRow w px y).length = 3 * w + 1 := by
  rw [filterZeroRow, List.length_cons, length_flatMap_range (L := 3) _ (fun _ => rfl), Nat.mul_comm]

theorem filterZeroRows_length : (filterZeroRows w h px).length = w * h * 3 + h := by
  rw [show filterZeroRows w h px = (List.range h).flatMap (filterZeroRow w px) from rfl,
    length_flatMap_range _ filterZeroRow_length]
  ring

theorem filterZeroRows_get {y j : Nat} (hy : y < h) (hj : j < 3 * w + 1) :
    (filterZeroRows w h px)[y * (3 * w + 1) + j]? = (filterZeroRow w px y)[j]? :=
  getElem?_flatMap_range _ filterZeroRow_length hy hj

theorem filterZeroRows_type {y : Nat} (hy : y < h) :
    (filterZeroRows w h px)[y * (3 * w + 1)]? = some 0#8 :=
  filterZeroRows_get hy (Nat.succ_pos _)

theorem filterZeroRows_byte {x y c : Nat} (hx : x < w) (hy : y < h) (hc : c < 3) :
    (filterZeroRows w h px)[y * (3 * w + 1) + 1 + (3 * x + c)]? =
      [(px x y).1, (px x y).2.1, (px x y).2.2][c]? := by
  rw [Nat.add_assoc, filterZeroRows_get hy (by omega), filterZeroRow, Nat.add_comm 1,
    List.getElem?_cons_succ, Nat.mul_comm 3 x]
  exact getElem?_flatMap_range (L := 3) _ (fun _ => rfl) hx hc

/-- With filter type 0 a reconstructed byte is the filtered one (R138). -/
theorem eq_of_filterZero {v x : Byte} {a b c : Byte}
    (h : v.toNat = (x.toNat + predictorOf 0#8 a b c) % 256) : v = x := by
  apply BitVec.eq_of_toNat_eq
  rw [h, show predictorOf 0#8 a b c = 0 from rfl, Nat.add_zero, Nat.mod_eq_of_lt x.isLt]

/-- `img` is a reconstruction of the scanlines `d` of a `w` by `h` image, whatever the neighbours a
predictor is given. -/
def Reconstructs (d : List Byte) (w h : Nat) (img : Nat → Nat → Byte) : Prop :=
  ∀ i j, i < h → j < 3 * w → ∃ ft x a b c, d[i * (3 * w + 1)]? = some ft ∧
    d[i * (3 * w + 1) + 1 + j]? = some x ∧
    (img i j).toNat = (x.toNat + predictorOf ft a b c) % 256

theorem Reconstructs.byte {img : Nat → Nat → Byte}
    (hi : Reconstructs (filterZeroRows w h px) w h img) {x y c : Nat} (hx : x < w) (hy : y < h)
    (hc : c < 3) :
    some (img y (3 * x + c)) = [(px x y).1, (px x y).2.1, (px x y).2.2][c]? := by
  obtain ⟨ft, v, _, _, _, hft, hv, he⟩ := hi y (3 * x + c) hy (by omega)
  rw [filterZeroRows_type hy] at hft
  cases hft
  rw [← filterZeroRows_byte hx hy hc, hv, eq_of_filterZero he]

/-- The source pixel as PIXEL space shows it, opaque (10_state.md R45). -/
def pixelWord (c : Byte × Byte × Byte) : Word := 0xFF#8 ++ c.2.2 ++ c.2.1 ++ c.1

/-- So the image of such rows packs to the source. -/
theorem Reconstructs.pixelWord {img : Nat → Nat → Byte}
    (hi : Reconstructs (filterZeroRows w h px) w h img) {x y : Nat} (hx : x < w) (hy : y < h) :
    0xFF#8 ++ img y (3 * x + 2) ++ img y (3 * x + 1) ++ img y (3 * x) =
      Machine.pixelWord (px x y) := by
  have hred : img y (3 * x) = (px x y).1 := Option.some.inj (hi.byte hx hy (c := 0) (by decide))
  have hgreen : img y (3 * x + 1) = (px x y).2.1 :=
    Option.some.inj (hi.byte hx hy (c := 1) (by decide))
  have hblue : img y (3 * x + 2) = (px x y).2.2 :=
    Option.some.inj (hi.byte hx hy (c := 2) (by decide))
  rw [hred, hgreen, hblue, Machine.pixelWord]

end

/-! ### From the answer to DONE -/

/-- The decompressor answers the outstanding request (60_exceptions.md R183). -/
theorem step_answers_request {s : State} {r : List Event} {src : List Byte} {e : Nat}
    (hs : s.schedule = .decompressorAnswers :: r) (hd : s.eng.decPending = true)
    (hr : s.ports.request = some ⟨src, e⟩) (ha : s.ports.answer = none) :
    step s = .next { s with
      schedule := r
      ports := { s.ports with answer := some (decompressAnswer s.params src e) } } := by
  rw [step_decompressorAnswers hs, takeTurn_of_cons hs]
  simp [State.decompressorAnswers, hd, hr, ha]

/-- FILTER entry with the scanlines `d`, and `pos` bytes of the stream consumed (R134, R135). -/
structure FilterEntry (d : List Byte) (pos : Nat) (rest : List Byte) (s : State) : Prop where
  quiet : s.schedule = []
  phase : s.eng.phase = .filter
  row : s.eng.row = 0#32
  col : s.eng.col = 0#32
  scanlines : Memory.Holds s.spaces.decompBuf d
  pos : s.eng.pos = pos
  stream : s.ports.stream = rest

/-- The decompressor's turn, and the engine taking an answer of the expected size (R134). -/
theorem Requested.answer_runs {s : State} {data rest d : List Byte} {e pos : Nat} {w h : Word}
    {p : Params} (hs : Requested data e pos rest s) (hsize : Sized w h p s)
    (ha : decompressAnswer p data e = some d) (hl : d.length = e) (n : Nat) (r : Option Word) :
    ∃ t, Runs 2 (State.withOutside [.decompressorAnswers] n r s) t ∧ FilterEntry d pos rest t ∧
      Sized w h p t := by
  have hstep := step_answers_request (s := State.withOutside [.decompressorAnswers] n r s) rfl
    hs.pending hs.request hs.answer
  set u := { State.withOutside [.decompressorAnswers] n r s with
    schedule := []
    ports := { s.ports with answer := some (decompressAnswer s.params data e) } }
  have hanswer : u.ports.answer = some (some d) := by rw [← ha, ← hsize.params]
  obtain ⟨t, hexec, hbuf, hframe⟩ :=
    (answerMustHaveTheExpectedSize u _ hs.pending hanswer).1 d rfl (hl.trans hs.expSize.symm)
  have htake := (step_engine (s := u) rfl (engineInstr_decompress (.inr hs.phase))).trans hexec
  refine ⟨t, Runs.succ hstep (Runs.single htake), ?_, ?_⟩
  · rw [hframe]
    refine ⟨rfl, rfl, rfl, rfl, fun a ha => ?_, hs.pos, hs.stream⟩
    rw [hbuf, if_pos ha, List.getElem?_eq_getElem ha]
  · rw [hframe]
    exact ⟨hsize.width, hsize.height, hsize.params⟩

/-- From FILTER entry with the scanlines of an image to DONE with its pixels. -/
theorem FilterEntry.runs_to_done {s : State} {w h : Word} {p : Params} {pos : Nat}
    {rest : List Byte} {px : Nat → Nat → Byte × Byte × Byte}
    (hs : FilterEntry (filterZeroRows w.toNat h.toNat px) pos rest s) (hsize : Sized w h p s)
    (hw : w ≠ 0#32) (hh : h ≠ 0#32)
    (hE : w.toNat * h.toNat * 3 + h.toNat ≤ p.maxReconBytes.toNat) :
    ∃ (t : State) (m : Nat), Runs m s t ∧ t.eng.phase = .done ∧ t.regs.status = statusDone ∧
      t.ports.stream = rest ∧ t.params = p ∧ t.eng.pos = pos ∧
      t.regs.pixelCount.toNat = w.toNat * h.toNat ∧
      ∀ x y, x < w.toNat → y < h.toNat → Memory.read? t.spaces.pixel (y * w.toNat + x) =
        some (pixelWord (px x y)) := by
  obtain ⟨u, img, hrun, hpu, hiu, himg, -, hregs, hports, hparams, hqu, heng⟩ :=
    rowLoopReconstructsTheImage s w.toNat h.toNat _ hs.quiet hs.phase hs.row hs.col
      (by rw [hsize.width]) (by rw [hsize.height]) (BitVec.toNat_pos_of_ne_zero hw)
      (BitVec.toNat_pos_of_ne_zero hh) filterZeroRows_length
      (by rw [filterZeroRows_length]; omega) hs.scanlines
      (fun i hi => ⟨0#8, filterZeroRows_type hi, by decide⟩)
  have hwidth : u.width = w.toNat := by rw [width_eq, hregs, hsize.width]
  have hheight : u.height = h.toNat := by rw [height_eq, hregs, hsize.height]
  have hsrc : Reconstructs (filterZeroRows w.toNat h.toNat px) w.toNat h.toNat img :=
    fun i j hi hj => by
      obtain ⟨-, ft, v, hft, hv, he⟩ := himg i j hi hj
      exact ⟨ft, v, _, _, _, hft, hv, he⟩
  obtain ⟨t, ht, hrun'⟩ := pack_runs hqu hpu hiu
  refine ⟨t.enterDone, _, hrun.trans hrun', rfl, rfl, ?_, (ht.params.trans hparams).trans
    hsize.params, ?_, ?_, fun x y hx hy => ?_⟩
  · rw [State.enterDone_ports, ht.ports, hports, hs.stream]
  · rw [State.enterDone_eng, ht.pos, heng, hs.pos]
  · rw [State.enterDone_regs, ht.size, hwidth, hheight]
    exact Nat.mod_eq_of_lt (by omega)
  · rw [State.enterDone_spaces, ht.pixel hwidth.symm hheight.symm
      (fun i j hi hj => (himg i j hi hj).1) hx hy, hsrc.pixelWord hx hy]

/-- A pixel of the image read back in DONE (42_host_commands.md R166). -/
theorem hostValue_pixel_of_done {s : State} {n : Nat} (hst : s.regs.status = statusDone)
    (hn : n < s.params.maxReconBytes.toNat / 3) (hc : n < s.regs.pixelCount.toNat) :
    s.hostValue (.pixel n) = Memory.read? s.spaces.pixel n :=
  readElement_of_done (by rw [Regs.done, hst]; rfl) hn hc

/-- Settles O60: the parse, the answer, the row loop and the packing, one after the other. -/
theorem roundTripReturnsTheImage : Obligations.RoundTripReturnsTheImage := by
  intro s w h bd ct im crc0 crc1 idats rest px n he hw hh hE hm hi hs hans hn hsched
  obtain ⟨u, hparse, hu, hsize⟩ :=
    parse_runs (s := State.withOutside [] s.draws s.readData s) rfl he hw hh hE hm hi hs
  have hscheduled := runs_engine_withOutside [.decompressorAnswers] s.draws s.readData hparse
  rw [← hn, ← hsched] at hscheduled
  obtain ⟨v, hanswer, hv, hsize'⟩ := hu.answer_runs hsize hans filterZeroRows_length
    s.draws s.readData
  obtain ⟨t, m, hrun, hpt, hst, hstream, hparams, hpos, hcount, hpix⟩ :=
    hv.runs_to_done hsize' hw hh hE
  refine ⟨t, _, hscheduled.trans (hanswer.trans hrun), hpt, hst, hstream, hcount, hpos,
    fun x y hx hy => ?_⟩
  have hlt : (y + 1) * w.toNat ≤ h.toNat * w.toNat := Nat.mul_le_mul_right _ hy
  rw [Nat.succ_mul, Nat.mul_comm h.toNat] at hlt
  rw [hostValue_pixel_of_done hst ?_ (by omega), hpix x y hx hy]
  · rfl
  · rw [hparams]
    show _ < s.params.maxReconBytes.toNat / 3
    omega

end Sys2Proof.Machine
end

section
/-! ## Host commands and host accesses -/

namespace Sys2Proof.Machine

/-! ### START (42_host_commands.md R160, R161) -/

theorem exec_cmdStart_of_idle {s : State} (r : BitVec 30) (h : s.regs.busy = false) :
    exec (.cmdStart r) s = .next s.start := if_neg (by simp [h])

theorem exec_cmdStart_of_busy {s : State} (r : BitVec 30) (h : s.regs.busy = true) :
    exec (.cmdStart r) s = .next s := if_pos h

/-! ### Accesses with a defined effect (20_memory.md R62) -/

theorem accessRefusal_of_aligned {a : HostAddr} (h : ∀ o, a = .reg o → o % 4 = 0) :
    accessRefusal a 4 = none := by
  refine Option.eq_none_iff_forall_ne_some.2 fun r hr => ?_
  rcases accessRefusal_iff.1 hr with ⟨hn, -⟩ | ⟨-, -, o, ho, hm⟩
  · exact hn rfl
  · exact hm (h o ho)

/-- Only a write to CTRL carries a command (30_encoding.md R94). -/
theorem fetchCode_ctrlCode_of_ne {a : HostAddr} (h : a ≠ .reg 0x00) (n : Nat) (v : Word) :
    fetchCode (ctrlCode a n v) = none := by
  rw [ctrlCode, if_neg fun hc => h hc.1]
  rfl

/-! ### A read (42_host_commands.md R164, R166) -/

theorem State.deliver_of_some (a : HostAddr) (w : Word) (s : State) :
    s.deliver a (some w) = { s with readData := some w } := rfl

theorem State.deliver_of_none (a : HostAddr) (s : State) :
    s.deliver a none = { s with
      readData := some (unspecifiedValue a (Config.freeRead s.draws)), draws := s.draws + 1 } := rfl

/-- The two cases of an unspecified read in one word (log entry 25). -/
theorem unspecifiedValue_eq (a : HostAddr) (w : Word) :
    unspecifiedValue a w = if a = .reg 0x30 then 0#24 ++ w.extractLsb' 0 8 else w := by
  split
  next h => rw [h, unspecifiedValue_ilace]
  next h => exact unspecifiedValue_other h w

theorem step_hostRead_aligned {s : State} {a : HostAddr} {rest : List Event}
    (h : s.schedule = .hostRead a 4 :: rest) (ha : ∀ o, a = .reg o → o % 4 = 0) :
    step s = .next (State.deliver a (s.hostValue a) { s with schedule := rest }) := by
  rw [step_hostRead h]
  refine hostRead_next_iff.2 ⟨accessRefusal_of_aligned ha, ?_⟩
  rw [hostValue_takeTurn, takeTurn_of_cons h]

/-! ### The statements -/

/-- Settles O22, by the two values of STATUS.BUSY. -/
theorem startBeginsADecodeUnlessBusy : Obligations.StartBeginsADecodeUnlessBusy :=
  fun r _ => ⟨exec_cmdStart_of_idle r, exec_cmdStart_of_busy r⟩

/-- Settles O28: the access is not refused, and the value read is defined or drawn. -/
theorem hostReadReturnsAndChangesNothing : Obligations.HostReadReturnsAndChangesNothing := by
  intro s a rest h ha
  refine ⟨fun v hv => ?defined, fun hv => ?unspecified⟩
  case defined => rw [step_hostRead_aligned h ha, hv, State.deliver_of_some]
  case unspecified =>
    rw [step_hostRead_aligned h ha, hv, State.deliver_of_none, unspecifiedValue_eq]

/-- Settles O29: the write carries no command and is not refused, so it takes its event alone. -/
theorem otherHostWritesAreIgnored : Obligations.OtherHostWritesAreIgnored := by
  intro s a v rest h hne ha
  rw [step_hostWrite_ignored h (fetchCode_ctrlCode_of_ne hne 4 v)]
  exact hostWriteIgnored_next_iff.2 ⟨accessRefusal_of_aligned ha, (takeTurn_of_cons h).symm⟩

end Sys2Proof.Machine
end

section
/-! ## Where the engine rests and waits, error entry, and late answers -/

namespace Sys2Proof.Machine

/-! ### IDLE, DONE and ERROR (60_exceptions.md R177, R188) -/

theorem engineOther_rest {s : State}
    (h : s.eng.phase = .idle ∨ s.eng.phase = .done ∨ s.eng.phase = .error) :
    s.engineOther = s := by
  rcases h with h | h | h <;> simp [State.engineOther, State.wait, h]

/-- Outside a decode the engine's turn takes its event and nothing more. -/
theorem step_rest {s : State} (hE : s.engineTurn)
    (h : s.eng.phase = .idle ∨ s.eng.phase = .done ∨ s.eng.phase = .error) :
    step s = .next s.takeTurn := by
  rw [step_engine_other hE (engineInstr_rest h), engineOther_rest (s := s.takeTurn) h]

/-- Settles O10: no instruction runs there, and without one the engine waits. -/
theorem engineRestsOutsideADecode : Obligations.EngineRestsOutsideADecode :=
  fun _ hE h => step_rest hE h

/-! ### The waits of a decode (60_exceptions.md R189) -/

/-- A signature that is not complete waits for its next byte. -/
theorem exec_signature_stalled {s : State} (hk : s.eng.sigK < 8) (hs : s.ports.stream = [])
    (he : s.ports.streamEnded = false) : exec .signature s = .next s := by
  rw [← signatureList_length] at hk
  exact execSignature_stalled (List.getElem?_eq_getElem hk) hs he

/-- A recognised chunk in its payload or CRC waits for its next byte. -/
theorem ChunkInstr.exec_stalled {s : State} {i : Instr} {ty : Word} {store : Byte → State → State}
    {complete : State → State} (h : ChunkInstr i ty store complete)
    (hp : s.eng.phase = .payload ∨ s.eng.phase = .crc) (hs : s.ports.stream = [])
    (he : s.ports.streamEnded = false) : exec i s = .next s := by
  rcases hp with hp | hp
  · rw [h.exec_payload hp, payloadStep_stalled hs he]
  · rw [h.exec_crc hp, crcStep_stalled hs he]

/-- An outstanding request waits for its answer. -/
theorem exec_decompress_unanswered {s : State} (hp : s.eng.decPending = true)
    (ha : s.ports.answer = none) : exec .decompress s = .next s := by
  simp [exec, execDecompress, State.wait, hp, ha]

/-- Settles O11: the signature, the framing and the chunk in hand read the same port, and DECOMP reads
the answer. -/
theorem engineWaitsForByteOrAnswer : Obligations.EngineWaitsForByteOrAnswer := by
  intro s hE
  refine ⟨fun h hs he => ?byte, fun hp hd ha => ?answer⟩
  case byte =>
    show step s = .next s.takeTurn
    rcases h with ⟨hp, hk⟩ | hp | ⟨hp, hk⟩ | ⟨hp, hty⟩
    · rw [step_engine_instr hE (engineInstr_sig hp)]
      exact exec_signature_stalled hk hs he
    · rw [step_len hE hp, lengthStep_stalled (s := s.takeTurn) hs he]
    · rw [step_type hE hp hk, typeStep_stalled (s := s.takeTurn) hs he]
    · obtain ⟨store, complete, hi⟩ := chunkInstr_of_known hty
      rw [step_engine_instr hE (engineInstr_chunk (.inr hp))]
      exact hi.exec_stalled hp hs he
  case answer =>
    rw [step_engine_instr hE (engineInstr_decompress (.inr hp))]
    exact exec_decompress_unanswered hd ha

/-! ### Error entry (60_exceptions.md R170, R175) -/

/-- STATUS in ERROR is the code above bit 2, as a number (10_state.md R34). -/
theorem statusError_eq_ofNat (k : ErrKind) :
    statusError k = BitVec.ofNat 32 (k.code.toNat * 256 + 4) := by
  cases k <;> rfl

/-- Settles O20: the record's parts, the code of each kind, and the rest in ERROR. -/
theorem errorEntryRecordsAndStops : Obligations.ErrorEntryRecordsAndStops := by
  intro k o i s
  refine ⟨State.raise_eng s k o i, ?regs, State.raise_spaces s k o i, State.raise_ports s k o i,
    State.raise_params s k o i, State.raise_schedule s k o i, fun hE => ?stops⟩
  case regs =>
    rw [State.raise_regs, statusError_eq_ofNat]
    cases k <;> rfl
  case stops =>
    have hturn : (s.raise k o i).engineTurn := hE
    exact step_rest hturn (.inr (.inr rfl))

/-! ### Answers (60_exceptions.md R183, R184) -/

/-- With no request outstanding an answer is discarded. -/
theorem decompressorAnswers_of_not_pending {s : State} (h : s.eng.decPending = false) :
    s.decompressorAnswers = s :=
  (decompressorAnswers_cases s).resolve_right fun ⟨hp, _⟩ => Bool.false_ne_true (h.symm.trans hp)

/-- Settles O50: a late answer is discarded, and an awaited one stands at the port. -/
theorem lateAnswersAreDiscarded : Obligations.LateAnswersAreDiscarded := by
  intro s rest hs
  refine ⟨fun hd => ?late, fun src e hd hr ha => step_answers_request hs hd hr ha⟩
  case late =>
    rw [step_decompressorAnswers hs, decompressorAnswers_of_not_pending (s := s.takeTurn) hd,
      takeTurn_of_cons hs]

end Sys2Proof.Machine
end


section
/-! ## SOFT_RESET and power-on reset (70_reset_and_hazards.md R190, R191) -/

namespace Sys2Proof.Machine

/-- SOFT_RESET has one effect in every state, whatever its ignored bits hold
(42_host_commands.md R162, R163). -/
theorem exec_cmdSoftReset (b : Bool) (r : BitVec 30) (s : State) :
    exec (.cmdSoftReset b r) s = .next s.resetBlock := rfl

/-- Settles O23: the reset records are the same after SOFT_RESET and after power-on reset with this
machine's parameters. -/
theorem softResetIsReset : Obligations.SoftResetIsReset := by
  intro b r s
  have hexec := exec_cmdSoftReset b r s
  obtain ⟨hparams, hregs, heng, hports, hspaces⟩ :=
    reset_records (p := s.params) (.inr (.inl ⟨s, b, r, rfl, hexec⟩))
  obtain ⟨-, hregs₀, heng₀, hports₀, hspaces₀⟩ := reset_records (p := s.params) (.inl rfl)
  exact ⟨s.resetBlock, hexec, heng.trans heng₀.symm, hregs.trans hregs₀.symm,
    hspaces.trans hspaces₀.symm, hports.trans hports₀.symm, hparams, State.resetBlock_schedule s⟩

end Sys2Proof.Machine
end
